-- ==== Sys2Proof/Word.lean ====
section
/-! DEFINITION. The word types of the block and nothing else (spec 00_scope R7: unsigned values, bit 0 least significant). -/

namespace Sys2Proof

/-- A data byte, an address byte or a chip register value (30_encoding R100, R101). -/
abbrev Byte := BitVec 8

/-- A 32-bit command word CW or segment descriptor header SD, carried whole (30_encoding R90). -/
abbrev Word := BitVec 32

/-- A 7-bit bus target address (20_memory R61). -/
abbrev Addr7 := BitVec 7

end Sys2Proof
end

