-- ==== Sys2Proof/Syntax.lean ====
section
/-! DEFINITION. What crosses the block's two ports. The host port: command words, payloads, segments, and the one
inductive of commands, a constructor per row of spec/opcode_table.json. The bus port: the targets' answers. And the moves
by which the world drives the interleaving. -/

namespace Sys2Proof

/-! ## Segments (30_encoding R92) -/

/-- DIR of a segment: SD[31] = 0 writes to the target, 1 reads from it. -/
inductive Dir where
  | write
  | read
  deriving DecidableEq, Repr, Inhabited

/-- The decoded segment `{dir, ovr, oaddr, len, data}` of R92. -/
structure Segment where
  dir   : Dir
  ovr   : Bool
  oaddr : Addr7
  len   : BitVec 16
  data  : List Byte
  deriving DecidableEq, Repr, Inhabited

/-- One segment as a payload carries it: the header word SD and the data bytes that stand after it (R92). -/
structure SegDesc where
  sd   : Word
  data : List Byte
  deriving DecidableEq, Repr, Inhabited

/-- A payload, by value (R95): none, the data bytes of WRITE, or the segment descriptors of EXECUTE and ATOMIC_TRANSFER. -/
inductive Payload where
  | none
  | bytes (data : List Byte)
  | segs (descs : List SegDesc)
  deriving DecidableEq, Repr, Inhabited

/-- A command as a client issues it: the command word CW and its payload (R90). -/
structure Command where
  cw      : Word
  payload : Payload
  deriving DecidableEq, Repr, Inhabited

/-! ## Commands (30_encoding R96) -/

/-- The commands, one constructor per row of the opcode table, with the operand fields of the row's format (R91). -/
inductive Instr where
  /-- BUS_INIT, 0x01. -/
  | busInit
  /-- EXECUTE, 0x02: NSEG, the default address, the segments of the payload. -/
  | execute (nseg : BitVec 8) (addr : Addr7) (segs : List Segment)
  /-- PWM_INIT, 0x10: FREQ16 in Hz and the chip's address. -/
  | pwmInit (freq : BitVec 16) (addr : Addr7)
  /-- SET_DUTY, 0x11: channel index and duty in counts. -/
  | setDuty (ch : BitVec 8) (val : BitVec 16)
  /-- GET_DUTY, 0x12. -/
  | getDuty (ch : BitVec 8)
  /-- GET_PERIOD, 0x13. -/
  | getPeriod
  /-- GET_PERIOD_MIN, 0x14. -/
  | getPeriodMin
  /-- GET_PERIOD_MAX, 0x15. -/
  | getPeriodMax
  /-- SET_PERIOD, 0x16: the period in counts. -/
  | setPeriod (val : BitVec 16)
  /-- FLUSH_TRIGGER, 0x17. -/
  | flushTrigger
  /-- OPEN, 0x20. -/
  | openDesc
  /-- CLOSE, 0x21: descriptor id. -/
  | closeDesc (fd : BitVec 8)
  /-- READ, 0x22: descriptor id and byte count. -/
  | readDesc (fd : BitVec 8) (len : BitVec 16)
  /-- WRITE, 0x23: descriptor id, byte count, the payload's bytes. -/
  | writeDesc (fd : BitVec 8) (len : BitVec 16) (data : List Byte)
  /-- BIND_ADDRESS, 0x24: descriptor id and the 8-bit address field A8. -/
  | bindAddress (fd : BitVec 8) (a8 : BitVec 8)
  /-- ATOMIC_TRANSFER, 0x25: descriptor id, the number of sub-messages, the sub-messages of the payload. -/
  | atomicTransfer (fd : BitVec 8) (len : BitVec 16) (segs : List Segment)
  deriving DecidableEq, Repr, Inhabited

/-! ## The bus-target oracle (10_state R41) -/

/-- A target's answer to an address byte or a written byte (R40, R41). -/
inductive TargetAnswer where
  | ack
  | nack
  | stretchTo
  | timeout
  deriving DecidableEq, Repr, Inhabited

/-- Why a read byte was not completed (R40: `RXFAIL(r)` has r in STRETCH_TO, TIMEOUT). -/
inductive RxFailure where
  | stretchTo
  | timeout
  deriving DecidableEq, Repr, Inhabited

/-- The answer to `Draw.rx()` (R41). -/
inductive RxAnswer where
  | byte (v : Byte)
  | fail (r : RxFailure)
  deriving DecidableEq, Repr, Inhabited

/-- The answer to `Draw.lock()` (R41). -/
inductive LockAnswer where
  | goOn
  | timeout
  deriving DecidableEq, Repr, Inhabited

/-- One turn of the oracle: an answer of each kind, of which the block takes the one it asked for (R41; log entry 2). -/
structure Reply where
  target : TargetAnswer
  rx     : RxAnswer
  lock   : LockAnswer
  deriving DecidableEq, Repr, Inhabited

/-! ## The interleaving (20_memory R71) -/

/-- One step of the world: a client hands in a command (60_exceptions R323), or the agent named takes its next step
(00_scope R4; log entry 1). -/
inductive Move where
  | issue (j : Nat) (cmd : Command)
  | client (j : Nat)
  | engine
  | worker
  deriving DecidableEq, Repr, Inhabited

end Sys2Proof
end

