-- ==== Sys2Proof/WellFormed.lean ====
section
/-! DEFINITION. When a command term is one the host port's encoding can carry (30_encoding R91, R92, R97). A count that
disagrees with its payload is NOT ill-formed: the block answers it INVALID_ARGUMENT (R94). -/

namespace Sys2Proof

/-- R97: OADDR7 must be 0 when OVR = 0. -/
def Segment.overrideOk (seg : Segment) : Bool :=
  seg.ovr || seg.oaddr == 0#7

/-- R92: no data byte follows the header of a read segment. -/
def Segment.dataOk (seg : Segment) : Bool :=
  match seg.dir with
  | .write => true
  | .read => seg.data.isEmpty

/-- A segment that R92 can encode without a reserved bit. -/
def Segment.wellFormed (seg : Segment) : Bool :=
  seg.overrideOk && seg.dataOk

/-- A command the host port can carry. Only segments can be ill-formed: every other operand is a bit field of its width. -/
def Instr.wellFormed (i : Instr) : Bool :=
  match i with
  | .execute _ _ segs => segs.all Segment.wellFormed
  | .atomicTransfer _ _ segs => segs.all Segment.wellFormed
  | .busInit => true
  | .pwmInit _ _ => true
  | .setDuty _ _ => true
  | .getDuty _ => true
  | .getPeriod => true
  | .getPeriodMin => true
  | .getPeriodMax => true
  | .setPeriod _ => true
  | .flushTrigger => true
  | .openDesc => true
  | .closeDesc _ => true
  | .readDesc _ _ => true
  | .writeDesc _ _ _ => true
  | .bindAddress _ _ => true

end Sys2Proof
end

