-- ==== Sys2Proof/Decode.lean ====
section
/-! DEFINITION. The host-port encoding (30_encoding Part 1): the opcode map R96, the formats R91, the segment descriptor
R92, the rejections R97 and R98; then the encoder. -/

namespace Sys2Proof

/-! ## Fields (R90 to R92, R118: every field is an unsigned number, no extension, no scaling) -/

/-- OP = CW[31:24]. -/
def Word.op (w : Word) : BitVec 8 := w.extractLsb' 24 8
/-- CW[23:16]: NSEG, CH8 or FD8. -/
def Word.byte2 (w : Word) : BitVec 8 := w.extractLsb' 16 8
/-- CW[15:0]: VAL16 or LEN16. -/
def Word.low16 (w : Word) : BitVec 16 := w.extractLsb' 0 16
/-- CW[23:8]: FREQ16. -/
def Word.freq16 (w : Word) : BitVec 16 := w.extractLsb' 8 16
/-- CW[6:0]: ADDR7. -/
def Word.addr7 (w : Word) : Addr7 := w.extractLsb' 0 7
/-- CW[7:0]: A8. -/
def Word.a8 (w : Word) : BitVec 8 := w.extractLsb' 0 8

/-- SD[31] = DIR. -/
def Word.sdDir (w : Word) : Dir := if w.getLsbD 31 then .read else .write
/-- SD[30] = OVR. -/
def Word.sdOvr (w : Word) : Bool := w.getLsbD 30
/-- SD[29:23], reserved. -/
def Word.sdReserved (w : Word) : BitVec 7 := w.extractLsb' 23 7
/-- SD[22:16] = OADDR7. -/
def Word.sdOaddr (w : Word) : Addr7 := w.extractLsb' 16 7
/-- SD[15:0] = LEN16. -/
def Word.sdLen (w : Word) : BitVec 16 := w.extractLsb' 0 16

/-! ## Opcodes and formats -/

/-- The operand formats of R91. -/
inductive Format where
  | f0 | fx | fp | fc | fh | fv | ff | fl | fb
  deriving DecidableEq, Repr

/-- The rows of the opcode map R96. -/
inductive Opcode where
  | busInit | execute | pwmInit | setDuty | getDuty | getPeriod | getPeriodMin | getPeriodMax | setPeriod
  | flushTrigger | openDesc | closeDesc | readDesc | writeDesc | bindAddress | atomicTransfer
  deriving DecidableEq, Repr

/-- R96, column OP. -/
def Opcode.code (o : Opcode) : BitVec 8 :=
  match o with
  | .busInit => 0x01#8
  | .execute => 0x02#8
  | .pwmInit => 0x10#8
  | .setDuty => 0x11#8
  | .getDuty => 0x12#8
  | .getPeriod => 0x13#8
  | .getPeriodMin => 0x14#8
  | .getPeriodMax => 0x15#8
  | .setPeriod => 0x16#8
  | .flushTrigger => 0x17#8
  | .openDesc => 0x20#8
  | .closeDesc => 0x21#8
  | .readDesc => 0x22#8
  | .writeDesc => 0x23#8
  | .bindAddress => 0x24#8
  | .atomicTransfer => 0x25#8

/-- R96, column format. -/
def Opcode.format (o : Opcode) : Format :=
  match o with
  | .busInit => .f0
  | .execute => .fx
  | .pwmInit => .fp
  | .setDuty => .fc
  | .getDuty => .fh
  | .getPeriod => .f0
  | .getPeriodMin => .f0
  | .getPeriodMax => .f0
  | .setPeriod => .fv
  | .flushTrigger => .f0
  | .openDesc => .f0
  | .closeDesc => .ff
  | .readDesc => .fl
  | .writeDesc => .fl
  | .bindAddress => .fb
  | .atomicTransfer => .fl

/-- The reserved bits of CW in each format: every bit R91 does not name. -/
def Format.reserved (f : Format) : Word :=
  match f with
  | .f0 => 0x00FFFFFF#32
  | .fx => 0x0000FF80#32
  | .fp => 0x00000080#32
  | .fc => 0x00000000#32
  | .fh => 0x0000FFFF#32
  | .fv => 0x00FF0000#32
  | .ff => 0x0000FFFF#32
  | .fl => 0x00000000#32
  | .fb => 0x0000FF00#32

/-- The opcode a byte names; none for the illegal opcodes of R98. -/
def Opcode.ofCode (c : BitVec 8) : Option Opcode :=
  match c.toNat with
  | 0x01 => some .busInit
  | 0x02 => some .execute
  | 0x10 => some .pwmInit
  | 0x11 => some .setDuty
  | 0x12 => some .getDuty
  | 0x13 => some .getPeriod
  | 0x14 => some .getPeriodMin
  | 0x15 => some .getPeriodMax
  | 0x16 => some .setPeriod
  | 0x17 => some .flushTrigger
  | 0x20 => some .openDesc
  | 0x21 => some .closeDesc
  | 0x22 => some .readDesc
  | 0x23 => some .writeDesc
  | 0x24 => some .bindAddress
  | 0x25 => some .atomicTransfer
  | _ => none

/-! ## Decoding -/

/-- Why a command word names no command: each is answered ILLEGAL_COMMAND (R97, R98). -/
inductive DecodeError where
  /-- R98: an opcode that is not in R96. -/
  | illegalOpcode (op : BitVec 8)
  /-- R97: a nonzero reserved bit of CW. -/
  | reservedBits
  /-- R97: a segment descriptor with a nonzero SD[29:23], or with OVR = 0 and a nonzero OADDR7. -/
  | reservedSegBits
  deriving DecidableEq, Repr

/-- R92 and R97: the segment a descriptor stands for; none where it has a reserved bit set. -/
def SegDesc.decode (d : SegDesc) : Option Segment :=
  if Word.sdReserved d.sd = 0#7 ∧ (Word.sdOvr d.sd = true ∨ Word.sdOaddr d.sd = 0#7) then
    some { dir := Word.sdDir d.sd, ovr := Word.sdOvr d.sd, oaddr := Word.sdOaddr d.sd, len := Word.sdLen d.sd,
           data := d.data }
  else none

/-- The segments of a payload, none as soon as one descriptor has a reserved bit set (R97: "any segment descriptor"). -/
def decodeSegs (ds : List SegDesc) : Option (List Segment) :=
  match ds with
  | [] => some []
  | d :: rest =>
    match d.decode with
    | none => none
    | some seg =>
      match decodeSegs rest with
      | none => none
      | some segs => some (seg :: segs)

/-- The segment descriptors of a payload; a payload of another kind has none (log entry 10). -/
def Payload.descs (p : Payload) : List SegDesc :=
  match p with
  | .segs ds => ds
  | .bytes _ => []
  | .none => []

/-- The data bytes of a payload; a payload of another kind has none (log entry 10). -/
def Payload.data (p : Payload) : List Byte :=
  match p with
  | .bytes bs => bs
  | .segs _ => []
  | .none => []

/-- A command whose operand includes the payload's segments. -/
def withSegs (p : Payload) (k : List Segment → Instr) : Except DecodeError Instr :=
  match decodeSegs p.descs with
  | some segs => .ok (k segs)
  | none => .error .reservedSegBits

/-- The operands of a command whose word has no reserved bit set, by its format (R91, R115). -/
def Opcode.operands (o : Opcode) (c : Command) : Except DecodeError Instr :=
  match o with
  | .busInit => .ok .busInit
  | .execute => withSegs c.payload (.execute (Word.byte2 c.cw) (Word.addr7 c.cw))
  | .pwmInit => .ok (.pwmInit (Word.freq16 c.cw) (Word.addr7 c.cw))
  | .setDuty => .ok (.setDuty (Word.byte2 c.cw) (Word.low16 c.cw))
  | .getDuty => .ok (.getDuty (Word.byte2 c.cw))
  | .getPeriod => .ok .getPeriod
  | .getPeriodMin => .ok .getPeriodMin
  | .getPeriodMax => .ok .getPeriodMax
  | .setPeriod => .ok (.setPeriod (Word.low16 c.cw))
  | .flushTrigger => .ok .flushTrigger
  | .openDesc => .ok .openDesc
  | .closeDesc => .ok (.closeDesc (Word.byte2 c.cw))
  | .readDesc => .ok (.readDesc (Word.byte2 c.cw) (Word.low16 c.cw))
  | .writeDesc => .ok (.writeDesc (Word.byte2 c.cw) (Word.low16 c.cw) c.payload.data)
  | .bindAddress => .ok (.bindAddress (Word.byte2 c.cw) (Word.a8 c.cw))
  | .atomicTransfer => withSegs c.payload (.atomicTransfer (Word.byte2 c.cw) (Word.low16 c.cw))

/-- The command a client's word and payload stand for. Total: an illegal opcode or a reserved bit is rejected by name,
in the order of 60_exceptions R302 step 1. -/
def decode (c : Command) : Except DecodeError Instr :=
  match Opcode.ofCode (Word.op c.cw) with
  | none => .error (.illegalOpcode (Word.op c.cw))
  | some o => if c.cw &&& o.format.reserved = 0#32 then o.operands c else .error .reservedBits

/-! ## Encoding -/

/-- The bit of a direction (R92). -/
def Dir.bit (d : Dir) : BitVec 1 :=
  match d with
  | .write => 0#1
  | .read => 1#1

/-- R92: SD = `{DIR, OVR, 0, OADDR7, LEN16}`, then the data bytes. -/
def Segment.encode (seg : Segment) : SegDesc where
  sd := seg.dir.bit ++ BitVec.ofBool seg.ovr ++ 0#7 ++ seg.oaddr ++ seg.len
  data := seg.data

/-- The opcode of a command (R96). -/
def Instr.opcode (i : Instr) : Opcode :=
  match i with
  | .busInit => .busInit
  | .execute _ _ _ => .execute
  | .pwmInit _ _ => .pwmInit
  | .setDuty _ _ => .setDuty
  | .getDuty _ => .getDuty
  | .getPeriod => .getPeriod
  | .getPeriodMin => .getPeriodMin
  | .getPeriodMax => .getPeriodMax
  | .setPeriod _ => .setPeriod
  | .flushTrigger => .flushTrigger
  | .openDesc => .openDesc
  | .closeDesc _ => .closeDesc
  | .readDesc _ _ => .readDesc
  | .writeDesc _ _ _ => .writeDesc
  | .bindAddress _ _ => .bindAddress
  | .atomicTransfer _ _ _ => .atomicTransfer

/-- CW[23:0] of a command, by its format (R91). -/
def Instr.operandBits (i : Instr) : BitVec 24 :=
  match i with
  | .busInit => 0#24
  | .execute nseg addr _ => nseg ++ 0#9 ++ addr
  | .pwmInit freq addr => freq ++ 0#1 ++ addr
  | .setDuty ch val => ch ++ val
  | .getDuty ch => ch ++ 0#16
  | .getPeriod => 0#24
  | .getPeriodMin => 0#24
  | .getPeriodMax => 0#24
  | .setPeriod val => 0#8 ++ val
  | .flushTrigger => 0#24
  | .openDesc => 0#24
  | .closeDesc fd => fd ++ 0#16
  | .readDesc fd len => fd ++ len
  | .writeDesc fd len _ => fd ++ len
  | .bindAddress fd a8 => fd ++ 0#8 ++ a8
  | .atomicTransfer fd len _ => fd ++ len

/-- The payload of a command (R91, last columns). -/
def Instr.payload (i : Instr) : Payload :=
  match i with
  | .execute _ _ segs => .segs (segs.map Segment.encode)
  | .atomicTransfer _ _ segs => .segs (segs.map Segment.encode)
  | .writeDesc _ _ data => .bytes data
  | .busInit => .none
  | .pwmInit _ _ => .none
  | .setDuty _ _ => .none
  | .getDuty _ => .none
  | .getPeriod => .none
  | .getPeriodMin => .none
  | .getPeriodMax => .none
  | .setPeriod _ => .none
  | .flushTrigger => .none
  | .openDesc => .none
  | .closeDesc _ => .none
  | .readDesc _ _ => .none
  | .bindAddress _ _ => .none

/-- The command word and payload of a command (R90, R91, R96). -/
def encode (i : Instr) : Command where
  cw := i.opcode.code ++ i.operandBits
  payload := i.payload

/-! ## Pseudo-commands (R117) and the register shapes (R103, R104) -/

/-- A write segment with the default address. -/
def Segment.w (data : List Byte) : Segment where
  dir := .write
  ovr := false
  oaddr := 0#7
  len := BitVec.ofNat 16 data.length
  data := data

/-- A read segment of `n` bytes with the default address. -/
def Segment.r (n : BitVec 16) : Segment where
  dir := .read
  ovr := false
  oaddr := 0#7
  len := n
  data := []

/-- `PROBE a` is `EXECUTE a` with one empty write segment (R117). -/
def pseudoProbe (a : Addr7) : Instr := .execute 1#8 a [Segment.w []]

/-- `REG_WRITE a, reg, bytes` (R117, R103). -/
def pseudoRegWrite (a : Addr7) (reg : Byte) (bytes : List Byte) : Instr := .execute 1#8 a [Segment.w (reg :: bytes)]

/-- `REG_READ a, reg, n` (R117, R104). -/
def pseudoRegRead (a : Addr7) (reg : Byte) (n : BitVec 16) : Instr :=
  .execute 2#8 a [Segment.w [reg], Segment.r n]

/-! ## A word of the opcode table -/

/-- The payload of zeros that belongs to a command word: as many zero bytes or zero descriptors as the word counts
(R94, R115). -/
def zeroPayload (w : Word) : Payload :=
  match Opcode.ofCode (Word.op w) with
  | some .execute => .segs (List.replicate (Word.byte2 w).toNat ⟨0#32, []⟩)
  | some .atomicTransfer => .segs (List.replicate (Word.low16 w).toNat ⟨0#32, []⟩)
  | some .writeDesc => .bytes (List.replicate (Word.low16 w).toNat 0#8)
  | _ => .none

/-- The command whose bits are `w`, CW first, everything above `nbits` zero (CW is one 32-bit value: no byte order applies,
R90). -/
def tableCommand (nbits w : Nat) : Command where
  cw := BitVec.ofNat 32 (w % 2 ^ nbits)
  payload := zeroPayload (BitVec.ofNat 32 (w % 2 ^ nbits))

/-- The command the decoder reads from a word numbered as spec/opcode_table.json numbers it; none where it refuses. -/
def decodeTableWord (nbits w : Nat) : Option Instr :=
  match decode (tableCommand nbits w) with
  | .ok i => some i
  | .error _ => none

end Sys2Proof
end

