-- ==== Sys2Proof/Config.lean ====
section
/-! DEFINITION. The parameters of 00_scope R5: a value where R5 gives one, a constant without a body where R5 says OPEN.
And the two sources of free values: the moves of the agents and the answers of the bus targets. -/

namespace Sys2Proof

/-! ## Parameters R5 gives a value -/

/-- `PWM_CHANNELS`. -/
def Config.pwmChannels : Nat := 16
/-- `PWM_MAX`: the counter period and the "fully on" duty. -/
def Config.pwmMax : Nat := 4096
/-- `COUNTER_BITS`. -/
def Config.counterBits : Nat := 12
/-- `STAGGER`: on-edge offset per channel index. -/
def Config.stagger : Nat := 256
/-- `OSC_HZ`. -/
def Config.oscHz : Nat := 25000000
/-- `PRESCALE_MIN` (PRESUMED by the spec itself, 93 G2; log entry 15). -/
def Config.prescaleMin : Nat := 3
/-- `PRESCALE_MAX`. -/
def Config.prescaleMax : Nat := 255
/-- `F_MIN` at `OSC_HZ`. -/
def Config.fMin : Nat := 24
/-- `F_MAX` at `OSC_HZ`. -/
def Config.fMax : Nat := 1743
/-- `MAX_SEG_LEN`. -/
def Config.maxSegLen : Nat := 65535
/-- `REG_MODE1` (log entry 15). -/
def Config.regMode1 : Byte := 0x00#8
/-- `REG_MODE2` (log entry 15). -/
def Config.regMode2 : Byte := 0x01#8
/-- `REG_LED0_ON_L` (log entry 15). -/
def Config.regLed0OnL : Nat := 0x06
/-- `REG_PRE_SCALE` (log entry 15). -/
def Config.regPreScale : Byte := 0xFE#8
/-- `FULL_FLAG_BIT` (log entry 15; D22: a reader may take 7). -/
def Config.fullFlagBit : Nat := 4
/-- `MODE1_RESET_CMD`: restart. -/
def Config.mode1ResetCmd : Byte := 0x80#8
/-- `MODE1_SLEEP_CMD`: sleep, auto-increment off. -/
def Config.mode1SleepCmd : Byte := 0x10#8
/-- `MODE1_RUN_CMD`: auto-increment on, sleep off. -/
def Config.mode1RunCmd : Byte := 0x20#8

/-! ## Parameters R5 leaves OPEN (log entries 4 and 5) -/

/-- `BUS_CLOCK_HZ`, OPEN. -/
opaque Config.busClockHz : Nat
/-- `SDA_PIN`, OPEN. -/
opaque Config.sdaPin : Nat
/-- `SCL_PIN`, OPEN. -/
opaque Config.sclPin : Nat
/-- `T_TIMEOUT`, OPEN. -/
opaque Config.tTimeout : Nat
/-- What `T_SETTLE` has above its floor, OPEN. -/
opaque Config.settleExtra : Nat
/-- `T_SETTLE` in milliseconds: OPEN, at least 10 ms. -/
def Config.tSettle : Nat := 10 + Config.settleExtra
/-- How many descriptors there are beside the first; so `N_DESC` is OPEN in 1 to 256. -/
opaque Config.extraDescs : Fin 256
/-- How many clients there are beside the first; so `N_CLIENTS` is OPEN and at least 1. -/
opaque Config.extraClients : Nat

/-! ## Free values (log entries 1 and 2) -/

/-- The move the world makes at the n-th free choice: any client may hand in any command, any agent may step
(20_memory R71, R73, R75). -/
opaque Config.freeMove : Nat → Move
/-- The oracle's n-th free answer: 10_state R41 constrains none. -/
opaque Config.freeReply : Nat → Reply

end Sys2Proof
end

