-- ==== Sys2Proof/Machine/State.lean ====
section
/-! DEFINITION. The state of the block as plain data (10_state), the reasons a step could stop, and the state after
reset. -/

namespace Sys2Proof.Machine

/-! ## Statuses and responses (60_exceptions R300, 30_encoding R95) -/

/-- The status of a response. -/
inductive Status where
  | ok
  | busNackAddr
  | busNackData
  | busTimeout
  | busStretchTimeout
  | deviceAbsent
  | invalidDescriptor
  | invalidArgument
  | notInitialized
  | alreadyInitialized
  | illegalCommand
  | tableFull
  deriving DecidableEq, Repr, Inhabited

/-- The result that follows the status byte (R95). -/
inductive Result where
  | none
  | fd (n : BitVec 8)
  | value (v : BitVec 16)
  | bytes (bs : List Byte)
  deriving DecidableEq, Repr, Inhabited

/-- A response: what `Respond(status, data)` hands to the client. -/
structure Response where
  status : Status
  result : Result
  deriving DecidableEq, Repr, Inhabited

/-! ## The bus event trace (R40) and the flush fault log (R42) -/

/-- The engine's acknowledge of a received byte. -/
inductive Ack where
  | ack
  | nack
  deriving DecidableEq, Repr, Inhabited

/-- The event alphabet of R40. -/
inductive Event where
  | start
  | rstart
  | stop
  | addr (b : Byte) (r : TargetAnswer)
  | tx (b : Byte) (r : TargetAnswer)
  | rx (b : Byte) (a : Ack)
  | rxFail (r : RxFailure)
  | delay (t : Nat)
  deriving DecidableEq, Repr, Inhabited

/-- `FLUSH_FAULT(c, s)`. -/
structure FlushFault where
  ch : Nat
  st : Status
  deriving DecidableEq, Repr, Inhabited

/-! ## Parts of the state -/

/-- The configuration latch (R23). -/
structure BusConfig where
  clockHz : Nat
  sda     : Nat
  scl     : Nat
  timeout : Nat
  deriving DecidableEq, Repr, Inhabited

/-- Who may hold the bus lock (R24). -/
inductive Requester where
  | client (j : Nat)
  | init
  | worker
  deriving DecidableEq, Repr, Inhabited

/-- The engine's phases (R25, 40_bus_engine R152). -/
inductive EngPhase where
  | idle
  | begin
  | addr
  | wdata
  | rdata
  | stop
  deriving DecidableEq, Repr, Inhabited

/-- The engine transaction registers (R25): `eng_phase`, `eng_segs`, `eng_dflt`, `eng_k`, `eng_i`, `eng_rx`, `eng_status`. -/
structure Engine where
  phase  : EngPhase
  segs   : List Segment
  dflt   : Addr7
  k      : Nat
  i      : Nat
  rx     : List Byte
  status : Status
  deriving DecidableEq, Repr, Inhabited

/-- A descriptor table entry (R26): `open` and `addr`. -/
structure Desc where
  isOpen : Bool
  addr   : Addr7
  deriving DecidableEq, Repr, Inhabited

/-- `pwm_state` (R27). -/
inductive PwmState where
  | uninit
  | initializing
  | ready
  | failed
  deriving DecidableEq, Repr, Inhabited

/-- `wk_phase` (R34). -/
inductive WkPhase where
  | idle
  | capture
  | flushing
  deriving DecidableEq, Repr, Inhabited

/-- How far one call of `Transact` has come (40_bus_engine R133, R136, R145): no call; waiting for the lock with the
segments and default address of the call; its transaction is in the engine; the result the engine delivered. -/
inductive Transact where
  | idle
  | waiting (segs : List Segment) (dflt : Addr7)
  | running
  | returned (st : Status) (rx : Option (List Byte))
  deriving DecidableEq, Repr, Inhabited

/-- The flush worker's registers (R34) and the progress of its `Transact` call. -/
structure Worker where
  phase : WkPhase
  mask  : BitVec 16
  ch    : Nat
  tx    : Transact
  deriving DecidableEq, Repr, Inhabited

/-- How far a client's command has come: its first step is still to come; the second step of SET_DUTY (43 R251); the
initialisation sequence (43 R241); inside `Transact` (40 R133); everything done but `Respond(r)`, which 00_scope R9 makes a
step of its own. -/
inductive ClientPhase where
  | start
  | post
  | sequence
  | bus
  | respond (r : Response)
  deriving DecidableEq, Repr, Inhabited

/-- A client (R35): `cl_cmd`, `cl_resp`, and how far the command in progress has come. -/
structure Client where
  cmd   : Option Command
  phase : ClientPhase
  tx    : Transact
  resp  : Option Response
  deriving DecidableEq, Repr, Inhabited

/-- The model's own inputs (log entries 1 to 3): the moves and oracle answers still to come, the counters of the free ones
taken after the lists ran out, and the client whose step is being taken. -/
structure Env where
  sched   : List Move
  moveIx  : Nat
  replies : List Reply
  replyIx : Nat
  cur     : Nat
  deriving DecidableEq, Repr, Inhabited

/-- The state of the block: R20 to R42, and the model's own `env`. `N_DESC` is the length of `desc` and `N_CLIENTS` the
length of `clients` (log entry 4). -/
structure State where
  busInit     : Bool
  cfg         : BusConfig
  lockOwner   : Option Requester
  eng         : Engine
  desc        : List Desc
  pwmState    : PwmState
  pwmAddr     : Addr7
  pwmPrescale : BitVec 8
  initStep    : Nat
  initTx      : Transact
  cache       : Vector Nat 16
  dirty       : BitVec 16
  wake        : Nat
  wk          : Worker
  clients     : List Client
  trace       : List Event
  flog        : List FlushFault
  env         : Env
  deriving DecidableEq, Repr

/-- Why the machine could stop with a fault: never. 60_exceptions R308: "The block has no model fault of its own". The type
has no constructor, so nothing can raise one. -/
inductive Fault where
  deriving DecidableEq, Repr

/-- Why a command could have no meaning. -/
inductive Refusal where
  /-- Raised only by an arm of `exec` for a command without a meaning; safe. 60_exceptions R308: the block "refuses no
  command word", and no arm raises it. -/
  | notModelled (mnemonic : String)
  deriving DecidableEq, Repr

/-- The engine registers after reset (R25, R43). -/
def Engine.reset : Engine where
  phase := .idle
  segs := []
  dflt := 0#7
  k := 0
  i := 0
  rx := []
  status := .ok

/-- A closed descriptor (R26, R43). -/
def Desc.closed : Desc where
  isOpen := false
  addr := 0#7

/-- The worker after reset (R34, R43). -/
def Worker.reset : Worker where
  phase := .idle
  mask := 0#16
  ch := 0
  tx := .idle

/-- A client with no command and no response (R35, R43). -/
def Client.fresh : Client where
  cmd := none
  phase := .start
  tx := .idle
  resp := none

/-- The configuration latch after reset: R43 says "unspecified", the model 0 (log entry 6). -/
def BusConfig.reset : BusConfig where
  clockHz := 0
  sda := 0
  scl := 0
  timeout := 0

/-- The model's own fields after reset (log entry 3). -/
def Env.reset : Env where
  sched := []
  moveIx := 0
  replies := []
  replyIx := 0
  cur := 0

/-- The block right after reset (R43, 70 R340), with `1 + extraDescs` descriptors and `1 + extraClients` clients: the
sizes R5 leaves OPEN are arguments. -/
def State.resetFor (extraDescs extraClients : Nat) : State where
  busInit := false
  cfg := BusConfig.reset
  lockOwner := none
  eng := Engine.reset
  desc := Desc.closed :: List.replicate extraDescs Desc.closed
  pwmState := .uninit
  pwmAddr := 0#7
  pwmPrescale := 0#8
  initStep := 0
  initTx := .idle
  cache := Vector.replicate 16 0
  dirty := 0#16
  wake := 0
  wk := Worker.reset
  clients := Client.fresh :: List.replicate extraClients Client.fresh
  trace := []
  flog := []
  env := Env.reset

/-- The block right after reset, its OPEN sizes those of Config (log entry 4). -/
def State.reset : State := State.resetFor Config.extraDescs.val Config.extraClients

end Sys2Proof.Machine
end

