-- ==== Sys2Proof/Machine/Flags.lean ====
section
/-! DEFINITION. Status codes and classes, the statuses an answer of the bus leads to, the dirty mask's bits, and the wire
symbols of a byte. -/

namespace Sys2Proof.Machine

/-! ## Statuses (60_exceptions R300, R301, 40_bus_engine R150) -/

/-- The status byte (R300). -/
def Status.code (st : Status) : BitVec 8 :=
  match st with
  | .ok => 0x00#8
  | .busNackAddr => 0x01#8
  | .busNackData => 0x02#8
  | .busTimeout => 0x03#8
  | .busStretchTimeout => 0x04#8
  | .deviceAbsent => 0x05#8
  | .invalidDescriptor => 0x06#8
  | .invalidArgument => 0x07#8
  | .notInitialized => 0x08#8
  | .alreadyInitialized => 0x09#8
  | .illegalCommand => 0x0A#8
  | .tableFull => 0x0B#8

/-- The class "caller error": 0x06 to 0x0B (R301 (a)). -/
def Status.isCallerError (st : Status) : Bool :=
  match st with
  | .invalidDescriptor => true
  | .invalidArgument => true
  | .notInitialized => true
  | .alreadyInitialized => true
  | .illegalCommand => true
  | .tableFull => true
  | .ok => false
  | .busNackAddr => false
  | .busNackData => false
  | .busTimeout => false
  | .busStretchTimeout => false
  | .deviceAbsent => false

/-- The class "bus fault": 0x01 to 0x04 (R301 (b)). -/
def Status.isBusFault (st : Status) : Bool :=
  match st with
  | .busNackAddr => true
  | .busNackData => true
  | .busTimeout => true
  | .busStretchTimeout => true
  | .ok => false
  | .deviceAbsent => false
  | .invalidDescriptor => false
  | .invalidArgument => false
  | .notInitialized => false
  | .alreadyInitialized => false
  | .illegalCommand => false
  | .tableFull => false

/-- The class "not reachable" (R150): 0x01 and 0x04. -/
def Status.notReachable (st : Status) : Bool :=
  match st with
  | .busNackAddr => true
  | .busStretchTimeout => true
  | _ => false

/-- What `Transact` may return (R150): `OK` or a bus fault. -/
def Status.fromBus (st : Status) : Bool :=
  st.isBusFault || st == .ok

/-- R303: the statuses a command may raise, `OK` included. -/
def allowedStatuses (i : Instr) : List Status :=
  match i with
  | .busInit => [.ok, .illegalCommand, .alreadyInitialized]
  | .execute _ _ _ => [.ok, .illegalCommand, .notInitialized, .invalidArgument, .busNackAddr, .busNackData, .busTimeout,
      .busStretchTimeout]
  | .pwmInit _ _ => [.ok, .illegalCommand, .alreadyInitialized, .notInitialized, .invalidArgument, .deviceAbsent,
      .busNackAddr, .busNackData, .busTimeout, .busStretchTimeout]
  | .setDuty _ _ => [.ok, .notInitialized, .invalidArgument]
  | .getDuty _ => [.ok, .illegalCommand, .notInitialized, .invalidArgument]
  | .getPeriod => [.ok, .illegalCommand, .notInitialized]
  | .getPeriodMin => [.ok, .illegalCommand, .notInitialized]
  | .getPeriodMax => [.ok, .illegalCommand, .notInitialized]
  | .setPeriod _ => [.ok, .illegalCommand, .notInitialized, .invalidArgument]
  | .flushTrigger => [.ok, .illegalCommand, .notInitialized]
  | .openDesc => [.ok, .illegalCommand, .tableFull]
  | .closeDesc _ => [.ok, .illegalCommand, .invalidDescriptor]
  | .bindAddress _ _ => [.ok, .illegalCommand, .invalidDescriptor, .invalidArgument]
  | .writeDesc _ _ _ => [.ok, .notInitialized, .invalidDescriptor, .invalidArgument, .busNackAddr, .busNackData,
      .busTimeout, .busStretchTimeout]
  | .readDesc _ _ => [.ok, .notInitialized, .invalidDescriptor, .busNackAddr, .busTimeout, .busStretchTimeout]
  | .atomicTransfer _ _ _ => [.ok, .illegalCommand, .notInitialized, .invalidDescriptor, .invalidArgument, .busNackAddr,
      .busNackData, .busTimeout, .busStretchTimeout]

/-! ## What an answer of the bus means (40_bus_engine R138, R140, R141) -/

/-- The status an answer to an address byte ends the transaction with; none for `ACK` (R138). -/
def addrFailure (r : TargetAnswer) : Option Status :=
  match r with
  | .ack => none
  | .nack => some .busNackAddr
  | .stretchTo => some .busStretchTimeout
  | .timeout => some .busTimeout

/-- The status an answer to a written byte ends the transaction with; none for `ACK` (R140). -/
def dataFailure (r : TargetAnswer) : Option Status :=
  match r with
  | .ack => none
  | .nack => some .busNackData
  | .stretchTo => some .busStretchTimeout
  | .timeout => some .busTimeout

/-- The status a failed read byte ends the transaction with (R141). -/
def rxFailureStatus (r : RxFailure) : Status :=
  match r with
  | .stretchTo => .busStretchTimeout
  | .timeout => .busTimeout

/-- The engine's acknowledge of byte `i` of a read of `len` bytes: `NACK` for the final byte only (R141). -/
def readAck (i len : Nat) : Ack :=
  if i < len - 1 then .ack else .nack

/-! ## The dirty mask (10_state R31) -/

/-- `1 << c` in the mask. -/
def channelBit (c : Nat) : BitVec 16 := BitVec.ofNat 16 (2 ^ c)

/-- The lowest channel from `c` on whose bit the mask has set, or 16 (43 R261, R262). -/
def lowestFrom (mask : BitVec 16) (c : Nat) : Nat :=
  ((List.range Config.pwmChannels).find? (fun i => decide (c ≤ i) && mask.getLsbD i)).getD Config.pwmChannels

/-! ## Wire symbols (20_memory R62, 30_encoding R102) -/

/-- The bits of a byte in wire order: most significant first (R62; log entry 15). -/
def byteBits (b : Byte) : List Bool :=
  [b.getLsbD 7, b.getLsbD 6, b.getLsbD 5, b.getLsbD 4, b.getLsbD 3, b.getLsbD 2, b.getLsbD 1, b.getLsbD 0]

/-- The data line's level in an acknowledge bit: `ACK` low, `NACK` high (R102; log entry 15). -/
def Ack.level (a : Ack) : Bool :=
  match a with
  | .ack => false
  | .nack => true

/-- The nine bits of a completed byte event: the byte, then its acknowledge (R40, R62). None for an event that is not a
completed byte: a byte the target did not answer has no acknowledge bit. -/
def Event.wireBits (e : Event) : Option (List Bool) :=
  match e with
  | .addr b .ack => some (byteBits b ++ [Ack.ack.level])
  | .addr b .nack => some (byteBits b ++ [Ack.nack.level])
  | .tx b .ack => some (byteBits b ++ [Ack.ack.level])
  | .tx b .nack => some (byteBits b ++ [Ack.nack.level])
  | .rx b a => some (byteBits b ++ [a.level])
  | _ => none

end Sys2Proof.Machine
end

