-- ==== Sys2Proof/Machine/Operands.lean ====
section
/-! DEFINITION. What the commands' operands name: a segment's target and address byte, the segment checks, the
descriptor table's entries, the payload counts, and the results of R95. -/

namespace Sys2Proof.Machine

/-- The resolved target address of a segment (30_encoding R92). -/
def segAddr (seg : Segment) (dflt : Addr7) : Addr7 :=
  if seg.ovr then seg.oaddr else dflt

/-- The address byte `{ADDR7, RW}`, RW = 1 for read (30_encoding R100; log entry 15). -/
def addressByte (a : Addr7) (d : Dir) : Byte :=
  a ++ d.bit

/-- R94: the count of a write segment's descriptor is the number of its data bytes. -/
def segCountOk (seg : Segment) : Bool :=
  match seg.dir with
  | .write => seg.len.toNat == seg.data.length
  | .read => true

/-- R94: the command's count is the number of descriptors, and every write segment's count its number of bytes. -/
def countsAgree (count : Nat) (segs : List Segment) : Bool :=
  count == segs.length && segs.all segCountOk

/-- R135 for one segment: a read segment of length 0 is refused. -/
def segLenOk (seg : Segment) : Bool :=
  match seg.dir with
  | .write => true
  | .read => seg.len != 0#16

/-- `CheckSegments(segs) == OK` (40_bus_engine R135). -/
def checkSegments (segs : List Segment) : Bool :=
  segs.all segLenOk

/-- The one segment of WRITE (41 R173). -/
def writeSegs (len : BitVec 16) (data : List Byte) : List Segment :=
  [{ dir := .write, ovr := false, oaddr := 0#7, len := len, data := data }]

/-- The one segment of READ (41 R174). -/
def readSegs (len : BitVec 16) : List Segment :=
  [{ dir := .read, ovr := false, oaddr := 0#7, len := len, data := [] }]

/-- The open descriptor `fd` names, if any: `Valid(fd)` is that there is one (41_bus_front_end). -/
def openEntry (table : List Desc) (fd : BitVec 8) : Option Desc :=
  match table[fd.toNat]? with
  | none => none
  | some d => if d.isOpen then some d else none

/-- The lowest closed entry of the table, or none when all are open (41 R170). -/
def lowestClosed (table : List Desc) : Option Nat :=
  table.findIdx? (fun d => !d.isOpen)

/-- R175: some sub-message's resolved address is 0. -/
def anyUnbound (segs : List Segment) (dflt : Addr7) : Bool :=
  segs.any (fun seg => segAddr seg dflt == 0#7)

/-- The result of a command that returns read bytes: the bytes on `OK`, nothing on any other status (R95, R132). -/
def readResult (st : Status) (rx : Option (List Byte)) : Result :=
  if st = .ok then .bytes (rx.getD []) else .none

/-- The duty SET_DUTY stores: `min(VAL16, PWM_MAX)` (43 R250). -/
def clampDuty (val : BitVec 16) : Nat :=
  min val.toNat Config.pwmMax

/-- The channel index a field names, if it is below `PWM_CHANNELS` (R250, R280). -/
def channelOf (ch : BitVec 8) : Option (Fin 16) :=
  if h : ch.toNat < 16 then some ⟨ch.toNat, h⟩ else none

/-- A value result of 16 bits (R95). -/
def valueResult (v : Nat) : Result := .value (BitVec.ofNat 16 v)

end Sys2Proof.Machine
end

