-- ==== Sys2Proof/Machine/PwmRegs.lean ====
section
/-! DEFINITION. The PWM register encoder and decoder (42_pwm_register_protocol): pure functions of their arguments and
the parameters (R200). `flagBit` is `FULL_FLAG_BIT`, an argument so that 7, the source's literal reading, can be taken too
(D22). -/

namespace Sys2Proof.Machine

/-! ## Prescaler -/

/-- `ComputePrescaler(osc, f)` (R201): round half up of `osc / (4096 f)`, less one; none is `REJECT`. -/
def computePrescaler (osc f : Nat) : Option (BitVec 8) :=
  if f = 0 then none
  else
    let q := (osc + 2048 * f) / (4096 * f)
    if q = 0 then none
    else if q - 1 < Config.prescaleMin ∨ Config.prescaleMax < q - 1 then none
    else some (BitVec.ofNat 8 (q - 1))

/-! ## Channel on and off fields -/

/-- The on and off fields of a channel: two 12-bit counts, two full flags (R203). -/
structure LedFields where
  on      : BitVec 12
  fullOn  : Bool
  off     : BitVec 12
  fullOff : Bool
  deriving DecidableEq, Repr, Inhabited

/-- The on edge of channel `c`: `(c * 256) mod 4096` (R203, R208). -/
def onEdge (c : Nat) : Nat := (c * Config.stagger) % Config.pwmMax

/-- `EncodeLed(c, d)` (R203). -/
def encodeLed (c d : Nat) : LedFields :=
  if Config.pwmMax ≤ d then { on := 0#12, fullOn := true, off := 0#12, fullOff := false }
  else if d = 0 then { on := 0#12, fullOn := false, off := 0#12, fullOff := true }
  else
    { on := BitVec.ofNat 12 (onEdge c), fullOn := false,
      off := BitVec.ofNat 12 ((onEdge c + d) % Config.pwmMax), fullOff := false }

/-- The high byte of a field: count bits 11:8, and the full flag at `flagBit` (R111, R204). -/
def highByte (flagBit : Nat) (count : BitVec 12) (full : Bool) : Byte :=
  (count.extractLsb' 8 4).setWidth 8 ||| (if full then BitVec.ofNat 8 (2 ^ flagBit) else 0#8)

/-- `LedBytes` (R204): on low, on high, off low, off high. -/
def ledBytes (flagBit : Nat) (f : LedFields) : List Byte :=
  [f.on.extractLsb' 0 8, highByte flagBit f.on f.fullOn, f.off.extractLsb' 0 8, highByte flagBit f.off f.fullOff]

/-- `REG_LED(c) = REG_LED0_ON_L + 4 c` (30_encoding R110). -/
def regLed (c : Nat) : Byte := BitVec.ofNat 8 (Config.regLed0OnL + 4 * c)

/-- `LedFrame(c, d)` (R205): the register pointer and the four bytes of the group. -/
def ledFrame (c d : Nat) : List Byte :=
  regLed c :: ledBytes Config.fullFlagBit (encodeLed c d)

/-- `DecodeLed` (R206). -/
def decodeLed (flagBit : Nat) (b0 b1 b2 b3 : Byte) : LedFields where
  on := b1.extractLsb' 0 4 ++ b0
  fullOn := b1.getLsbD flagBit
  off := b3.extractLsb' 0 4 ++ b2
  fullOff := b3.getLsbD flagBit

/-- `DutyOf` (R207, R209): full-off, then full-on, then the counts. -/
def dutyOf (f : LedFields) : Nat :=
  if f.fullOff then 0
  else if f.fullOn then Config.pwmMax
  else (f.off.toNat + Config.pwmMax - f.on.toNat) % Config.pwmMax

/-! ## Mode registers -/

/-- The fields of MODE1 (30_encoding R112). -/
structure Mode1 where
  restart : Bool
  extclk  : Bool
  ai      : Bool
  sleep   : Bool
  sub1    : Bool
  sub2    : Bool
  sub3    : Bool
  allcall : Bool
  deriving DecidableEq, Repr, Inhabited

/-- `PackMode1` (R210). -/
def packMode1 (m : Mode1) : Byte :=
  BitVec.ofBool m.restart ++ BitVec.ofBool m.extclk ++ BitVec.ofBool m.ai ++ BitVec.ofBool m.sleep
    ++ BitVec.ofBool m.sub1 ++ BitVec.ofBool m.sub2 ++ BitVec.ofBool m.sub3 ++ BitVec.ofBool m.allcall

/-- `UnpackMode1` (R211). -/
def unpackMode1 (b : Byte) : Mode1 where
  restart := b.getLsbD 7
  extclk := b.getLsbD 6
  ai := b.getLsbD 5
  sleep := b.getLsbD 4
  sub1 := b.getLsbD 3
  sub2 := b.getLsbD 2
  sub3 := b.getLsbD 1
  allcall := b.getLsbD 0

/-- The fields of MODE2 (30_encoding R113). -/
structure Mode2 where
  invrt  : Bool
  och    : Bool
  outdrv : Bool
  outne  : BitVec 2
  deriving DecidableEq, Repr, Inhabited

/-- `PackMode2` (R212). -/
def packMode2 (m : Mode2) : Byte :=
  0#3 ++ BitVec.ofBool m.invrt ++ BitVec.ofBool m.och ++ BitVec.ofBool m.outdrv ++ m.outne

/-- `UnpackMode2` (R213): bits 7:5 are ignored. -/
def unpackMode2 (b : Byte) : Mode2 where
  invrt := b.getLsbD 4
  och := b.getLsbD 3
  outdrv := b.getLsbD 2
  outne := b.extractLsb' 0 2

/-! ## Frames -/

/-- `Mode1Frame(v)` (R214). -/
def mode1Frame (v : Byte) : List Byte := [Config.regMode1, v]

/-- `PrescaleFrame(p)` (R215). -/
def prescaleFrame (p : Byte) : List Byte := [Config.regPreScale, p]

end Sys2Proof.Machine
end

