-- ==== Sys2Proof/Machine/Ops.lean ====
section
/-! DEFINITION. The named operations over the state: clients, responses, the trace, the oracle, the wake signal, the bus
lock and `Transact`. Ending a command with a status is the block's only way of "taking an exception" (60 R304): `respond`
and `raise` below are that one shared operation, and there is nothing to return from (60 R305). -/

namespace Sys2Proof.Machine

/-! ## Clients (10_state R35) -/

/-- The client whose step is being taken; a fresh one where `cur` names none. -/
def State.curClient (s : State) : Client := s.clients.getD s.env.cur Client.fresh

/-- The phase of the current client's command. -/
def State.phase (s : State) : ClientPhase := s.curClient.phase

/-- Change client `j`, if there is one. -/
def State.updClient (s : State) (j : Nat) (f : Client → Client) : State :=
  { s with clients := s.clients.modify j f }

/-- Make `j` the client whose step is being taken. -/
def State.selectClient (s : State) (j : Nat) : State :=
  { s with env := { s.env with cur := j } }

/-- Move the current client's command to a phase. -/
def State.setPhase (s : State) (p : ClientPhase) : State :=
  s.updClient s.env.cur (fun c => { c with phase := p })

/-- A client once its command is answered: no command, the response held (R9, R35). -/
def Client.answered (r : Response) : Client where
  cmd := none
  phase := .start
  tx := .idle
  resp := some r

/-- `Respond(status, data)`: ends the current client's command (00_scope R9). -/
def State.respond (s : State) (st : Status) (res : Result) : State :=
  s.updClient s.env.cur (fun _ => Client.answered ⟨st, res⟩)

/-- `raise <Status>()`: a response without a result and without another state change (00_scope R9, 60 R304). -/
def State.raise (s : State) (st : Status) : State := s.respond st .none

/-- The command's effect is done, and `Respond(status, data)` is its next step (00_scope R9: each primitive is one step). -/
def State.thenRespond (s : State) (st : Status) (res : Result) : State := s.setPhase (.respond ⟨st, res⟩)

/-- A command of which `first` is the one step before `Respond`: that step, or `Respond` where it has been taken. -/
def State.respondOr (s first : State) : State :=
  match s.phase with
  | .respond r => s.respond r.status r.result
  | _ => first

/-- The command handed in, if the client has none outstanding (R35, 60 R323). -/
def Client.accept (c : Client) (cmd : Command) : Client :=
  match c.cmd with
  | none => { c with cmd := some cmd, phase := .start, tx := .idle }
  | some _ => c

/-- A client issues a command: taken only when it has none outstanding (R35). -/
def State.issue (s : State) (j : Nat) (cmd : Command) : State :=
  s.updClient j (fun c => c.accept cmd)

/-- What client `j`'s pending command is: none pending, one the decoder rejects, or an instruction. -/
inductive Pending where
  | nothing
  | illegal
  | instr (i : Instr)
  deriving DecidableEq, Repr

/-- The pending command of client `j`, decoded (10_state R35, 20_memory R78). -/
def State.pending (s : State) (j : Nat) : Pending :=
  match s.clients[j]? with
  | none => .nothing
  | some c =>
    match c.cmd with
    | none => .nothing
    | some cmd =>
      match decode cmd with
      | .ok i => .instr i
      | .error _ => .illegal

/-! ## The free choices (log entries 1 and 2) -/

/-- The next move of the world: the head of the schedule, or a free one when the schedule is empty. -/
def State.nextMove (s : State) : Move :=
  match s.env.sched with
  | m :: _ => m
  | [] => Config.freeMove s.env.moveIx

/-- The state once the next move is taken from its source. -/
def State.afterMove (s : State) : State :=
  match s.env.sched with
  | _ :: rest => { s with env := { s.env with sched := rest } }
  | [] => { s with env := { s.env with moveIx := s.env.moveIx + 1 } }

/-- The oracle's next answer (10_state R41): the head of the replies, or a free one when there are none. -/
def State.reply (s : State) : Reply :=
  match s.env.replies with
  | r :: _ => r
  | [] => Config.freeReply s.env.replyIx

/-- The state once the oracle's next answer is drawn. -/
def State.afterReply (s : State) : State :=
  match s.env.replies with
  | _ :: rest => { s with env := { s.env with replies := rest } }
  | [] => { s with env := { s.env with replyIx := s.env.replyIx + 1 } }

/-! ## Histories (R40, R42) and the wake signal (R33) -/

/-- `BusEmit(e)`, and `Delay(t)` with e = DELAY(t) (00_scope R9). -/
def State.emit (s : State) (e : Event) : State := { s with trace := s.trace ++ [e] }

/-- `Log(e)` (00_scope R9). -/
def State.logFault (s : State) (c : Nat) (st : Status) : State := { s with flog := s.flog ++ [⟨c, st⟩] }

/-- `Post()` (00_scope R9). -/
def State.post (s : State) : State := { s with wake := s.wake + 1 }

/-! ## Transact and the bus lock (40_bus_engine R133 to R136) -/

/-- How far the requester's call of `Transact` has come. -/
def State.tx (s : State) (r : Requester) : Transact :=
  match r with
  | .client j => (s.clients.getD j Client.fresh).tx
  | .init => s.initTx
  | .worker => s.wk.tx

/-- Set how far the requester's call of `Transact` has come. -/
def State.setTx (s : State) (r : Requester) (t : Transact) : State :=
  match r with
  | .client j => s.updClient j (fun c => { c with tx := t })
  | .init => { s with initTx := t }
  | .worker => { s with wk := { s.wk with tx := t } }

/-- The engine registers when a requester takes the lock (R136). -/
def Engine.load (segs : List Segment) (dflt : Addr7) : Engine where
  phase := .begin
  segs := segs
  dflt := dflt
  k := 0
  i := 0
  rx := []
  status := .ok

/-- One step of a requester that waits for the lock (R136): take it if it is FREE; otherwise the oracle says whether the
deadline has passed. -/
def State.lockStep (s : State) (r : Requester) (segs : List Segment) (dflt : Addr7) : State :=
  match s.lockOwner with
  | none => { s with lockOwner := some r, eng := Engine.load segs dflt }.setTx r .running
  | some _ =>
    match s.reply.lock with
    | .timeout => s.afterReply.setTx r (.returned .busTimeout none)
    | .goOn => s.afterReply

/-- The current client calls `Transact` (R133) with a list that is not empty: from the next step on it waits for the lock. -/
def State.callTransact (s : State) (segs : List Segment) (dflt : Addr7) : State :=
  s.updClient s.env.cur (fun c => { c with phase := .bus, tx := .waiting segs dflt })

/-- One step of the current client inside `Transact`: a lock-wait step; no step while the engine works (R133: "The requester
takes no other step until it returns"); and once the result is delivered, `finish`. -/
def State.clientTransactStep (s : State) (finish : Status → Option (List Byte) → State) : State :=
  match s.tx (.client s.env.cur) with
  | .waiting segs dflt => s.lockStep (.client s.env.cur) segs dflt
  | .running => s
  | .returned st rx => finish st rx
  | .idle => s

/-- `Respond(st, st == OK ? rx : none)` (R131, R174, R175). -/
def State.respondRead (s : State) (st : Status) (rx : Option (List Byte)) : State :=
  s.respond st (readResult st rx)

/-- `Respond(st, none)` (R173). -/
def State.respondStatus (s : State) (st : Status) : State := s.respond st .none

end Sys2Proof.Machine
end

