-- ==== Sys2Proof/Machine/Bus.lean ====
section
/-! DEFINITION. BUS_INIT and EXECUTE (40_bus_engine R130 to R132). -/

namespace Sys2Proof.Machine

/-- The configuration BUS_INIT latches (R130, 10_state R23). -/
def BusConfig.parameters : BusConfig where
  clockHz := Config.busClockHz
  sda := Config.sdaPin
  scl := Config.sclPin
  timeout := Config.tTimeout

/-- The first step of BUS_INIT: the check and the latch (R130). -/
def busInitStart (s : State) : State :=
  if s.busInit then s.raise .alreadyInitialized
  else { s with cfg := BusConfig.parameters, busInit := true }.thenRespond .ok .none

/-- BUS_INIT (R130): the latch, then in a second step the response. -/
def execBusInit (s : State) : Host.Outcome State Fault Refusal := .next (s.respondOr (busInitStart s))

/-- The first step of EXECUTE: its checks, then the call of `Transact`; an empty list answers at once (R131, R134). -/
def executeStart (nseg : BitVec 8) (addr : Addr7) (segs : List Segment) (s : State) : State :=
  if !s.busInit then s.raise .notInitialized
  else if !countsAgree nseg.toNat segs then s.raise .invalidArgument
  else if !checkSegments segs then s.raise .invalidArgument
  else if segs.isEmpty then s.respondRead .ok (some [])
  else s.callTransact segs addr

/-- EXECUTE (R131): one step of the command, the first or one inside `Transact`. -/
def execExecute (nseg : BitVec 8) (addr : Addr7) (segs : List Segment) (s : State) : Host.Outcome State Fault Refusal :=
  .next (
    match s.phase with
    | .bus => s.clientTransactStep s.respondRead
    | _ => executeStart nseg addr segs s)

end Sys2Proof.Machine
end

