-- ==== Sys2Proof/Machine/FrontEnd.lean ====
section
/-! DEFINITION. The descriptor front end (41_bus_front_end R170 to R177). -/

namespace Sys2Proof.Machine

/-- Overwrite entry `n` of the descriptor table. -/
def State.setDesc (s : State) (n : Nat) (d : Desc) : State := { s with desc := s.desc.set n d }

/-- The first step of OPEN (R170): the lowest closed entry, opened and unbound. -/
def openStart (s : State) : State :=
  match lowestClosed s.desc with
  | none => s.raise .tableFull
  | some n => (s.setDesc n ⟨true, 0#7⟩).thenRespond .ok (.fd (BitVec.ofNat 8 n))

/-- OPEN (R170): the table entry, then in a second step the response. -/
def execOpenDesc (s : State) : Host.Outcome State Fault Refusal := .next (s.respondOr (openStart s))

/-- The first step of CLOSE (R171). -/
def closeStart (fd : BitVec 8) (s : State) : State :=
  match openEntry s.desc fd with
  | none => s.raise .invalidDescriptor
  | some _ => (s.setDesc fd.toNat Desc.closed).thenRespond .ok .none

/-- CLOSE (R171): the table entry, then in a second step the response. -/
def execCloseDesc (fd : BitVec 8) (s : State) : Host.Outcome State Fault Refusal := .next (s.respondOr (closeStart fd s))

/-- The first step of BIND_ADDRESS (R172): A8 = 0 leaves the descriptor open and unbound (R176). -/
def bindStart (fd a8 : BitVec 8) (s : State) : State :=
  match openEntry s.desc fd with
  | none => s.raise .invalidDescriptor
  | some d =>
    if 0x7F < a8.toNat then s.raise .invalidArgument
    else (s.setDesc fd.toNat { d with addr := a8.setWidth 7 }).thenRespond .ok .none

/-- BIND_ADDRESS (R172): the table entry, then in a second step the response (log entry 7). -/
def execBindAddress (fd a8 : BitVec 8) (s : State) : Host.Outcome State Fault Refusal :=
  .next (s.respondOr (bindStart fd a8 s))

/-- The first step of WRITE (R173). -/
def writeStart (fd : BitVec 8) (len : BitVec 16) (data : List Byte) (s : State) : State :=
  if !s.busInit then s.raise .notInitialized
  else
    match openEntry s.desc fd with
    | none => s.raise .invalidDescriptor
    | some d =>
      if len.toNat ≠ data.length then s.raise .invalidArgument
      else if d.addr = 0#7 then s.raise .invalidDescriptor
      else if len = 0#16 then s.respondStatus .ok
      else s.callTransact (writeSegs len data) d.addr

/-- WRITE (R173): one step of the command, the first or one inside `Transact`. -/
def execWriteDesc (fd : BitVec 8) (len : BitVec 16) (data : List Byte) (s : State) : Host.Outcome State Fault Refusal :=
  .next (
    match s.phase with
    | .bus => s.clientTransactStep (fun st _ => s.respondStatus st)
    | _ => writeStart fd len data s)

/-- The first step of READ (R174). -/
def readStart (fd : BitVec 8) (len : BitVec 16) (s : State) : State :=
  if !s.busInit then s.raise .notInitialized
  else
    match openEntry s.desc fd with
    | none => s.raise .invalidDescriptor
    | some d =>
      if d.addr = 0#7 then s.raise .invalidDescriptor
      else if len = 0#16 then s.respondRead .ok (some [])
      else s.callTransact (readSegs len) d.addr

/-- READ (R174): one step of the command, the first or one inside `Transact`. -/
def execReadDesc (fd : BitVec 8) (len : BitVec 16) (s : State) : Host.Outcome State Fault Refusal :=
  .next (
    match s.phase with
    | .bus => s.clientTransactStep s.respondRead
    | _ => readStart fd len s)

/-- The first step of ATOMIC_TRANSFER (R175). -/
def atomicStart (fd : BitVec 8) (len : BitVec 16) (segs : List Segment) (s : State) : State :=
  if !s.busInit then s.raise .notInitialized
  else
    match openEntry s.desc fd with
    | none => s.raise .invalidDescriptor
    | some d =>
      if !countsAgree len.toNat segs then s.raise .invalidArgument
      else if !checkSegments segs then s.raise .invalidArgument
      else if anyUnbound segs d.addr then s.raise .invalidDescriptor
      else if segs.isEmpty then s.respondRead .ok (some [])
      else s.callTransact segs d.addr

/-- ATOMIC_TRANSFER (R175): one step of the command, the first or one inside `Transact`. -/
def execAtomicTransfer (fd : BitVec 8) (len : BitVec 16) (segs : List Segment) (s : State) :
    Host.Outcome State Fault Refusal :=
  .next (
    match s.phase with
    | .bus => s.clientTransactStep s.respondRead
    | _ => atomicStart fd len segs s)

end Sys2Proof.Machine
end

