-- ==== Sys2Proof/Machine/Pwm.lean ====
section
/-! DEFINITION. PWM_INIT and its sequence, SET_DUTY, FLUSH_TRIGGER (43_pwm_cache_flush R240 to R252) and the
channel-handle commands (44_pwm_channel_handle R280 to R284). -/

namespace Sys2Proof.Machine

/-! ## The initialisation sequence (R241 to R248) -/

/-- The transaction of step `k` (R241); no transaction for a number that is no step. -/
def initSegs (k : Nat) (prescale : BitVec 8) : List Segment :=
  match k with
  | 1 => [Segment.w [Config.regMode1], Segment.r 1#16]
  | 2 => [Segment.w (mode1Frame Config.mode1ResetCmd)]
  | 3 => [Segment.w (mode1Frame Config.mode1SleepCmd)]
  | 4 => [Segment.w (prescaleFrame prescale)]
  | 5 => [Segment.w (mode1Frame Config.mode1ResetCmd)]
  | 6 => [Segment.w (mode1Frame Config.mode1RunCmd)]
  | _ => []

/-- Step `k` begins: its call of `Transact` waits for the lock, with requester INIT (R241). -/
def State.beginInit (s : State) (k : Nat) : State :=
  { s with initStep := k, initTx := .waiting (initSegs k s.pwmPrescale) s.pwmAddr }

/-- The status a failed step answers (R248). -/
def initFailure (k : Nat) (st : Status) : Status := if k = 1 then .deviceAbsent else st

/-- Failure of the sequence (R248): final until reset; the response is the next step. -/
def initFail (s : State) (st : Status) : State :=
  { s with pwmState := .failed, initStep := 0, initTx := .idle }.thenRespond (initFailure s.initStep st) .none

/-- After a step without a fault (R242 to R247): step 1 is followed by step 2 at once; a write step by its settle delay,
which waits until the lock is free (R151, R241; log entry 14), and then by the next step, or by the last one, 7. -/
def initAdvance (s : State) : State :=
  if s.initStep = 1 then s.beginInit 2
  else
    match s.lockOwner with
    | some _ => s
    | none =>
      if s.initStep < 6 then (s.emit (.delay Config.tSettle)).beginInit (s.initStep + 1)
      else { s.emit (.delay Config.tSettle) with initStep := 7, initTx := .idle }

/-- Completion (R247): READY and the response, in one step. -/
def initComplete (s : State) : State :=
  { s with pwmState := .ready, initStep := 0 }.respond .ok .none

/-- One step of the sequence, taken by the client that issued PWM_INIT (R241). -/
def initSequenceStep (s : State) : State :=
  match s.initTx with
  | .waiting segs dflt => s.lockStep .init segs dflt
  | .running => s
  | .returned st _ => if st = .ok then initAdvance s else initFail s st
  | .idle => if s.initStep = 7 then initComplete s else s

/-- The first step of PWM_INIT: the checks and the latch, in one step (R240). -/
def pwmInitStart (freq : BitVec 16) (addr : Addr7) (s : State) : State :=
  if s.pwmState ≠ .uninit then s.raise .alreadyInitialized
  else if !s.busInit then s.raise .notInitialized
  else
    match computePrescaler Config.oscHz freq.toNat with
    | none => s.raise .invalidArgument
    | some p =>
      if addr = 0#7 then s.raise .invalidArgument
      else
        ({ s with pwmState := .initializing, pwmAddr := addr, pwmPrescale := p }.beginInit 1).setPhase .sequence

/-- PWM_INIT (R240): one step of the command, the first, one of the sequence, or the response after a failure. -/
def execPwmInit (freq : BitVec 16) (addr : Addr7) (s : State) : Host.Outcome State Fault Refusal :=
  .next (
    match s.phase with
    | .sequence => initSequenceStep s
    | _ => s.respondOr (pwmInitStart freq addr s))

/-! ## Cache writes and the trigger (R250 to R252) -/

/-- `Atomic { cache[CH8] <- v; dirty <- dirty OR (1 << CH8) }` (R250, 20_memory R77 (a)). -/
def State.storeDuty (s : State) (c : Fin 16) (v : Nat) : State :=
  { s with cache := s.cache.set c v, dirty := s.dirty ||| channelBit c.val }

/-- The first step of SET_DUTY (R250). -/
def setDutyStart (ch : BitVec 8) (val : BitVec 16) (s : State) : State :=
  if s.pwmState ≠ .ready then s.raise .notInitialized
  else
    match channelOf ch with
    | none => s.raise .invalidArgument
    | some c => (s.storeDuty c (clampDuty val)).setPhase .post

/-- SET_DUTY (R250, R251): the store, then in a second step the post and the response. -/
def execSetDuty (ch : BitVec 8) (val : BitVec 16) (s : State) : Host.Outcome State Fault Refusal :=
  .next (
    match s.phase with
    | .post => s.post.respond .ok .none
    | _ => setDutyStart ch val s)

/-- The first step of FLUSH_TRIGGER: the check and the post (R252). -/
def flushTriggerStart (s : State) : State :=
  if s.pwmState ≠ .ready then s.raise .notInitialized else s.post.thenRespond .ok .none

/-- FLUSH_TRIGGER (R252): the post, then in a second step the response. -/
def execFlushTrigger (s : State) : Host.Outcome State Fault Refusal := .next (s.respondOr (flushTriggerStart s))

/-! ## Channel-handle commands (44 R280 to R284) -/

/-- The first step of GET_DUTY: the checks and the read (R280: the read is one step). -/
def getDutyStart (ch : BitVec 8) (s : State) : State :=
  if s.pwmState ≠ .ready then s.raise .notInitialized
  else
    match channelOf ch with
    | none => s.raise .invalidArgument
    | some c => s.thenRespond .ok (valueResult s.cache[c])

/-- GET_DUTY (R280): the read, then in a second step the response with the value read. -/
def execGetDuty (ch : BitVec 8) (s : State) : Host.Outcome State Fault Refusal := .next (s.respondOr (getDutyStart ch s))

/-- The answer of the three period queries (R281): `PWM_MAX`. -/
def State.answerPeriod (s : State) : State :=
  if s.pwmState ≠ .ready then s.raise .notInitialized else s.respond .ok (valueResult Config.pwmMax)

/-- GET_PERIOD (R281). -/
def execGetPeriod (s : State) : Host.Outcome State Fault Refusal := .next s.answerPeriod

/-- GET_PERIOD_MIN (R282). -/
def execGetPeriodMin (s : State) : Host.Outcome State Fault Refusal := .next s.answerPeriod

/-- GET_PERIOD_MAX (R283). -/
def execGetPeriodMax (s : State) : Host.Outcome State Fault Refusal := .next s.answerPeriod

/-- SET_PERIOD (R284): accepts `PWM_MAX` only, and changes nothing. -/
def execSetPeriod (val : BitVec 16) (s : State) : Host.Outcome State Fault Refusal :=
  .next (
    if s.pwmState ≠ .ready then s.raise .notInitialized
    else if val.toNat ≠ Config.pwmMax then s.raise .invalidArgument
    else s.respond .ok .none)

end Sys2Proof.Machine
end

