-- ==== Sys2Proof/Machine/Dispatch.lean ====
section
/-! DEFINITION. One step of a client's command: every command to its meaning. -/

namespace Sys2Proof.Machine

def exec (i : Instr) (s : State) : Host.Outcome State Fault Refusal :=
  match i with
  | .busInit => Sys2Proof.Machine.execBusInit s
  | .execute nseg addr segs => Sys2Proof.Machine.execExecute nseg addr segs s
  | .pwmInit freq addr => Sys2Proof.Machine.execPwmInit freq addr s
  | .setDuty ch val => Sys2Proof.Machine.execSetDuty ch val s
  | .getDuty ch => Sys2Proof.Machine.execGetDuty ch s
  | .getPeriod => Sys2Proof.Machine.execGetPeriod s
  | .getPeriodMin => Sys2Proof.Machine.execGetPeriodMin s
  | .getPeriodMax => Sys2Proof.Machine.execGetPeriodMax s
  | .setPeriod val => Sys2Proof.Machine.execSetPeriod val s
  | .flushTrigger => Sys2Proof.Machine.execFlushTrigger s
  | .openDesc => Sys2Proof.Machine.execOpenDesc s
  | .closeDesc fd => Sys2Proof.Machine.execCloseDesc fd s
  | .readDesc fd len => Sys2Proof.Machine.execReadDesc fd len s
  | .writeDesc fd len data => Sys2Proof.Machine.execWriteDesc fd len data s
  | .bindAddress fd a8 => Sys2Proof.Machine.execBindAddress fd a8 s
  | .atomicTransfer fd len segs => Sys2Proof.Machine.execAtomicTransfer fd len segs s

end Sys2Proof.Machine
end

