-- ==== Sys2Proof/Machine/Engine.lean ====
section
/-! DEFINITION. The bus engine agent: one step per bus event (40_bus_engine R137 to R145, table R152). -/

namespace Sys2Proof.Machine

/-- `Next()` (R137): the next segment, or the stop. -/
def Engine.next (e : Engine) : Engine :=
  if e.k + 1 < e.segs.length then { e with k := e.k + 1, phase := .begin } else { e with phase := .stop }

/-- The fault path (R144): set the status and go straight to STOP. -/
def Engine.fail (e : Engine) (st : Status) : Engine := { e with status := st, phase := .stop }

/-- BEGIN step (R137, R142): start, or repeated start. -/
def engineBegin (s : State) : State :=
  { s.emit (if s.eng.k = 0 then .start else .rstart) with eng := { s.eng with i := 0, phase := .addr } }

/-- What the ADDR step makes of the answer (R138, R139). -/
def Engine.afterAddr (e : Engine) (seg : Segment) (r : TargetAnswer) : Engine :=
  match addrFailure r with
  | some st => e.fail st
  | none =>
    match seg.dir with
    | .read => { e with phase := .rdata }
    | .write => if seg.len = 0#16 then e.next else { e with phase := .wdata }

/-- ADDR step (R138). -/
def engineAddr (s : State) (seg : Segment) : State :=
  { s.afterReply.emit (.addr (addressByte (segAddr seg s.eng.dflt) seg.dir) s.reply.target) with
    eng := s.eng.afterAddr seg s.reply.target }

/-- Count a byte of the segment done, and move on when it was the last (R140, R141). -/
def Engine.byteDone (e : Engine) (seg : Segment) : Engine :=
  if e.i + 1 = seg.len.toNat then { e with i := e.i + 1 }.next else { e with i := e.i + 1 }

/-- What the WDATA step makes of the answer (R140). -/
def Engine.afterTx (e : Engine) (seg : Segment) (r : TargetAnswer) : Engine :=
  match dataFailure r with
  | some st => e.fail st
  | none => e.byteDone seg

/-- WDATA step (R140) for the data byte `d`. -/
def engineWData (s : State) (seg : Segment) (d : Byte) : State :=
  { s.afterReply.emit (.tx d s.reply.target) with eng := s.eng.afterTx seg s.reply.target }

/-- What the RDATA step makes of the answer (R141). -/
def Engine.afterRx (e : Engine) (seg : Segment) (x : RxAnswer) : Engine :=
  match x with
  | .byte v => { e with rx := e.rx ++ [v] }.byteDone seg
  | .fail r => e.fail (rxFailureStatus r)

/-- The event of the RDATA step (R141). -/
def rxEvent (i len : Nat) (x : RxAnswer) : Event :=
  match x with
  | .byte v => .rx v (readAck i len)
  | .fail r => .rxFail r

/-- RDATA step (R141). -/
def engineRData (s : State) (seg : Segment) : State :=
  { s.afterReply.emit (rxEvent s.eng.i seg.len.toNat s.reply.rx) with eng := s.eng.afterRx seg s.reply.rx }

/-- The result a transaction delivers (R145). -/
def Engine.result (e : Engine) : Transact :=
  .returned e.status (if e.status = .ok then some e.rx else none)

/-- STOP step (R145): stop, release and deliver, in one step. -/
def engineStop (s : State) (r : Requester) : State :=
  { s.emit .stop with lockOwner := none, eng := { s.eng with phase := .idle } }.setTx r s.eng.result

/-- The current segment `eng_segs[eng_k]` (R137). -/
def State.curSeg (s : State) : Option Segment := s.eng.segs[s.eng.k]?

/-- One step of the engine: enabled when the lock is held (R137); no step in a register state no run reaches (log
entry 8). -/
def engineStep (s : State) : State :=
  match s.lockOwner with
  | none => s
  | some r =>
    match s.eng.phase with
    | .idle => s
    | .begin => engineBegin s
    | .addr =>
      match s.curSeg with
      | none => s
      | some seg => engineAddr s seg
    | .wdata =>
      match s.curSeg with
      | none => s
      | some seg =>
        match seg.data[s.eng.i]? with
        | none => s
        | some d => engineWData s seg d
    | .rdata =>
      match s.curSeg with
      | none => s
      | some seg => engineRData s seg
    | .stop => engineStop s r

end Sys2Proof.Machine
end

