-- ==== Sys2Proof/Machine/Worker.lean ====
section
/-! DEFINITION. The flush worker agent (43_pwm_cache_flush R260 to R264, table R269). -/

namespace Sys2Proof.Machine

/-- Wake (R260): with `wake` = 0 the worker has no step. -/
def workerWake (s : State) : State :=
  if 0 < s.wake then { s with wake := s.wake - 1, wk := { s.wk with phase := .capture } } else s

/-- The worker's registers once it has captured a mask (R261). -/
def Worker.captured (w : Worker) (mask : BitVec 16) : Worker :=
  if mask = 0#16 then { w with mask := mask, phase := .idle }
  else { w with mask := mask, ch := lowestFrom mask 0, phase := .flushing }

/-- Capture (R261): read and zero the dirty mask, in one step. -/
def workerCapture (s : State) : State :=
  { s with dirty := 0#16, wk := s.wk.captured s.dirty }

/-- The duty of channel `c` (R262); 0 for an index no run reaches (log entry 8). -/
def State.duty (s : State) (c : Nat) : Nat := s.cache.toList.getD c 0

/-- The transaction that writes channel `c` (R262): one write segment with the channel's frame. -/
def flushSegs (c d : Nat) : List Segment := [Segment.w (ledFrame c d)]

/-- First step of a channel write (R262): the value is read when the frame is built. -/
def workerFrame (s : State) : State :=
  { s with wk := { s.wk with tx := .waiting (flushSegs s.wk.ch (s.duty s.wk.ch)) s.pwmAddr } }

/-- Last step of a channel write (R262, R263): log a fault, and go on with the next set bit. -/
def workerNext (s : State) (st : Status) : State :=
  let s1 := if st = .ok then s else s.logFault s.wk.ch st
  { s1 with wk := { s.wk with ch := lowestFrom s.wk.mask (s.wk.ch + 1), tx := .idle } }

/-- A step of a channel write (R262): build the frame; wait for the lock; no step while the engine works; finish. -/
def workerWrite (s : State) : State :=
  match s.wk.tx with
  | .idle => workerFrame s
  | .waiting segs dflt => s.lockStep .worker segs dflt
  | .running => s
  | .returned st _ => workerNext s st

/-- End of a pass (R264): capture again. -/
def workerEndPass (s : State) : State := { s with wk := { s.wk with phase := .capture } }

/-- One step of the worker (R269). -/
def workerStep (s : State) : State :=
  match s.wk.phase with
  | .idle => workerWake s
  | .capture => workerCapture s
  | .flushing => if s.wk.ch < 16 then workerWrite s else workerEndPass s

end Sys2Proof.Machine
end

