-- ==== Sys2Proof/Machine/Step.lean ====
section
/-! DEFINITION. One step of the block: one move of one agent (20_memory R71), and where a command of the table is placed
so that the next step runs it. -/

namespace Sys2Proof.Machine

/-- Client `j`'s step: the next step of its pending command; an illegal word is answered ILLEGAL_COMMAND (30 R97, R98); no
step without a pending command. -/
def clientStep (j : Nat) (s : State) : Host.Outcome State Fault Refusal :=
  match s.pending j with
  | .nothing => .next s
  | .illegal => .next ((s.selectClient j).raise .illegalCommand)
  | .instr i => exec i (s.selectClient j)

/-- One agent's move. -/
def runMove (m : Move) (s : State) : Host.Outcome State Fault Refusal :=
  match m with
  | .issue j cmd => .next (s.issue j cmd)
  | .client j => clientStep j s
  | .engine => .next (engineStep s)
  | .worker => .next (workerStep s)

/-- One step of the block. -/
def step (s : State) : Host.Outcome State Fault Refusal :=
  runMove s.nextMove s.afterMove

/-- `s` with client 0 about to take the first step of the command whose bits are `w`: the command stands in `cl_cmd[0]`, and
client 0 has the next move (log entry 9). -/
def State.withFetchWord (s : State) (nbits w : Nat) : State :=
  { s with
    clients := { s.clients.getD 0 Client.fresh with cmd := some (tableCommand nbits w), phase := .start, tx := .idle }
      :: s.clients.drop 1
    env := { s.env with sched := .client 0 :: s.env.sched } }

end Sys2Proof.Machine
end

