-- ==== Sys2Proof/Machine/Fairness.lean ====
section
/-! DEFINITION. Executions and weak fairness (20_memory R71, 70_reset_and_hazards R350, 92 D1). Safety is said of every
execution; a claim that something eventually happens takes weak fairness of the agents it needs as its premise. -/

namespace Sys2Proof.Machine

/-- The agents of the block that take steps (00_scope R4); the bus targets are the oracle, and the host's handing in of
commands is under no fairness. -/
inductive Agent where
  | client (j : Nat)
  | engine
  | worker
  deriving DecidableEq, Repr

/-- The move that is this agent's step. -/
def Agent.move (a : Agent) : Move :=
  match a with
  | .client j => .client j
  | .engine => .engine
  | .worker => .worker

/-- A requester has a step in its call of `Transact`, unless the engine has its transaction (R133, R136). -/
def Transact.hasStep (t : Transact) : Bool :=
  match t with
  | .idle => true
  | .waiting _ _ => true
  | .running => false
  | .returned _ _ => true

/-- The client that runs the initialisation sequence has a step, unless the engine has its transaction or its delay waits
for the lock to be free (R241, R243 to R247; log entry 14). -/
def State.sequenceHasStep (s : State) : Bool :=
  match s.initTx with
  | .returned .ok _ => decide (s.initStep = 1) || s.lockOwner.isNone
  | t => t.hasStep

/-- A client with a pending command has a step, unless it is inside `Transact` or the sequence and must wait. -/
def State.clientHasStep (s : State) (c : Client) : Bool :=
  match c.phase with
  | .start => true
  | .post => true
  | .respond _ => true
  | .sequence => s.sequenceHasStep
  | .bus => c.tx.hasStep

/-- The worker has a step (R260 to R264, table R269): with `wake` = 0 an idle worker has none. -/
def State.workerHasStep (s : State) : Bool :=
  match s.wk.phase with
  | .idle => decide (0 < s.wake)
  | .capture => true
  | .flushing => decide (16 ≤ s.wk.ch) || s.wk.tx.hasStep

/-- The agent's step is enabled: the engine's whenever the lock is held (R137). -/
def State.enabled (s : State) (a : Agent) : Bool :=
  match a with
  | .engine => s.lockOwner.isSome
  | .worker => s.workerHasStep
  | .client j =>
    match s.clients[j]? with
    | none => false
    | some c => c.cmd.isSome && s.clientHasStep c

/-- An execution (R71): a sequence of steps, each one move of one agent or of the host. The choices of the world (what the
oracle answers, R41, and who moves next, R75) are free at every step: `e` stands for them, and the state's own `env`, which
is one source of them, does not bind them. -/
structure Execution where
  state : Nat → State
  move  : Nat → Move
  steps : ∀ n, ∃ e : Env, runMove (move n) { state n with env := e } = .next (state (n + 1))

/-- Weak fairness of one agent (R350): "an agent whose step stays enabled eventually takes it". From every point on, either
its step is disabled at some later point or the agent takes it at one. -/
def Execution.weaklyFair (x : Execution) (a : Agent) : Prop :=
  ∀ n, ∃ m, n ≤ m ∧ ((x.state m).enabled a = false ∨ x.move m = a.move)

/-- The executions the spec's claims of progress are about (R350, D1): weakly fair to the engine, the worker and every client.
No fairness is asked of the lock: which of the waiting requesters takes it stays free (R75). -/
def Execution.fair (x : Execution) : Prop := ∀ a, x.weaklyFair a

end Sys2Proof.Machine
end

