-- ==== Sys2Proof/Safety.lean ====
section
/-! DEFINITION. What counts as a legal state of the block: the invariants of 10_state (R22 to R35), of the engine
(40 R151, R152) and of the worker (43 R261, R262, R267), in the terms the statements use. -/

namespace Sys2Proof.Machine

/-! ## The trace (40_bus_engine R151) -/

/-- Reading a trace: `some false` between transactions, `some true` inside one, `none` once an event stands where R151 does
not allow it. -/
def traceNext (o : Option Bool) (e : Event) : Option Bool :=
  match o, e with
  | some false, .start => some true
  | some false, .delay _ => some false
  | some true, .rstart => some true
  | some true, .addr _ _ => some true
  | some true, .tx _ _ => some true
  | some true, .rx _ _ => some true
  | some true, .rxFail _ => some true
  | some true, .stop => some false
  | _, _ => none

/-- Where a whole trace ends. -/
def scanTrace (t : List Event) : Option Bool := t.foldl traceNext (some false)

/-- A transaction has emitted its `START` and not yet its `STOP`. -/
def State.transactionOpen (s : State) : Bool :=
  s.lockOwner.isSome && !(s.eng.phase == .begin && s.eng.k == 0)

/-! ## Parts of a legal state -/

/-- A segment that passed the checks of R94 and R135. -/
def segLegal (seg : Segment) : Bool := segCountOk seg && segLenOk seg

/-- What a call of `Transact` is given (R133): a list that is not empty (R134) of segments that passed the checks. -/
def SegsLegal (segs : List Segment) : Prop := segs ≠ [] ∧ segs.all segLegal = true

/-- What a call of `Transact` may hold: legal segments while it waits, and a result of R145. -/
def TxLegal (t : Transact) : Prop :=
  match t with
  | .idle => True
  | .waiting segs _ => SegsLegal segs
  | .running => True
  | .returned st rx => st.fromBus = true ∧ (rx.isSome = true ↔ st = .ok)

/-- The cursors of the engine fit the current segment (R25, R138, R140, R141). -/
def cursorFits (e : Engine) (seg : Segment) : Prop :=
  match e.phase with
  | .idle => True
  | .begin => True
  | .addr => e.i = 0
  | .wdata => seg.dir = .write ∧ e.i < seg.len.toNat
  | .rdata => seg.dir = .read ∧ e.i < seg.len.toNat
  | .stop => True

/-- The engine registers while the lock is held (R25, R152). -/
structure EngineBusy (e : Engine) : Prop where
  active : e.phase ≠ .idle
  segs   : SegsLegal e.segs
  cursor : ∃ seg, e.segs[e.k]? = some seg ∧ cursorFits e seg
  status : e.status.fromBus = true
  okYet  : e.phase ≠ .stop → e.status = .ok

/-- The instruction a client has pending, if its word is legal. -/
def Client.instr (c : Client) : Option Instr :=
  match c.cmd with
  | none => none
  | some cmd =>
    match decode cmd with
    | .ok i => some i
    | .error _ => none

/-- EXECUTE, READ, WRITE, ATOMIC_TRANSFER: the commands that call `Transact` as client j. -/
def Instr.usesBus (i : Instr) : Bool :=
  match i with
  | .execute _ _ _ => true
  | .readDesc _ _ => true
  | .writeDesc _ _ _ => true
  | .atomicTransfer _ _ _ => true
  | .busInit => false
  | .pwmInit _ _ => false
  | .setDuty _ _ => false
  | .getDuty _ => false
  | .getPeriod => false
  | .getPeriodMin => false
  | .getPeriodMax => false
  | .setPeriod _ => false
  | .flushTrigger => false
  | .openDesc => false
  | .closeDesc _ => false
  | .bindAddress _ _ => false

/-- The commands whose response is a step after their effect (00_scope R9): all but the bus commands, which answer a delivered
result, SET_DUTY, whose post and response R251 makes one step, and the period commands, which have no effect. PWM_INIT is
one for its failure (R248); R247 makes READY and its response one step. -/
def Instr.respondsLater (i : Instr) : Bool :=
  match i with
  | .busInit => true
  | .pwmInit _ _ => true
  | .getDuty _ => true
  | .flushTrigger => true
  | .openDesc => true
  | .closeDesc _ => true
  | .bindAddress _ _ => true
  | .execute _ _ _ => false
  | .setDuty _ _ => false
  | .getPeriod => false
  | .getPeriodMin => false
  | .getPeriodMax => false
  | .setPeriod _ => false
  | .readDesc _ _ => false
  | .writeDesc _ _ _ => false
  | .atomicTransfer _ _ _ => false

/-- How far a client's command has come agrees with the command. -/
def ClientLegal (c : Client) : Prop :=
  TxLegal c.tx ∧
  match c.phase with
  | .start => c.tx = .idle
  | .post => c.tx = .idle ∧ ∃ ch val, c.instr = some (.setDuty ch val)
  | .sequence => c.tx = .idle ∧ ∃ freq addr, c.instr = some (.pwmInit freq addr)
  | .bus => c.tx ≠ .idle ∧ ∃ i, c.instr = some i ∧ Instr.usesBus i = true
  | .respond r => c.tx = .idle ∧ ∃ i, c.instr = some i ∧ Instr.respondsLater i = true ∧ r.status ∈ allowedStatuses i ∧
      r.status.isCallerError = false

/-- A list of read segments only. -/
def allReads (segs : List Segment) : Prop := ∀ seg ∈ segs, seg.dir = .read

/-- A READ sends no data byte (60 R303): its segments are reads, and no data byte of it was refused. -/
def ReadLegal (s : State) (j : Nat) (c : Client) : Prop :=
  (∃ fd len, c.instr = some (.readDesc fd len)) →
    (∀ segs dflt, c.tx = .waiting segs dflt → allReads segs) ∧
    (∀ st rx, c.tx = .returned st rx → st ≠ .busNackData) ∧
    (s.lockOwner = some (.client j) → allReads s.eng.segs ∧ s.eng.status ≠ .busNackData)

/-- Client `j` is running the initialisation sequence (R241). -/
def State.inSequence (s : State) (j : Nat) : Prop := ∃ c, s.clients[j]? = some c ∧ c.phase = .sequence

/-- The PWM registers (R27 to R29, R240 to R248). -/
structure PwmLegal (s : State) : Prop where
  latched   : s.pwmState ≠ .uninit → s.busInit = true ∧ s.pwmAddr ≠ 0#7 ∧ Config.prescaleMin ≤ s.pwmPrescale.toNat
  stepRange : s.pwmState = .initializing → 1 ≤ s.initStep ∧ s.initStep ≤ 7
  lastStep  : s.pwmState = .initializing → (s.initStep = 7 ↔ s.initTx = .idle)
  noStep    : s.pwmState ≠ .initializing → s.initStep = 0 ∧ s.initTx = .idle
  runner    : s.pwmState = .initializing ↔ ∃ j, s.inSequence j
  oneRunner : ∀ j k, s.inSequence j → s.inSequence k → j = k
  initTx    : TxLegal s.initTx

/-- The worker's registers (R34, R261, R262, R269). -/
structure WorkerLegal (w : Worker) : Prop where
  chRange  : w.ch ≤ 16
  bitSet   : w.phase = .flushing → w.ch < 16 → w.mask.getLsbD w.ch = true
  idleTx   : w.phase ≠ .flushing → w.tx = .idle
  endOfPass : w.ch = 16 → w.tx = .idle
  tx       : TxLegal w.tx

/-- Some client has stored a duty and not yet posted the wake signal (R250, R251). -/
def State.somePosting (s : State) : Prop := ∃ (j : Nat) (c : Client), s.clients[j]? = some c ∧ c.phase = .post

/-! ## The invariant -/

/-- R32: every cache entry is in [0, 4096]. -/
def CacheInRange (s : State) : Prop := ∀ c : Fin 16, s.cache[c] ≤ Config.pwmMax

/-- R31, R267: a dirty bit is always followed by a flush: a wake is posted, or the worker is about to capture, or a client is
about to post. -/
def DirtyIsPending (s : State) : Prop :=
  s.dirty ≠ 0#16 → 0 < s.wake ∨ s.wk.phase ≠ .idle ∨ s.somePosting

/-- A legal state: what every step keeps. -/
structure Legal (s : State) : Prop where
  cache      : CacheInRange s
  trace      : scanTrace s.trace = some s.transactionOpen
  lockFree   : s.lockOwner = none → s.eng.phase = .idle
  lockHeld   : s.lockOwner ≠ none → EngineBusy s.eng
  lockHolder : ∀ r, s.lockOwner = some r ↔ s.tx r = .running
  clients    : ∀ j c, s.clients[j]? = some c → ClientLegal c ∧ ReadLegal s j c
  pwm        : PwmLegal s
  worker     : WorkerLegal s.wk
  dirty      : DirtyIsPending s

/-! ## The end of a run (70 R352) -/

/-- A quiescent state: no command pending, the lock FREE, engine and worker idle, no wake left. -/
def Quiescent (s : State) : Prop :=
  (∀ c ∈ s.clients, c.cmd = none) ∧ s.lockOwner = none ∧ s.eng.phase = .idle ∧ s.wk.phase = .idle ∧ s.wake = 0

/-! ## What a transaction sends (40 R146, R147, R152) -/

/-- The answers the oracle has ready all acknowledge: the targets ACK every byte they are asked about, and every read
delivers its byte. -/
def Reply.accepts (r : Reply) : Bool :=
  match r.target, r.rx with
  | .ack, .byte _ => true
  | _, _ => false

/-- The byte a reply delivers to a read; 0 where it delivers none. -/
def Reply.byte (r : Reply) : Byte :=
  match r.rx with
  | .byte v => v
  | .fail _ => 0#8

/-- The `RX` events of the rest of a read segment: byte number `i` of `len` on, as many as there are bytes. -/
def rxEvents (len i : Nat) (bytes : List Byte) : List Event :=
  match bytes with
  | [] => []
  | v :: rest => .rx v (if i + 1 < len then .ack else .nack) :: rxEvents len (i + 1) rest

/-- The data events of a segment, given the bytes read if it is a read. -/
def segDataEvents (seg : Segment) (bytes : List Byte) : List Event :=
  match seg.dir with
  | .write => seg.data.map (fun b => .tx b .ack)
  | .read => rxEvents seg.len.toNat 0 bytes

/-- The bytes a segment reads, from the replies its data steps draw. -/
def segReadBytes (seg : Segment) (replies : List Reply) : List Byte :=
  match seg.dir with
  | .write => []
  | .read => (replies.take seg.len.toNat).map Reply.byte

/-- The events of the segments of a successful transaction; the first opens with START when `first`. Each segment draws
one reply for its address byte and one for each data byte. -/
def segsEvents (first : Bool) (segs : List Segment) (dflt : Addr7) (replies : List Reply) : List Event :=
  match segs with
  | [] => []
  | seg :: rest =>
    (if first then .start else .rstart) :: .addr (addressByte (segAddr seg dflt) seg.dir) .ack
      :: (segDataEvents seg (segReadBytes seg (replies.drop 1))
        ++ segsEvents false rest dflt (replies.drop (1 + seg.len.toNat)))

/-- The bytes of every read segment, in segment order (R132). -/
def segsBytes (segs : List Segment) (replies : List Reply) : List Byte :=
  match segs with
  | [] => []
  | seg :: rest => segReadBytes seg (replies.drop 1) ++ segsBytes rest (replies.drop (1 + seg.len.toNat))

/-- The number of bytes on the bus, address bytes included. -/
def segsDraws (segs : List Segment) : Nat := (segs.map (fun seg => 1 + seg.len.toNat)).sum

/-- `1 + sum over k of (2 + s_k.len)` (R152): the events of a successful transaction. -/
def transactionEvents (segs : List Segment) : Nat := 1 + (segs.map (fun seg => 2 + seg.len.toNat)).sum

/-! ## The engine's table (R152) -/

/-- A row of the table of R152: in phase `p` (with `eng_k` = k) the engine emits `e` and goes to `p'`. -/
def phaseStep (p : EngPhase) (k : Nat) (e : Event) (p' : EngPhase) : Bool :=
  match p, e with
  | .begin, .start => k == 0 && p' == .addr
  | .begin, .rstart => k != 0 && p' == .addr
  | .addr, .addr _ _ => p' == .wdata || p' == .rdata || p' == .begin || p' == .stop
  | .wdata, .tx _ _ => p' == .wdata || p' == .begin || p' == .stop
  | .rdata, .rx _ _ => p' == .rdata || p' == .begin || p' == .stop
  | .rdata, .rxFail _ => p' == .stop
  | .stop, .stop => p' == .idle
  | _, _ => false

/-! ## Which steps a statement is about -/

/-- SET_DUTY, GET_DUTY, the period commands and FLUSH_TRIGGER: the commands that need READY (D36). -/
def Instr.needsReady (i : Instr) : Bool :=
  match i with
  | .setDuty _ _ => true
  | .getDuty _ => true
  | .getPeriod => true
  | .getPeriodMin => true
  | .getPeriodMax => true
  | .setPeriod _ => true
  | .flushTrigger => true
  | .busInit => false
  | .execute _ _ _ => false
  | .pwmInit _ _ => false
  | .openDesc => false
  | .closeDesc _ => false
  | .readDesc _ _ => false
  | .writeDesc _ _ _ => false
  | .bindAddress _ _ => false
  | .atomicTransfer _ _ _ => false

/-- GET_DUTY, the period queries and SET_PERIOD: the commands that change no state (44). -/
def Instr.isChannelQuery (i : Instr) : Bool :=
  match i with
  | .getDuty _ => true
  | .getPeriod => true
  | .getPeriodMin => true
  | .getPeriodMax => true
  | .setPeriod _ => true
  | .busInit => false
  | .execute _ _ _ => false
  | .pwmInit _ _ => false
  | .setDuty _ _ => false
  | .flushTrigger => false
  | .openDesc => false
  | .closeDesc _ => false
  | .readDesc _ _ => false
  | .writeDesc _ _ _ => false
  | .bindAddress _ _ => false
  | .atomicTransfer _ _ _ => false

/-- OPEN, CLOSE and BIND_ADDRESS: the writers of the descriptor table (R26). -/
def Instr.writesDesc (i : Instr) : Bool :=
  match i with
  | .openDesc => true
  | .closeDesc _ => true
  | .bindAddress _ _ => true
  | .busInit => false
  | .execute _ _ _ => false
  | .pwmInit _ _ => false
  | .setDuty _ _ => false
  | .getDuty _ => false
  | .getPeriod => false
  | .getPeriodMin => false
  | .getPeriodMax => false
  | .setPeriod _ => false
  | .flushTrigger => false
  | .readDesc _ _ => false
  | .writeDesc _ _ _ => false
  | .atomicTransfer _ _ _ => false

/-- Only the record of the current client differs between the clients of two states. -/
def sameOtherClients (s t : State) : Prop :=
  t.clients.length = s.clients.length ∧ ∀ j, j ≠ s.env.cur → t.clients[j]? = s.clients[j]?

/-- The step from `s` is client `j`'s step of command `i`. -/
def State.runs (s : State) (j : Nat) (i : Instr) : Prop := s.nextMove = .client j ∧ s.pending j = .instr i

/-- Client `j` has `cmd` outstanding. -/
def State.hasCommand (s : State) (j : Nat) (cmd : Command) : Prop :=
  ∃ c, s.clients[j]? = some c ∧ c.cmd = some cmd

/-- R97 for one opcode: a word of it with a nonzero reserved bit, or with a segment descriptor that has one, is answered
ILLEGAL_COMMAND and changes no state. -/
def RefusesReserved (o : Opcode) : Prop :=
  ∀ (s : State) (j : Nat) (cmd : Command), s.hasCommand j cmd → Word.op cmd.cw = o.code →
    (cmd.cw &&& o.format.reserved ≠ 0#32 ∨
      ((o = .execute ∨ o = .atomicTransfer) ∧ ∃ d ∈ cmd.payload.descs,
        Word.sdReserved d.sd ≠ 0#7 ∨ (Word.sdOvr d.sd = false ∧ Word.sdOaddr d.sd ≠ 0#7))) →
    clientStep j s = .next ((s.selectClient j).raise .illegalCommand)

/-- 00_scope R9 for one command: where its effect has been done and its response is due, its next step is `Respond`. -/
def RespondsNext (i : Instr) : Prop :=
  ∀ (s : State) (r : Response), s.phase = .respond r → exec i s = .next (s.respond r.status r.result)

end Sys2Proof.Machine
end

