-- ==== Sys2Proof/Certificates/Slice0/Obligations.lean ====
section
/-! DEFINITION. The statements for the provers. `s.respond st res` and `s.raise st` are spelled out field by field by
`RespondEndsTheCommandOnly`; the reply, schedule and counter fields of `env` are the model's own (log entries 1 and 2), and
every statement holds for every value of them. `Respond` is a step of its own (R9), but where a rule says otherwise;
that a command's checks and its write fall in one step of `exec` is the model's reading of R71 (log entry 7); when a requester
waits and when it uses a result, log entries 12 and 13. -/

open Sys2Proof Sys2Proof.Machine

/-! ## Encoding (30_encoding) -/

/-- R90 to R92, R96: the decoder gives back every command the host port can carry, every operand at every value. -/
def Obligations.DecodeOfEncodeIsTheCommand : Prop :=
  ∀ i : Instr, i.wellFormed = true → decode (encode i) = .ok i

/-- R91, R92, R97: a command word has one meaning: encoding what was decoded gives the word back, and the payload the
command's format carries. -/
def Obligations.EncodeOfDecodeIsTheWord : Prop :=
  ∀ (c : Command) (i : Instr), decode c = .ok i →
    (encode i).cw = c.cw ∧
    (i.opcode = .execute ∨ i.opcode = .atomicTransfer → (encode i).payload.descs = c.payload.descs) ∧
    (i.opcode = .writeDesc → (encode i).payload.data = c.payload.data)

/-- R98: every opcode outside the map is answered ILLEGAL_COMMAND and changes no state. -/
def Obligations.IllegalOpcodesAreAnsweredIllegalCommand : Prop :=
  ∀ (s : State) (j : Nat) (cmd : Command), s.hasCommand j cmd →
    ((Word.op cmd.cw).toNat = 0x00 ∨ (0x03 ≤ (Word.op cmd.cw).toNat ∧ (Word.op cmd.cw).toNat ≤ 0x0F) ∨
      (0x18 ≤ (Word.op cmd.cw).toNat ∧ (Word.op cmd.cw).toNat ≤ 0x1F) ∨ 0x26 ≤ (Word.op cmd.cw).toNat) →
    decode cmd = .error (.illegalOpcode (Word.op cmd.cw)) ∧
    clientStep j s = .next ((s.selectClient j).raise .illegalCommand)

/-- R97: a nonzero reserved bit in CW, or in a segment descriptor of a command whose payload holds descriptors, or a
nonzero OADDR7 with OVR = 0, is answered ILLEGAL_COMMAND and changes no state. -/
def Obligations.ReservedBitsAreAnsweredIllegalCommand : Prop :=
  ∀ o : Opcode, RefusesReserved o

/-- Words written out in the spec's examples (R130, R131, R240, R250, R280, R284, R171 to R175, 95 §2), each decoded to the
command it stands for. -/
def Obligations.DecodesTheSpecsExampleWords : Prop :=
  decode ⟨0x01000000#32, .none⟩ = .ok .busInit ∧
  decode ⟨0x02020040#32, .segs [⟨0x00000001#32, [0x00#8]⟩, ⟨0xC0410001#32, []⟩]⟩ =
    .ok (.execute 2#8 0x40#7 [⟨.write, false, 0#7, 1#16, [0x00#8]⟩, ⟨.read, true, 0x41#7, 1#16, []⟩]) ∧
  decode ⟨0x1003E840#32, .none⟩ = .ok (.pwmInit 1000#16 0x40#7) ∧
  decode ⟨0x11030064#32, .none⟩ = .ok (.setDuty 3#8 100#16) ∧
  decode ⟨0x12030000#32, .none⟩ = .ok (.getDuty 3#8) ∧
  decode ⟨0x16001000#32, .none⟩ = .ok (.setPeriod 4096#16) ∧
  decode ⟨0x21050000#32, .none⟩ = .ok (.closeDesc 5#8) ∧
  decode ⟨0x22000003#32, .none⟩ = .ok (.readDesc 0#8 3#16) ∧
  decode ⟨0x23000002#32, .bytes [0x00#8, 0x11#8]⟩ = .ok (.writeDesc 0#8 2#16 [0x00#8, 0x11#8]) ∧
  decode ⟨0x24000040#32, .none⟩ = .ok (.bindAddress 0#8 0x40#8) ∧
  decode ⟨0x25010002#32, .segs [⟨0x40410001#32, [0x00#8]⟩, ⟨0x80000001#32, []⟩]⟩ =
    .ok (.atomicTransfer 1#8 2#16 [⟨.write, true, 0x41#7, 1#16, [0x00#8]⟩, ⟨.read, false, 0#7, 1#16, []⟩]) ∧
  decode ⟨0x020100C0#32, .segs [⟨0x00000000#32, []⟩]⟩ = .error .reservedBits

/-! ## The step and the end of a command -/

/-- R9, R35: `Respond` takes the current client's command away, holds the response, and changes nothing else; it is a step of
its own for every command whose rule does not say otherwise: the step before it leaves the response due. -/
def Obligations.RespondEndsTheCommandOnly : Prop :=
  (∀ i : Instr, Instr.respondsLater i = true → RespondsNext i) ∧
  (∀ (s : State) (st : Status) (res : Result), s.thenRespond st res =
    { s with clients := (s.clients.modify s.env.cur (fun c => { c with phase := .respond ⟨st, res⟩ })) }) ∧
  (∀ (s : State) (st : Status) (res : Result), s.respond st res =
    { s with clients := (s.clients.modify s.env.cur
        (fun _ => { cmd := none, phase := .start, tx := .idle, resp := some ⟨st, res⟩ })) }) ∧
  (∀ (s : State) (st : Status), s.raise st = s.respond st .none)

/-- R35, R71, R322, R323: one step is one move of one agent; a client's move runs one step of the command its pending word
decodes to, or answers ILLEGAL_COMMAND where the decoder rejects it (R97, R98), and the step takes the move from the schedule
and sets the current client, nothing else. A command a client hands in is taken only when the client has none outstanding.
(The schedule is the model's, log entries 1 and 9.) -/
def Obligations.StepRunsTheDecodedCommand : Prop :=
  (∀ (s : State) (j : Nat) (cmd : Command) (i : Instr), s.nextMove = .client j → s.hasCommand j cmd →
    decode cmd = .ok i → step s = exec i (s.afterMove.selectClient j)) ∧
  (∀ (s : State) (j : Nat) (cmd : Command) (e : DecodeError), s.nextMove = .client j → s.hasCommand j cmd →
    decode cmd = .error e → step s = .next ((s.afterMove.selectClient j).raise .illegalCommand)) ∧
  (∀ (s : State) (j : Nat), s.nextMove = .client j → s.pending j = .nothing → step s = .next s.afterMove) ∧
  (∀ s : State, s.nextMove = .engine → step s = .next (engineStep s.afterMove)) ∧
  (∀ s : State, s.nextMove = .worker → step s = .next (workerStep s.afterMove)) ∧
  (∀ (s : State) (j : Nat) (cmd : Command) (c : Client), s.nextMove = .issue j cmd → s.clients[j]? = some c →
    (c.cmd = none → step s = .next { s.afterMove with
        clients := s.clients.set j { c with cmd := some cmd, phase := .start, tx := .idle } }) ∧
    (c.cmd ≠ none → step s = .next s.afterMove)) ∧
  (∀ (s : State) (m : Move) (rest : List Move), s.env.sched = m :: rest →
    s.nextMove = m ∧ s.afterMove = { s with env := { s.env with sched := rest } })

/-- R308: the block has no model fault and refuses no command word: every step answers a next state. -/
def Obligations.StepAlwaysAnswersNext : Prop :=
  ∀ s : State, ∃ t, step s = .next t

/-! ## Reset and the invariant -/

/-- R43: every piece of state after reset, for every size R5 leaves OPEN. (`cfg_*` is unspecified there: no clause.) -/
def Obligations.ResetLeavesTheValuesOfTheTable : Prop :=
  (∀ extraDescs extraClients : Nat, ∀ s : State, s = State.resetFor extraDescs extraClients →
    s.busInit = false ∧ s.lockOwner = none ∧
    s.eng = { phase := .idle, segs := [], dflt := 0#7, k := 0, i := 0, rx := [], status := .ok } ∧
    s.desc.length = extraDescs + 1 ∧ (∀ d ∈ s.desc, d.isOpen = false ∧ d.addr = 0#7) ∧
    s.pwmState = .uninit ∧ s.pwmAddr = 0#7 ∧ s.pwmPrescale = 0#8 ∧ s.initStep = 0 ∧
    (∀ c : Fin 16, s.cache[c] = 0) ∧ s.dirty = 0#16 ∧ s.wake = 0 ∧
    s.wk.phase = .idle ∧ s.wk.mask = 0#16 ∧ s.wk.ch = 0 ∧
    s.clients.length = extraClients + 1 ∧ (∀ c ∈ s.clients, c.cmd = none ∧ c.resp = none) ∧
    s.trace = [] ∧ s.flog = []) ∧
  State.reset = State.resetFor Config.extraDescs.val Config.extraClients

/-- Every reset state is a legal one. -/
def Obligations.ResetIsLegal : Prop :=
  (∀ extraDescs extraClients : Nat, Legal (State.resetFor extraDescs extraClients)) ∧ Legal State.reset

/-- R24, R25, R27 to R35, R151, R152: every step of every agent keeps a legal state legal: one transaction at a time, the
trace well bracketed, the cache in range, the cursors in their ranges, no dirty bit without a flush to come. -/
def Obligations.StepKeepsLegal : Prop :=
  ∀ s t : State, Legal s → step s = .next t → Legal t

/-- R352: in a legal quiescent state the dirty mask is 0. -/
def Obligations.QuiescentMeansNothingDirty : Prop :=
  ∀ s : State, Legal s → Quiescent s → s.dirty = 0#16

/-- R40, R42: no step shortens the trace or the flush fault log. -/
def Obligations.HistoriesOnlyGrow : Prop :=
  ∀ s t : State, step s = .next t → s.trace <+: t.trace ∧ s.flog <+: t.flog

/-- R22, R23, R27, R28: what BUS_INIT and PWM_INIT latch is written once; READY and FAILED are final until reset, and the
state leaves UNINIT only to INITIALIZING. -/
def Obligations.LatchesAndFinalStatesStay : Prop :=
  ∀ s t : State, step s = .next t →
    (s.busInit = true → t.busInit = true ∧ t.cfg = s.cfg) ∧
    (s.pwmState ≠ .uninit →
      t.pwmState ≠ .uninit ∧ t.pwmAddr = s.pwmAddr ∧ t.pwmPrescale = s.pwmPrescale) ∧
    (Legal s →
      (s.pwmState = .ready → t.pwmState = .ready) ∧ (s.pwmState = .failed → t.pwmState = .failed) ∧
      (s.pwmState = .uninit → t.pwmState = .uninit ∨ t.pwmState = .initializing))

/-- R22 to R35, R37, R40, R42: which agent or command may change which register, and how far a call or command has come. -/
def Obligations.EveryRegisterHasItsWritersOnly : Prop :=
  ∀ s t : State, step s = .next t →
    (t.busInit ≠ s.busInit ∨ t.cfg ≠ s.cfg → ∃ j, s.runs j .busInit) ∧
    (t.desc ≠ s.desc → ∃ j i, s.runs j i ∧ Instr.writesDesc i = true) ∧
    (t.pwmState ≠ s.pwmState ∨ t.pwmAddr ≠ s.pwmAddr ∨ t.pwmPrescale ≠ s.pwmPrescale ∨ t.initStep ≠ s.initStep →
      ∃ j freq addr, s.runs j (.pwmInit freq addr)) ∧
    (t.dirty ≠ s.dirty → (∃ j ch val, s.runs j (.setDuty ch val)) ∨ s.nextMove = .worker) ∧
    (t.wake ≠ s.wake →
      (∃ j ch val, s.runs j (.setDuty ch val)) ∨ (∃ j, s.runs j .flushTrigger) ∨ s.nextMove = .worker) ∧
    (t.wk.phase ≠ s.wk.phase ∨ t.wk.mask ≠ s.wk.mask ∨ t.wk.ch ≠ s.wk.ch ∨ t.flog ≠ s.flog → s.nextMove = .worker) ∧
    (t.lockOwner ≠ s.lockOwner ∨ t.eng ≠ s.eng → s.nextMove = .engine ∨ s.nextMove = .worker ∨
      ∃ j i, s.runs j i ∧ (Instr.usesBus i = true ∨ ∃ freq addr, i = .pwmInit freq addr)) ∧
    (t.cache ≠ s.cache → ∃ j ch val, s.runs j (.setDuty ch val)) ∧
    (t.trace ≠ s.trace → s.nextMove = .engine ∨ ∃ j freq addr, s.runs j (.pwmInit freq addr)) ∧
    (∀ j : Nat, t.clients[j]?.map Client.resp ≠ s.clients[j]?.map Client.resp → s.nextMove = .client j) ∧
    (∀ j : Nat, t.clients[j]?.map Client.cmd ≠ s.clients[j]?.map Client.cmd ∨
      t.clients[j]?.map Client.phase ≠ s.clients[j]?.map Client.phase →
      s.nextMove = .client j ∨ ∃ cmd, s.nextMove = .issue j cmd) ∧
    (∀ j : Nat, t.clients[j]?.map Client.tx ≠ s.clients[j]?.map Client.tx →
      s.nextMove = .engine ∨ s.nextMove = .client j ∨ ∃ cmd, s.nextMove = .issue j cmd) ∧
    (t.initTx ≠ s.initTx → s.nextMove = .engine ∨ ∃ j freq addr, s.runs j (.pwmInit freq addr)) ∧
    (t.wk.tx ≠ s.wk.tx → s.nextMove = .engine ∨ s.nextMove = .worker)

/-- R30, R72, R285: a cache entry changes only by a SET_DUTY of its channel, to the clamped duty. -/
def Obligations.CacheEntryIsTheLastStoredDuty : Prop :=
  ∀ (s t : State) (c : Fin 16), step s = .next t → t.cache[c] ≠ s.cache[c] →
    ∃ j ch val, s.runs j (.setDuty ch val) ∧ ch.toNat = c.val ∧ s.pwmState = .ready ∧ t.cache[c] = min val.toNat 4096

/-- R31, R261, R267: only the worker's capture clears a dirty bit, and it takes every bit it clears into `wk_mask`. -/
def Obligations.OnlyTheCaptureClearsADirtyBit : Prop :=
  ∀ (s t : State) (c : Nat), step s = .next t → s.dirty.getLsbD c = true →
    t.dirty.getLsbD c = true ∨
    (s.nextMove = .worker ∧ s.wk.phase = .capture ∧ t.wk.mask = s.dirty ∧ t.dirty = 0#16)

/-- R301 (a): a command answered with a caller error has changed no state but the client's own record. -/
def Obligations.CallerErrorsChangeNoState : Prop :=
  ∀ (s t : State) (j : Nat) (i : Instr) (c : Client) (r : Response), Legal s → s.runs j i → step s = .next t →
    t.clients[j]? = some c → c.cmd = none → c.resp = some r → r.status.isCallerError = true →
    t = (s.afterMove.selectClient j).raise r.status

/-- R303: every command is answered only with the statuses of its row. -/
def Obligations.EveryStatusIsInTheCommandsRow : Prop :=
  ∀ (s t : State) (j : Nat) (i : Instr) (c : Client) (r : Response), Legal s → s.runs j i → step s = .next t →
    t.clients[j]? = some c → c.cmd = none → c.resp = some r → r.status ∈ allowedStatuses i

/-! ## BUS_INIT and EXECUTE (40_bus_engine) -/

/-- R130: BUS_INIT latches the configuration once and then responds; a second one, and one with a reserved bit set, is
refused. That the check and the latch are one step is the model's reading of R71 (log entry 7); R130 has the check outside its
Atomic block. -/
def Obligations.BusInitConfiguresOnce : Prop :=
  RefusesReserved .busInit ∧ RespondsNext .busInit ∧
  (∀ s : State, (∀ r, s.phase ≠ .respond r) → s.busInit = false → exec .busInit s = .next
    ({ s with busInit := true, cfg := { clockHz := Config.busClockHz, sda := Config.sdaPin, scl := Config.sclPin,
                                        timeout := Config.tTimeout } }.thenRespond .ok .none)) ∧
  (∀ s : State, (∀ r, s.phase ≠ .respond r) → s.busInit = true →
    exec .busInit s = .next (s.raise .alreadyInitialized))

/-- R131, R134, R135, R94: the first step of EXECUTE, for every state and every segment list, and its response. That the checks
are one step, and the lock wait a later one, is the model's reading (log entries 7 and 12). -/
def Obligations.ExecuteChecksThenCallsTransact : Prop :=
  RefusesReserved .execute ∧
  (∀ (s : State) (nseg : BitVec 8) (addr : Addr7) (segs : List Segment) (st : Status) (rx : Option (List Byte)),
    s.phase = .bus → s.tx (.client s.env.cur) = .returned st rx →
    exec (.execute nseg addr segs) s = .next (s.respond st (if st = .ok then .bytes (rx.getD []) else .none))) ∧
  ∀ (s : State) (nseg : BitVec 8) (addr : Addr7) (segs : List Segment), s.phase ≠ .bus →
    (s.busInit = false → exec (.execute nseg addr segs) s = .next (s.raise .notInitialized)) ∧
    (s.busInit = true → (nseg.toNat ≠ segs.length ∨ ∃ seg ∈ segs, segLegal seg = false) →
      exec (.execute nseg addr segs) s = .next (s.raise .invalidArgument)) ∧
    (s.busInit = true → nseg = 0#8 → segs = [] →
      exec (.execute nseg addr segs) s = .next (s.respond .ok (.bytes []))) ∧
    (s.busInit = true → nseg.toNat = segs.length → SegsLegal segs →
      exec (.execute nseg addr segs) s = .next { s with clients := (s.clients.modify s.env.cur
        (fun c => { c with phase := .bus, tx := .waiting segs addr })) })

/-- R133, R136: a client in `Transact` takes a FREE lock and loads the engine; while the lock is held it times out or
waits, as the oracle says; and it takes no step while its transaction is in the engine. -/
def Obligations.BusCommandWaitsForTheLock : Prop :=
  ∀ (s : State) (i : Instr), Instr.usesBus i = true → s.phase = .bus →
    (∀ segs dflt, s.tx (.client s.env.cur) = .waiting segs dflt →
    (s.lockOwner = none → exec i s = .next ({ s with
        lockOwner := some (.client s.env.cur)
        eng := { phase := .begin, segs := segs, dflt := dflt, k := 0, i := 0, rx := [], status := .ok } }.setTx
          (.client s.env.cur) .running)) ∧
    (s.lockOwner ≠ none → s.reply.lock = .timeout →
      exec i s = .next (s.afterReply.setTx (.client s.env.cur) (.returned .busTimeout none))) ∧
    (s.lockOwner ≠ none → s.reply.lock = .goOn → exec i s = .next s.afterReply)) ∧
    (s.tx (.client s.env.cur) = .running → exec i s = .next s)

/-- R131, R132, R173, R174, R175, R350: the delivered result is the response: the bytes read on OK, no result on a failure, and
none for WRITE; and on every execution that is weakly fair to the client the response comes. -/
def Obligations.BusCommandAnswersItsResult : Prop :=
  (∀ (s : State) (st : Status) (rx : Option (List Byte)), s.phase = .bus →
    s.tx (.client s.env.cur) = .returned st rx →
    (∀ nseg addr segs, exec (.execute nseg addr segs) s =
      .next (s.respond st (if st = .ok then .bytes (rx.getD []) else .none))) ∧
    (∀ fd len, exec (.readDesc fd len) s = .next (s.respond st (if st = .ok then .bytes (rx.getD []) else .none))) ∧
    (∀ fd len segs, exec (.atomicTransfer fd len segs) s =
      .next (s.respond st (if st = .ok then .bytes (rx.getD []) else .none))) ∧
    (∀ fd len data, exec (.writeDesc fd len data) s = .next (s.respond st .none))) ∧
  (∀ (x : Execution) (j n : Nat) (c : Client) (i : Instr) (st : Status) (rx : Option (List Byte)),
    x.weaklyFair (.client j) → (x.state n).clients[j]? = some c → c.instr = some i → Instr.usesBus i = true →
    c.phase = .bus → c.tx = .returned st rx → (x.state n).lockOwner ≠ some (.client j) →
    ∃ m d, n ≤ m ∧ (x.state m).clients[j]? = some d ∧ d.cmd = none ∧ d.resp.map Response.status = some st)

/-! ## The engine (40_bus_engine R137 to R152) -/

/-- R137, R142, R145: the engine has no step while the lock is FREE; `Next()` goes to the next segment or to STOP; the
BEGIN step opens a segment, with START for the first and RSTART for every later one; the STOP step stops, releases the lock
and delivers the result, in one step. -/
def Obligations.EngineOpensAndStops : Prop :=
  (∀ s : State, s.lockOwner = none → engineStep s = s) ∧
  (∀ e : Engine, e.next =
    if e.k + 1 < e.segs.length then { e with k := e.k + 1, phase := .begin } else { e with phase := .stop }) ∧
  ∀ (s : State) (r : Requester), s.lockOwner = some r →
    (s.eng.phase = .begin → engineStep s = { s with
        trace := s.trace ++ [if s.eng.k = 0 then .start else .rstart]
        eng := { s.eng with phase := .addr, i := 0 } }) ∧
    (s.eng.phase = .stop → engineStep s = ({ s with
        trace := s.trace ++ [Event.stop]
        lockOwner := none
        eng := { s.eng with phase := .idle } } : State).setTx r
          (.returned s.eng.status (if s.eng.status = .ok then some s.eng.rx else none)))

/-- R138, R100: the ADDR step sends `{address, RW}` and goes on by the target's answer. -/
def Obligations.EngineSendsTheAddressByte : Prop :=
  ∀ (s : State) (r : Requester) (seg : Segment), s.lockOwner = some r → s.eng.phase = .addr →
    s.eng.segs[s.eng.k]? = some seg →
    (engineStep s).trace = s.trace ++
      [.addr ((if seg.ovr then seg.oaddr else s.eng.dflt) ++ (if seg.dir = .read then 1#1 else 0#1)) s.reply.target] ∧
    (s.reply.target = .ack → seg.dir = .read → (engineStep s).eng = { s.eng with phase := .rdata }) ∧
    (s.reply.target = .ack → seg.dir = .write → seg.len ≠ 0#16 → (engineStep s).eng = { s.eng with phase := .wdata }) ∧
    (s.reply.target = .ack → seg.dir = .write → seg.len = 0#16 → s.eng.k + 1 < s.eng.segs.length →
      (engineStep s).eng = { s.eng with k := s.eng.k + 1, phase := .begin }) ∧
    (s.reply.target = .ack → seg.dir = .write → seg.len = 0#16 → ¬ s.eng.k + 1 < s.eng.segs.length →
      (engineStep s).eng = { s.eng with phase := .stop }) ∧
    (s.reply.target = .nack → (engineStep s).eng = { s.eng with status := .busNackAddr, phase := .stop }) ∧
    (s.reply.target = .stretchTo → (engineStep s).eng = { s.eng with status := .busStretchTimeout, phase := .stop }) ∧
    (s.reply.target = .timeout → (engineStep s).eng = { s.eng with status := .busTimeout, phase := .stop }) ∧
    engineStep s = { s.afterReply with trace := (engineStep s).trace, eng := (engineStep s).eng }

/-- R140: the WDATA step sends one data byte and goes on by the target's answer. -/
def Obligations.EngineSendsADataByte : Prop :=
  ∀ (s : State) (r : Requester) (seg : Segment) (d : Byte), s.lockOwner = some r → s.eng.phase = .wdata →
    s.eng.segs[s.eng.k]? = some seg → seg.data[s.eng.i]? = some d →
    (engineStep s).trace = s.trace ++ [.tx d s.reply.target] ∧
    (s.reply.target = .ack → s.eng.i + 1 ≠ seg.len.toNat → (engineStep s).eng = { s.eng with i := s.eng.i + 1 }) ∧
    (s.reply.target = .ack → s.eng.i + 1 = seg.len.toNat → s.eng.k + 1 < s.eng.segs.length →
      (engineStep s).eng = { s.eng with i := s.eng.i + 1, k := s.eng.k + 1, phase := .begin }) ∧
    (s.reply.target = .ack → s.eng.i + 1 = seg.len.toNat → ¬ s.eng.k + 1 < s.eng.segs.length →
      (engineStep s).eng = { s.eng with i := s.eng.i + 1, phase := .stop }) ∧
    (s.reply.target = .nack → (engineStep s).eng = { s.eng with status := .busNackData, phase := .stop }) ∧
    (s.reply.target = .stretchTo → (engineStep s).eng = { s.eng with status := .busStretchTimeout, phase := .stop }) ∧
    (s.reply.target = .timeout → (engineStep s).eng = { s.eng with status := .busTimeout, phase := .stop }) ∧
    engineStep s = { s.afterReply with trace := (engineStep s).trace, eng := (engineStep s).eng }

/-- R141: the RDATA step receives one byte, acknowledges it unless it is the final byte of the read, and keeps it. -/
def Obligations.EngineReceivesADataByte : Prop :=
  ∀ (s : State) (r : Requester) (seg : Segment), s.lockOwner = some r → s.eng.phase = .rdata →
    s.eng.segs[s.eng.k]? = some seg →
    (∀ v, s.reply.rx = .byte v →
      (engineStep s).trace = s.trace ++ [.rx v (if s.eng.i < seg.len.toNat - 1 then .ack else .nack)] ∧
      (s.eng.i + 1 ≠ seg.len.toNat →
        (engineStep s).eng = { s.eng with rx := s.eng.rx ++ [v], i := s.eng.i + 1 }) ∧
      (s.eng.i + 1 = seg.len.toNat → s.eng.k + 1 < s.eng.segs.length → (engineStep s).eng =
        { s.eng with rx := s.eng.rx ++ [v], i := s.eng.i + 1, k := s.eng.k + 1, phase := .begin }) ∧
      (s.eng.i + 1 = seg.len.toNat → ¬ s.eng.k + 1 < s.eng.segs.length → (engineStep s).eng =
        { s.eng with rx := s.eng.rx ++ [v], i := s.eng.i + 1, phase := .stop })) ∧
    (∀ f, s.reply.rx = .fail f →
      (engineStep s).trace = s.trace ++ [.rxFail f] ∧
      (engineStep s).eng = { s.eng with
        status := if f = .stretchTo then .busStretchTimeout else .busTimeout, phase := .stop }) ∧
    engineStep s = { s.afterReply with trace := (engineStep s).trace, eng := (engineStep s).eng }

/-- R144, R145, R304: the first fault of a transaction is followed by STOP alone, which releases the lock and delivers that
status without bytes. -/
def Obligations.AFaultIsFollowedByStopAndRelease : Prop :=
  ∀ (s t : State) (r : Requester), s.lockOwner = some r → EngineBusy s.eng → s.eng.phase ≠ .stop →
    t = engineStep s → t.eng.status ≠ .ok →
    t.eng.phase = .stop ∧ engineStep t = ({ t with
        trace := t.trace ++ [Event.stop]
        lockOwner := none
        eng := { t.eng with phase := .idle } } : State).setTx r (.returned t.eng.status none)

/-- R152: every step of the busy engine emits exactly one event and is a row of the table. -/
def Obligations.EngineStepIsARowOfTheTable : Prop :=
  ∀ s : State, s.lockOwner ≠ none → EngineBusy s.eng →
    ∃ e, (engineStep s).trace = s.trace ++ [e] ∧ phaseStep s.eng.phase s.eng.k e (engineStep s).eng.phase = true ∧
      ((engineStep s).lockOwner = none ↔ s.eng.phase = .stop)

/-- R350, R152: whatever the targets answer, a transaction ends, and the lock is released, in at most
`1 + sum (2 + len)` engine steps; so on every execution that is weakly fair to the engine a held lock is released. -/
def Obligations.EveryTransactionEndsInBoundedSteps : Prop :=
  (∀ s : State, s.lockOwner ≠ none → EngineBusy s.eng →
    ∃ n, n ≤ transactionEvents s.eng.segs ∧ (engineStep^[n] s).lockOwner = none) ∧
  (∀ (x : Execution) (n : Nat), x.weaklyFair .engine → (x.state n).lockOwner ≠ none → EngineBusy (x.state n).eng →
    ∃ m, n ≤ m ∧ (x.state m).lockOwner = none)

/-- R132, R146, R147, R152: a transaction whose every byte is accepted emits exactly the events of its segments, in order,
and a STOP: `1 + sum (2 + len)` of them in as many engine steps; it delivers OK and the bytes of every read segment in
segment order. -/
def Obligations.AcceptedTransactionSendsItsSegmentsAndDelivers : Prop :=
  ∀ (s t : State) (r : Requester) (segs : List Segment) (dflt : Addr7), s.lockOwner = some r →
    s.eng = { phase := .begin, segs := segs, dflt := dflt, k := 0, i := 0, rx := [], status := .ok } →
    SegsLegal segs → segsDraws segs ≤ s.env.replies.length →
    (∀ q ∈ s.env.replies.take (segsDraws segs), Reply.accepts q = true) →
    t = engineStep^[transactionEvents segs] s →
    t.trace = s.trace ++ segsEvents true segs dflt s.env.replies ++ [.stop] ∧
    (segsEvents true segs dflt s.env.replies).length + 1 = transactionEvents segs ∧
    t.lockOwner = none ∧ t.eng.phase = .idle ∧
    (s.tx r = .running → t.tx r = .returned .ok (some (segsBytes segs s.env.replies)))

/-! ## Descriptor front end (41_bus_front_end) -/

/-- R170, R177: OPEN takes the lowest closed entry, opens it unbound and answers its index; with every entry open it
answers TABLE_FULL. That finding the entry and opening it are one step is the model's reading of R71 (log entry 7); R170 has
the choice outside its Atomic block. -/
def Obligations.OpenTakesTheLowestClosedEntry : Prop :=
  RefusesReserved .openDesc ∧ RespondsNext .openDesc ∧
  (∀ (s : State) (below above : List Desc) (d : Desc), (∀ r, s.phase ≠ .respond r) → s.desc = below ++ d :: above →
    (∀ e ∈ below, e.isOpen = true) → d.isOpen = false →
    exec .openDesc s = .next (({ s with desc := below ++ ⟨true, 0#7⟩ :: above } : State).thenRespond .ok
      (.fd (BitVec.ofNat 8 below.length)))) ∧
  (∀ s : State, (∀ r, s.phase ≠ .respond r) → (∀ e ∈ s.desc, e.isOpen = true) →
    exec .openDesc s = .next (s.raise .tableFull))

/-- R171: CLOSE closes an open descriptor and unbinds it; any other id is INVALID_DESCRIPTOR. That the check and the close are
one step is the model's reading of R71 (log entry 7); R171 has the check outside its Atomic block. -/
def Obligations.CloseUnbindsAnOpenDescriptor : Prop :=
  RefusesReserved .closeDesc ∧ (∀ fd : BitVec 8, RespondsNext (.closeDesc fd)) ∧
  (∀ (s : State) (fd : BitVec 8) (a : Addr7), (∀ r, s.phase ≠ .respond r) → s.desc[fd.toNat]? = some ⟨true, a⟩ →
    exec (.closeDesc fd) s = .next ({ s with desc := s.desc.set fd.toNat ⟨false, 0#7⟩ }.thenRespond .ok .none)) ∧
  (∀ (s : State) (fd : BitVec 8), (∀ r, s.phase ≠ .respond r) → (∀ a : Addr7, s.desc[fd.toNat]? ≠ some ⟨true, a⟩) →
    exec (.closeDesc fd) s = .next (s.raise .invalidDescriptor))

/-- R172: BIND_ADDRESS stores a 7-bit address, 0 included, in an open descriptor. That the checks and the write are one step is
the model's reading of R71 (log entry 7); R172 puts neither in an Atomic block. -/
def Obligations.BindStoresASevenBitAddress : Prop :=
  RefusesReserved .bindAddress ∧ (∀ fd a8 : BitVec 8, RespondsNext (.bindAddress fd a8)) ∧
  ∀ (s : State) (fd a8 : BitVec 8), (∀ r, s.phase ≠ .respond r) →
    (∀ a : Addr7, s.desc[fd.toNat]? = some ⟨true, a⟩ → a8.toNat ≤ 0x7F → exec (.bindAddress fd a8) s =
      .next ({ s with desc := s.desc.set fd.toNat ⟨true, BitVec.ofNat 7 a8.toNat⟩ }.thenRespond .ok .none)) ∧
    (∀ a : Addr7, s.desc[fd.toNat]? = some ⟨true, a⟩ → 0x7F < a8.toNat →
      exec (.bindAddress fd a8) s = .next (s.raise .invalidArgument)) ∧
    ((∀ a : Addr7, s.desc[fd.toNat]? ≠ some ⟨true, a⟩) →
      exec (.bindAddress fd a8) s = .next (s.raise .invalidDescriptor))

/-- R173, R176, R302: the first step of WRITE, and its response: the status, never a result. That the checks are one step, and
the lock wait a later one, is the model's reading (log entries 7 and 12). -/
def Obligations.WriteChecksThenCallsTransact : Prop :=
  (∀ (s : State) (fd : BitVec 8) (len : BitVec 16) (data : List Byte) (st : Status) (rx : Option (List Byte)),
    s.phase = .bus → s.tx (.client s.env.cur) = .returned st rx →
    exec (.writeDesc fd len data) s = .next (s.respond st .none)) ∧
  ∀ (s : State) (fd : BitVec 8) (len : BitVec 16) (data : List Byte), s.phase ≠ .bus →
    (s.busInit = false → exec (.writeDesc fd len data) s = .next (s.raise .notInitialized)) ∧
    (s.busInit = true → (∀ a : Addr7, s.desc[fd.toNat]? ≠ some ⟨true, a⟩) →
      exec (.writeDesc fd len data) s = .next (s.raise .invalidDescriptor)) ∧
    (∀ a : Addr7, s.busInit = true → s.desc[fd.toNat]? = some ⟨true, a⟩ →
      (len.toNat ≠ data.length → exec (.writeDesc fd len data) s = .next (s.raise .invalidArgument)) ∧
      (len.toNat = data.length → a = 0#7 →
        exec (.writeDesc fd len data) s = .next (s.raise .invalidDescriptor)) ∧
      (len = 0#16 → data = [] → a ≠ 0#7 → exec (.writeDesc fd len data) s = .next (s.respond .ok .none)) ∧
      (len.toNat = data.length → len ≠ 0#16 → a ≠ 0#7 →
        exec (.writeDesc fd len data) s = .next { s with clients := (s.clients.modify s.env.cur
          (fun c => { c with phase := .bus, tx := .waiting [⟨.write, false, 0#7, len, data⟩] a })) }))

/-- R174, R176, R302: the first step of READ, and its response: the bytes read on OK, no result on a failure. That the checks are
one step, and the lock wait a later one, is the model's reading (log entries 7 and 12). -/
def Obligations.ReadChecksThenCallsTransact : Prop :=
  (∀ (s : State) (fd : BitVec 8) (len : BitVec 16) (st : Status) (rx : Option (List Byte)),
    s.phase = .bus → s.tx (.client s.env.cur) = .returned st rx →
    exec (.readDesc fd len) s = .next (s.respond st (if st = .ok then .bytes (rx.getD []) else .none))) ∧
  ∀ (s : State) (fd : BitVec 8) (len : BitVec 16), s.phase ≠ .bus →
    (s.busInit = false → exec (.readDesc fd len) s = .next (s.raise .notInitialized)) ∧
    (s.busInit = true → (∀ a : Addr7, s.desc[fd.toNat]? = some ⟨true, a⟩ → a = 0#7) →
      exec (.readDesc fd len) s = .next (s.raise .invalidDescriptor)) ∧
    (∀ a : Addr7, s.busInit = true → s.desc[fd.toNat]? = some ⟨true, a⟩ → a ≠ 0#7 →
      (len = 0#16 → exec (.readDesc fd len) s = .next (s.respond .ok (.bytes []))) ∧
      (len ≠ 0#16 → exec (.readDesc fd len) s = .next { s with clients := (s.clients.modify s.env.cur
        (fun c => { c with phase := .bus, tx := .waiting [⟨.read, false, 0#7, len, []⟩] a })) }))

/-- R175, R93, R176, R302: the first step of ATOMIC_TRANSFER, and its response. That the checks are one step, and the lock wait a
later one, is the model's reading (log entries 7 and 12). -/
def Obligations.AtomicTransferChecksThenCallsTransact : Prop :=
  RefusesReserved .atomicTransfer ∧
  (∀ (s : State) (fd : BitVec 8) (len : BitVec 16) (segs : List Segment) (st : Status) (rx : Option (List Byte)),
    s.phase = .bus → s.tx (.client s.env.cur) = .returned st rx →
    exec (.atomicTransfer fd len segs) s =
      .next (s.respond st (if st = .ok then .bytes (rx.getD []) else .none))) ∧
  ∀ (s : State) (fd : BitVec 8) (len : BitVec 16) (segs : List Segment), s.phase ≠ .bus →
    (s.busInit = false → exec (.atomicTransfer fd len segs) s = .next (s.raise .notInitialized)) ∧
    (s.busInit = true → (∀ a : Addr7, s.desc[fd.toNat]? ≠ some ⟨true, a⟩) →
      exec (.atomicTransfer fd len segs) s = .next (s.raise .invalidDescriptor)) ∧
    (∀ a : Addr7, s.busInit = true → s.desc[fd.toNat]? = some ⟨true, a⟩ →
      ((len.toNat ≠ segs.length ∨ ∃ seg ∈ segs, segLegal seg = false) →
        exec (.atomicTransfer fd len segs) s = .next (s.raise .invalidArgument)) ∧
      (len.toNat = segs.length → (∀ seg ∈ segs, segLegal seg = true) →
        (∃ seg ∈ segs, (if seg.ovr then seg.oaddr else a) = 0#7) →
        exec (.atomicTransfer fd len segs) s = .next (s.raise .invalidDescriptor)) ∧
      (len = 0#16 → segs = [] → exec (.atomicTransfer fd len segs) s = .next (s.respond .ok (.bytes []))) ∧
      (len.toNat = segs.length → SegsLegal segs → (∀ seg ∈ segs, (if seg.ovr then seg.oaddr else a) ≠ 0#7) →
        exec (.atomicTransfer fd len segs) s = .next { s with clients := (s.clients.modify s.env.cur
          (fun c => { c with phase := .bus, tx := .waiting segs a })) }))

/-! ## PWM register encoder and decoder (42_pwm_register_protocol) -/

/-- R202: the accepted frequencies at 25 MHz, and the prescaler at both ends. -/
def Obligations.PrescalerAcceptsExactly24To1743Hz : Prop :=
  (∀ f : Nat, (computePrescaler 25000000 f).isSome = true ↔ 24 ≤ f ∧ f ≤ 1743) ∧
  computePrescaler 25000000 24 = some 253#8 ∧ computePrescaler 25000000 23 = none ∧
  computePrescaler 25000000 1743 = some 3#8 ∧ computePrescaler 25000000 1744 = none

/-- R201: an accepted prescaler p is in [3, 255], and p + 1 is the quotient `osc / (4096 f)` rounded half up:
`(p + 1) - 1/2 <= osc / (4096 f) < (p + 1) + 1/2`, for every oscillator and frequency; and every such p is accepted. -/
def Obligations.PrescalerIsTheRoundedQuotient : Prop :=
  ∀ (osc f : Nat) (p : BitVec 8),
    computePrescaler osc f = some p ↔
      f ≠ 0 ∧ 3 ≤ p.toNat ∧ 4096 * f * (2 * p.toNat + 1) ≤ 2 * osc ∧ 2 * osc < 4096 * f * (2 * p.toNat + 3)

/-- R207, R209: the duty a set of fields stands for, full-off before full-on before the counts; and the duty of a duty's
fields is the duty, up to "fully on". -/
def Obligations.DutyOfEncodeLedIsTheDuty : Prop :=
  (∀ f : LedFields, f.fullOff = true → dutyOf f = 0) ∧
  (∀ f : LedFields, f.fullOff = false → f.fullOn = true → dutyOf f = 4096) ∧
  (∀ f : LedFields, f.fullOff = false → f.fullOn = false →
    (dutyOf f : Int) = ((f.off.toNat : Int) - f.on.toNat) % 4096) ∧
  (∀ c d : Nat, c < 16 → dutyOf (encodeLed c d) = min d 4096)

/-- R203, R208: the fields of a duty: full on, full off, or the counts; the on edge of channel c is c * 256 for every duty
strictly between off and full, no two channels share it, and the off edge wraps exactly when on + d reaches 4096. -/
def Obligations.OnEdgesAreStaggeredBy256 : Prop :=
  (∀ c d : Nat, 4096 ≤ d → encodeLed c d = { on := 0#12, fullOn := true, off := 0#12, fullOff := false }) ∧
  (∀ c : Nat, encodeLed c 0 = { on := 0#12, fullOn := false, off := 0#12, fullOff := true }) ∧
  (∀ c d : Nat, c < 16 → 0 < d → d < 4096 → (encodeLed c d).on.toNat = c * 256 ∧
    (encodeLed c d).off.toNat = (c * 256 + d) % 4096 ∧
    (encodeLed c d).fullOn = false ∧ (encodeLed c d).fullOff = false ∧
    (encodeLed c d).off ≠ (encodeLed c d).on ∧
    ((encodeLed c d).off.toNat < (encodeLed c d).on.toNat ↔ 4096 ≤ (encodeLed c d).on.toNat + d)) ∧
  (∀ c c' d d' : Nat, c < 16 → c' < 16 → c ≠ c' → 0 < d → d < 4096 → 0 < d' → d' < 4096 →
    (encodeLed c d).on ≠ (encodeLed c' d').on)

/-- R204, R206, R111: the four bytes of a group in wire order, and the fields of four bytes, wherever above the count the
full flag stands; decoding a group's bytes gives its fields back. -/
def Obligations.DecodeLedInvertsLedBytes : Prop :=
  ∀ flagBit : Nat, 4 ≤ flagBit → flagBit ≤ 7 →
    (∀ f : LedFields, ∃ b0 b1 b2 b3, ledBytes flagBit f = [b0, b1, b2, b3] ∧
      b0.toNat = f.on.toNat % 256 ∧ b1.toNat = f.on.toNat / 256 + (if f.fullOn then 2 ^ flagBit else 0) ∧
      b2.toNat = f.off.toNat % 256 ∧ b3.toNat = f.off.toNat / 256 + (if f.fullOff then 2 ^ flagBit else 0) ∧
      decodeLed flagBit b0 b1 b2 b3 = f) ∧
    (∀ b0 b1 b2 b3 : Byte,
      (decodeLed flagBit b0 b1 b2 b3).on.toNat = b1.toNat % 16 * 256 + b0.toNat ∧
      (decodeLed flagBit b0 b1 b2 b3).fullOn = b1.getLsbD flagBit ∧
      (decodeLed flagBit b0 b1 b2 b3).off.toNat = b3.toNat % 16 * 256 + b2.toNat ∧
      (decodeLed flagBit b0 b1 b2 b3).fullOff = b3.getLsbD flagBit)

/-- R205, R110, R111: the frame of channel c: the register pointer 0x06 + 4c, then four bytes that stand for the duty, with
the reserved bits 7:5 of both high bytes 0. -/
def Obligations.LedFrameCarriesTheDuty : Prop :=
  ∀ c d : Nat, c < 16 →
    ∃ b0 b1 b2 b3 : Byte, ledFrame c d = [BitVec.ofNat 8 (0x06 + 4 * c), b0, b1, b2, b3] ∧
      b1.toNat < 32 ∧ b3.toNat < 32 ∧ dutyOf (decodeLed 4 b0 b1 b2 b3) = min d 4096

/-- R210 to R213, R112, R113: the bits of the mode registers; they pack and unpack; MODE2's reserved bits are lost. -/
def Obligations.ModeBytesRoundTrip : Prop :=
  (∀ b : Byte, unpackMode1 b = {
    restart := b.getLsbD 7, extclk := b.getLsbD 6, ai := b.getLsbD 5, sleep := b.getLsbD 4,
    sub1 := b.getLsbD 3, sub2 := b.getLsbD 2, sub3 := b.getLsbD 1, allcall := b.getLsbD 0 }) ∧
  (∀ b : Byte, (unpackMode2 b).invrt = b.getLsbD 4 ∧ (unpackMode2 b).och = b.getLsbD 3 ∧
    (unpackMode2 b).outdrv = b.getLsbD 2 ∧ (unpackMode2 b).outne.toNat = b.toNat % 4) ∧
  (∀ b : Byte, packMode1 (unpackMode1 b) = b) ∧ (∀ m : Mode1, unpackMode1 (packMode1 m) = m) ∧
  (∀ b : Byte, packMode2 (unpackMode2 b) = b &&& 0x1F#8) ∧ (∀ m : Mode2, unpackMode2 (packMode2 m) = m)

/-! ## PWM_INIT (43_pwm_cache_flush R240 to R248) -/

/-- R240, R302: the first step of PWM_INIT. -/
def Obligations.PwmInitChecksThenStartsTheSequence : Prop :=
  RefusesReserved .pwmInit ∧
  ∀ (s : State) (freq : BitVec 16) (addr : Addr7), s.phase ≠ .sequence → (∀ r, s.phase ≠ .respond r) →
    (s.pwmState ≠ .uninit → exec (.pwmInit freq addr) s = .next (s.raise .alreadyInitialized)) ∧
    (s.pwmState = .uninit → s.busInit = false → exec (.pwmInit freq addr) s = .next (s.raise .notInitialized)) ∧
    (s.pwmState = .uninit → s.busInit = true → (freq.toNat < 24 ∨ 1743 < freq.toNat ∨ addr = 0#7) →
      exec (.pwmInit freq addr) s = .next (s.raise .invalidArgument)) ∧
    (∀ p : BitVec 8, s.pwmState = .uninit → s.busInit = true → addr ≠ 0#7 →
      computePrescaler 25000000 freq.toNat = some p →
      exec (.pwmInit freq addr) s = .next { s with
        pwmState := .initializing, pwmAddr := addr, pwmPrescale := p, initStep := 1
        initTx := .waiting [⟨.write, false, 0#7, 1#16, [0x00#8]⟩, ⟨.read, false, 0#7, 1#16, []⟩] addr
        clients := s.clients.modify s.env.cur (fun c => { c with phase := .sequence }) })

/-- R136, R133 for requester INIT: the sequence waits for the lock as every requester does, and takes no step while the
engine works. -/
def Obligations.PwmInitWaitsForTheLock : Prop :=
  ∀ (s : State) (freq : BitVec 16) (addr : Addr7), s.phase = .sequence →
    (∀ segs dflt, s.initTx = .waiting segs dflt →
      (s.lockOwner = none → exec (.pwmInit freq addr) s = .next { s with
        lockOwner := some .init
        eng := { phase := .begin, segs := segs, dflt := dflt, k := 0, i := 0, rx := [], status := .ok }
        initTx := .running }) ∧
      (s.lockOwner ≠ none → s.reply.lock = .timeout →
        exec (.pwmInit freq addr) s = .next { s.afterReply with initTx := .returned .busTimeout none }) ∧
      (s.lockOwner ≠ none → s.reply.lock = .goOn → exec (.pwmInit freq addr) s = .next s.afterReply)) ∧
    (s.initTx = .running → exec (.pwmInit freq addr) s = .next s)

/-- R241 to R247: what follows each step without a fault: the next step's transaction, byte for byte, after DELAY for every
write step, which waits until the lock is free (log entry 14, the model's reading of R151 and R241); and after step 7
READY with the response. -/
def Obligations.PwmInitSequenceGoesOn : Prop :=
  ∀ (s : State) (freq : BitVec 16) (addr : Addr7), s.phase = .sequence →
    (∀ rx, s.initTx = .returned .ok rx →
      (s.initStep = 1 → exec (.pwmInit freq addr) s = .next { s with
        initStep := 2, initTx := .waiting [⟨.write, false, 0#7, 2#16, [0x00#8, 0x80#8]⟩] s.pwmAddr }) ∧
      (s.lockOwner = none →
        (s.initStep = 2 → exec (.pwmInit freq addr) s = .next { s with
          trace := s.trace ++ [.delay Config.tSettle]
          initStep := 3, initTx := .waiting [⟨.write, false, 0#7, 2#16, [0x00#8, 0x10#8]⟩] s.pwmAddr }) ∧
        (s.initStep = 3 → exec (.pwmInit freq addr) s = .next { s with
          trace := s.trace ++ [.delay Config.tSettle]
          initStep := 4, initTx := .waiting [⟨.write, false, 0#7, 2#16, [0xFE#8, s.pwmPrescale]⟩] s.pwmAddr }) ∧
        (s.initStep = 4 → exec (.pwmInit freq addr) s = .next { s with
          trace := s.trace ++ [.delay Config.tSettle]
          initStep := 5, initTx := .waiting [⟨.write, false, 0#7, 2#16, [0x00#8, 0x80#8]⟩] s.pwmAddr }) ∧
        (s.initStep = 5 → exec (.pwmInit freq addr) s = .next { s with
          trace := s.trace ++ [.delay Config.tSettle]
          initStep := 6, initTx := .waiting [⟨.write, false, 0#7, 2#16, [0x00#8, 0x20#8]⟩] s.pwmAddr }) ∧
        (s.initStep = 6 → exec (.pwmInit freq addr) s = .next { s with
          trace := s.trace ++ [.delay Config.tSettle], initStep := 7, initTx := .idle })) ∧
      (s.lockOwner ≠ none → s.initStep ≠ 1 → exec (.pwmInit freq addr) s = .next s)) ∧
    (s.initTx = .idle → s.initStep = 7 → exec (.pwmInit freq addr) s =
      .next ({ s with pwmState := .ready, initStep := 0 }.respond .ok .none))

/-- R248, R242, R9: a step with a fault ends the sequence for good: FAILED, and in the next step the response, DEVICE_ABSENT for
the presence step, the bus status for every later one. -/
def Obligations.PwmInitFailureIsFinal : Prop :=
  (∀ (freq : BitVec 16) (addr : Addr7), RespondsNext (.pwmInit freq addr)) ∧
  ∀ (s : State) (freq : BitVec 16) (addr : Addr7) (st : Status) (rx : Option (List Byte)), s.phase = .sequence →
    s.initTx = .returned st rx → st ≠ .ok →
    exec (.pwmInit freq addr) s = .next ({ s with pwmState := .failed, initStep := 0, initTx := .idle }.thenRespond
      (if s.initStep = 1 then .deviceAbsent else st) .none)

/-! ## SET_DUTY, FLUSH_TRIGGER and the channel handle (43, 44) -/

/-- R250, R251, R252: SET_DUTY stores the clamped duty and marks the channel in one step, and posts and answers OK in the
next (R251 says so); FLUSH_TRIGGER posts, whether or not anything is dirty, and answers OK in the next. That the checks are one
step with the store, or with the post, is the model's reading of R71 (log entry 7). -/
def Obligations.SetDutyStoresThenPostsAndTriggerPosts : Prop :=
  RefusesReserved .flushTrigger ∧ RespondsNext .flushTrigger ∧
  (∀ (s : State) (ch : BitVec 8) (val : BitVec 16), s.phase ≠ .post → s.pwmState ≠ .ready →
    exec (.setDuty ch val) s = .next (s.raise .notInitialized)) ∧
  (∀ s : State, (∀ r, s.phase ≠ .respond r) → s.pwmState ≠ .ready →
    exec .flushTrigger s = .next (s.raise .notInitialized)) ∧
  (∀ (s : State) (ch : BitVec 8) (val : BitVec 16) (h : ch.toNat < 16), s.phase ≠ .post → s.pwmState = .ready →
    exec (.setDuty ch val) s = .next { s with
      cache := s.cache.set ch.toNat (min val.toNat 4096)
      dirty := s.dirty ||| BitVec.ofNat 16 (2 ^ ch.toNat)
      clients := s.clients.modify s.env.cur (fun c => { c with phase := .post }) }) ∧
  (∀ (s : State) (ch : BitVec 8) (val : BitVec 16), s.phase = .post →
    exec (.setDuty ch val) s = .next ({ s with wake := s.wake + 1 }.respond .ok .none)) ∧
  (∀ (s : State) (ch : BitVec 8) (val : BitVec 16), 16 ≤ ch.toNat → s.phase ≠ .post → s.pwmState = .ready →
    exec (.setDuty ch val) s = .next (s.raise .invalidArgument)) ∧
  (∀ s : State, (∀ r, s.phase ≠ .respond r) → s.pwmState = .ready →
    exec .flushTrigger s = .next ({ s with wake := s.wake + 1 }.thenRespond .ok .none))

/-- R32, R250, R266: the store sets the channel's bit and no other, leaves every other channel's duty, and a second store of
the same channel before a capture leaves the same mask and the last duty. -/
def Obligations.StoredDutyMarksItsChannelOnly : Prop :=
  ∀ (s : State) (c : Fin 16) (v w : Nat),
    (∀ k : Nat, (s.storeDuty c v).dirty.getLsbD k = (s.dirty.getLsbD k || decide (k = c.val))) ∧
    (s.storeDuty c v).cache[c] = v ∧
    (∀ k : Fin 16, k ≠ c → (s.storeDuty c v).cache[k] = s.cache[k]) ∧
    (s.storeDuty c v).storeDuty c w = s.storeDuty c w

/-- R280, R285: GET_DUTY reads the cached duty in one step and answers it in the next, and refuses a channel of 16 or more. That
the checks and the read are one step is the model's reading of R71 (log entry 7). -/
def Obligations.GetDutyAnswersTheCache : Prop :=
  RefusesReserved .getDuty ∧ (∀ ch : BitVec 8, RespondsNext (.getDuty ch)) ∧
  ∀ (s : State) (ch : BitVec 8), (∀ r, s.phase ≠ .respond r) →
    (s.pwmState ≠ .ready → exec (.getDuty ch) s = .next (s.raise .notInitialized)) ∧
    (∀ h : ch.toNat < 16, s.pwmState = .ready →
      exec (.getDuty ch) s = .next (s.thenRespond .ok (.value (BitVec.ofNat 16 s.cache[ch.toNat])))) ∧
    (16 ≤ ch.toNat → s.pwmState = .ready → exec (.getDuty ch) s = .next (s.raise .invalidArgument))

/-- R281 to R284: the three period queries answer 4096; SET_PERIOD accepts 4096 and refuses every other value. That the checks
and the response are one step is the model's reading of R71 (log entry 7). -/
def Obligations.ThePeriodIsFixedAt4096 : Prop :=
  RefusesReserved .getPeriod ∧ RefusesReserved .getPeriodMin ∧ RefusesReserved .getPeriodMax ∧
  RefusesReserved .setPeriod ∧
  (∀ s : State, s.pwmState ≠ .ready →
    exec .getPeriod s = .next (s.raise .notInitialized) ∧ exec .getPeriodMin s = .next (s.raise .notInitialized) ∧
    exec .getPeriodMax s = .next (s.raise .notInitialized) ∧
    ∀ val : BitVec 16, exec (.setPeriod val) s = .next (s.raise .notInitialized)) ∧
  ∀ s : State, s.pwmState = .ready →
    exec .getPeriod s = .next (s.respond .ok (.value 4096#16)) ∧
    exec .getPeriodMin s = .next (s.respond .ok (.value 4096#16)) ∧
    exec .getPeriodMax s = .next (s.respond .ok (.value 4096#16)) ∧
    exec (.setPeriod 4096#16) s = .next (s.respond .ok .none) ∧
    (∀ val : BitVec 16, val ≠ 4096#16 → exec (.setPeriod val) s = .next (s.raise .invalidArgument))

/-- R250, R252, R280 to R284, R345: a PWM command before READY is refused with NOT_INITIALIZED, whatever its operands, and
its value is lost. That the check and the response are one step is the model's reading of R71 (log entry 7). -/
def Obligations.PwmCommandsBeforeReadyAreRefused : Prop :=
  ∀ (s : State) (i : Instr), Instr.needsReady i = true → s.pwmState ≠ .ready → s.phase ≠ .post →
    (Instr.respondsLater i = true → ∀ r, s.phase ≠ .respond r) → exec i s = .next (s.raise .notInitialized)

/-! ## The flush worker (43 R260 to R264) -/

/-- R260, R261, R350: the worker takes one wake when there is one, and has no step otherwise; its capture reads and zeros the
mask in one step, and starts at the lowest marked channel, or goes idle; and on every execution that is weakly fair to the
worker a posted wake is taken. -/
def Obligations.WorkerWakesAndCaptures : Prop :=
  (∀ (x : Execution) (n : Nat), x.weaklyFair .worker → (x.state n).wk.phase = .idle → 0 < (x.state n).wake →
    ∃ m, n ≤ m ∧ (x.state m).wk.phase = .capture) ∧
  ∀ s : State,
    (s.wk.phase = .idle → 0 < s.wake →
      workerStep s = { s with wake := s.wake - 1, wk := { s.wk with phase := .capture } }) ∧
    (s.wk.phase = .idle → s.wake = 0 → workerStep s = s) ∧
    (s.wk.phase = .capture → s.dirty = 0#16 →
      workerStep s = { s with wk := { s.wk with mask := 0#16, phase := .idle } }) ∧
    (∀ c : Nat, s.wk.phase = .capture → s.dirty.getLsbD c = true → (∀ k < c, s.dirty.getLsbD k = false) →
      workerStep s = { s with dirty := 0#16, wk := { s.wk with mask := s.dirty, ch := c, phase := .flushing } })

/-- R262, R263, R264: a pass writes its channels in ascending order, each with the frame of the value the cache holds when
the frame is built; a failure is logged and the pass goes on; after the last channel the worker captures again. -/
def Obligations.WorkerWritesItsPassInAscendingOrder : Prop :=
  ∀ s : State, s.wk.phase = .flushing →
    (∀ c : Fin 16, s.wk.ch = c.val → s.wk.tx = .idle → workerStep s = { s with
      wk := { s.wk with tx := .waiting [⟨.write, false, 0#7, 5#16, ledFrame c.val s.cache[c]⟩] s.pwmAddr } }) ∧
    (∀ (st : Status) (rx : Option (List Byte)) (next : Nat), s.wk.ch < 16 → s.wk.tx = .returned st rx →
      (next = 16 ∨ next < 16 ∧ s.wk.mask.getLsbD next = true) → s.wk.ch < next →
      (∀ k, s.wk.ch < k → k < next → s.wk.mask.getLsbD k = false) →
      workerStep s = { s with
        flog := if st = .ok then s.flog else s.flog ++ [⟨s.wk.ch, st⟩]
        wk := { s.wk with ch := next, tx := .idle } }) ∧
    (s.wk.ch = 16 → workerStep s = { s with wk := { s.wk with phase := .capture } })

/-- R136 for requester WORKER: the worker waits for the lock as every requester does, and takes no step while the engine
works. -/
def Obligations.WorkerWaitsForTheLock : Prop :=
  ∀ s : State, s.wk.phase = .flushing → s.wk.ch < 16 →
    (∀ segs dflt, s.wk.tx = .waiting segs dflt →
      (s.lockOwner = none → workerStep s = { s with
        lockOwner := some .worker
        eng := { phase := .begin, segs := segs, dflt := dflt, k := 0, i := 0, rx := [], status := .ok }
        wk := { s.wk with tx := .running } }) ∧
      (s.lockOwner ≠ none → s.reply.lock = .timeout →
        workerStep s = { s.afterReply with wk := { s.wk with tx := .returned .busTimeout none } }) ∧
      (s.lockOwner ≠ none → s.reply.lock = .goOn → workerStep s = s.afterReply)) ∧
    (s.wk.tx = .running → workerStep s = s)

/-! ## Frames -/

/-- R280 to R284, R301: GET_DUTY, the period queries and SET_PERIOD change the client's own record and nothing else. -/
def Obligations.ChannelQueriesChangeNothingElse : Prop :=
  ∀ (s t : State) (i : Instr), Instr.isChannelQuery i = true → exec i s = .next t →
    t = { s with clients := t.clients } ∧ sameOtherClients s t

/-- Frame of BUS_INIT (R130), OPEN, CLOSE and BIND_ADDRESS (R170 to R172): beside the client's record, BUS_INIT writes
`bus_init` and `cfg_*`; the others one entry of the descriptor table; nothing else, and no bus event. -/
def Obligations.SetupCommandsWriteTheirRegistersOnly : Prop :=
  (∀ s t : State, exec .busInit s = .next t →
    t = { s with busInit := t.busInit, cfg := t.cfg, clients := t.clients } ∧ sameOtherClients s t) ∧
  (∀ (s t : State) (i : Instr), Instr.writesDesc i = true → exec i s = .next t →
    t = { s with desc := t.desc, clients := t.clients } ∧ sameOtherClients s t ∧ t.desc.length = s.desc.length) ∧
  (∀ (s t : State) (fd a8 : BitVec 8) (i : Instr), i = .closeDesc fd ∨ i = .bindAddress fd a8 → exec i s = .next t →
    ∀ n, n ≠ fd.toNat → t.desc[n]? = s.desc[n]?) ∧
  (∀ (s t : State) (n : Nat) (d : Desc), exec .openDesc s = .next t → s.desc[n]? = some d →
    d.isOpen = true ∨ (∃ m < n, ∃ e, s.desc[m]? = some e ∧ e.isOpen = false) → t.desc[n]? = some d)

/-- Frame of SET_DUTY and FLUSH_TRIGGER (R250 to R252): beside the client's record, `cache`, `dirty` and `wake`; `wake`
alone; no bus event. -/
def Obligations.DutyCommandsWriteTheirRegistersOnly : Prop :=
  (∀ (s t : State) (ch : BitVec 8) (val : BitVec 16), exec (.setDuty ch val) s = .next t →
    t = { s with cache := t.cache, dirty := t.dirty, wake := t.wake, clients := t.clients } ∧ sameOtherClients s t ∧
    (∀ k : Fin 16, k.val ≠ ch.toNat → t.cache[k] = s.cache[k]) ∧
    (∀ k : Nat, k ≠ ch.toNat → t.dirty.getLsbD k = s.dirty.getLsbD k)) ∧
  (∀ s t : State, exec .flushTrigger s = .next t →
    t = { s with wake := t.wake, clients := t.clients } ∧ sameOtherClients s t)

/-- Frame of EXECUTE, READ, WRITE, ATOMIC_TRANSFER (R131, R136, R173 to R175) and of PWM_INIT (R240 to R248): a client's own
step writes the lock, the engine registers when it takes the lock, the oracle's position and its record; PWM_INIT writes
the PWM registers as well, and no event but DELAY. -/
def Obligations.BusCommandsWriteTheirRegistersOnly : Prop :=
  (∀ (s t : State) (i : Instr), Instr.usesBus i = true → exec i s = .next t →
    t = { s with lockOwner := t.lockOwner, eng := t.eng, env := t.env, clients := t.clients } ∧
    sameOtherClients s t ∧ (s.lockOwner ≠ none → t.lockOwner = s.lockOwner ∧ t.eng = s.eng)) ∧
  (∀ (s t : State) (freq : BitVec 16) (addr : Addr7), exec (.pwmInit freq addr) s = .next t →
    t = { s with
      pwmState := t.pwmState, pwmAddr := t.pwmAddr, pwmPrescale := t.pwmPrescale, initStep := t.initStep
      initTx := t.initTx, lockOwner := t.lockOwner, eng := t.eng, env := t.env, clients := t.clients
      trace := t.trace } ∧
    sameOtherClients s t ∧ (s.lockOwner ≠ none → t.lockOwner = s.lockOwner ∧ t.eng = s.eng) ∧
    (t.trace = s.trace ∨ t.trace = s.trace ++ [.delay Config.tSettle]))
end

