-- ==== Sys2Proof/Laws/Decode.lean ====
section
/-! SUPPORT. The opcode map read both ways, and the bits of an encoded command word and segment descriptor. -/

namespace Sys2Proof

/-! ## The opcode map (R96) -/

/-- The byte of a row of the map names that row. -/
theorem Opcode.ofCode_code (o : Opcode) : Opcode.ofCode o.code = some o := by cases o <;> rfl

/-- A byte that names a row is that row's byte. -/
theorem Opcode.code_of_ofCode {c : BitVec 8} {o : Opcode} (h : Opcode.ofCode c = some o) : o.code = c := by
  unfold Opcode.ofCode at h
  split at h <;> simp only [Option.some.injEq, reduceCtorEq] at h <;> subst h <;>
    (apply BitVec.eq_of_toNat_eq; simp_all [Opcode.code])

/-! ## The bits of a command word (R90, R91) -/

/-- The bits of an encoded word: the operands below, the opcode above. -/
theorem encode_cw_getLsbD (i : Instr) (k : Nat) :
    (encode i).cw.getLsbD k = if k < 24 then i.operandBits.getLsbD k else i.opcode.code.getLsbD (k - 24) := by
  show (i.opcode.code ++ i.operandBits : BitVec (8 + 24)).getLsbD k = _
  rw [BitVec.getLsbD_append]

/-- The opcode field of an encoded word is the command's opcode. -/
theorem op_encode (i : Instr) : Word.op (encode i).cw = i.opcode.code := by
  apply BitVec.eq_of_getLsbD_eq
  intro k hk
  simp only [Word.op, BitVec.getLsbD_extractLsb', encode_cw_getLsbD, hk]
  simp

/-- The operand bits of EXECUTE: ADDR7 below, nine zeros, NSEG above. -/
theorem execute_bits (nseg : BitVec 8) (addr : Addr7) (segs : List Segment) (k : Nat) :
    (Instr.operandBits (.execute nseg addr segs)).getLsbD k =
      if k < 7 then addr.getLsbD k else if k - 7 < 9 then (0#9).getLsbD (k - 7) else nseg.getLsbD (k - 7 - 9) := by
  show (nseg ++ 0#9 ++ addr : BitVec (8 + 9 + 7)).getLsbD k = _
  simp only [BitVec.getLsbD_append]

/-- The operand bits of PWM_INIT: ADDR7 below, a zero, FREQ16 above. -/
theorem pwmInit_bits (freq : BitVec 16) (addr : Addr7) (k : Nat) :
    (Instr.operandBits (.pwmInit freq addr)).getLsbD k =
      if k < 7 then addr.getLsbD k else if k - 7 < 1 then (0#1).getLsbD (k - 7) else freq.getLsbD (k - 7 - 1) := by
  show (freq ++ 0#1 ++ addr : BitVec (16 + 1 + 7)).getLsbD k = _
  simp only [BitVec.getLsbD_append]

/-- The operand bits of BIND_ADDRESS: A8 below, eight zeros, FD8 above. -/
theorem bindAddress_bits (fd a8 : BitVec 8) (k : Nat) :
    (Instr.operandBits (.bindAddress fd a8)).getLsbD k =
      if k < 8 then a8.getLsbD k else if k - 8 < 8 then (0#8).getLsbD (k - 8) else fd.getLsbD (k - 8 - 8) := by
  show (fd ++ 0#8 ++ a8 : BitVec (8 + 8 + 8)).getLsbD k = _
  simp only [BitVec.getLsbD_append]

/-- The operand bits of every format with a byte above 16 bits. -/
theorem byte_low16_bits (a : BitVec 8) (b : BitVec 16) (k : Nat) :
    (a ++ b : BitVec 24).getLsbD k = if k < 16 then b.getLsbD k else a.getLsbD (k - 16) := by
  show (a ++ b : BitVec (8 + 16)).getLsbD k = _
  simp only [BitVec.getLsbD_append]

/-- No encoded word has a reserved bit set (R97). -/
theorem encode_reserved_zero (i : Instr) : (encode i).cw &&& i.opcode.format.reserved = 0#32 := by
  apply BitVec.eq_of_getLsbD_eq; intro k hk
  simp only [BitVec.getLsbD_and, encode_cw_getLsbD]
  cases i <;>
    simp only [Instr.opcode, Opcode.format, Format.reserved, Opcode.code, execute_bits, pwmInit_bits,
      bindAddress_bits] <;>
    (try simp only [Instr.operandBits, byte_low16_bits]) <;>
    interval_cases k <;> first | rfl | simp

/-! ## The bits of a segment descriptor (R92) -/

/-- The bits of an encoded descriptor. -/
theorem Segment.encode_sd_getLsbD (seg : Segment) (k : Nat) :
    seg.encode.sd.getLsbD k =
      if k < 16 then seg.len.getLsbD k
      else if k < 23 then seg.oaddr.getLsbD (k - 16)
      else if k < 30 then false
      else if k < 31 then seg.ovr
      else seg.dir.bit.getLsbD (k - 31) := by
  show (seg.dir.bit ++ BitVec.ofBool seg.ovr ++ 0#7 ++ seg.oaddr ++ seg.len : BitVec (1 + 1 + 7 + 7 + 16)).getLsbD k = _
  simp only [BitVec.getLsbD_append]
  by_cases h1 : k < 16
  · simp [h1]
  by_cases h2 : k < 23
  · have : k - 16 < 7 := by omega
    simp [h1, h2, this]
  by_cases h3 : k < 30
  · have ha : ¬ k - 16 < 7 := by omega
    have hb : k - 16 - 7 < 7 := by omega
    simp only [h1, h2, h3, ha, hb, if_true, if_false]
    simp
  by_cases h4 : k < 31
  · have : k = 30 := by omega
    subst this; simp
  · have ha : ¬ k - 16 < 7 := by omega
    have hb : ¬ k - 16 - 7 < 7 := by omega
    have hc : ¬ k - 16 - 7 - 7 < 1 := by omega
    have he : k - 16 - 7 - 7 - 1 = k - 31 := by omega
    simp only [h1, h2, h3, h4, ha, hb, hc, if_false, he]

end Sys2Proof
end

