-- ==== Sys2Proof/Laws/State.lean ====
section
/-! SUPPORT. One lemma per field per named update of the state, so that no later proof unfolds a record update. -/

namespace Sys2Proof.Machine

/-! ### `State.updClient` -/

@[simp] theorem State.updClient_busInit (s : State) (j : Nat) (f : Client → Client) : (s.updClient j f).busInit = s.busInit := rfl
@[simp] theorem State.updClient_cfg (s : State) (j : Nat) (f : Client → Client) : (s.updClient j f).cfg = s.cfg := rfl
@[simp] theorem State.updClient_lockOwner (s : State) (j : Nat) (f : Client → Client) : (s.updClient j f).lockOwner = s.lockOwner := rfl
@[simp] theorem State.updClient_eng (s : State) (j : Nat) (f : Client → Client) : (s.updClient j f).eng = s.eng := rfl
@[simp] theorem State.updClient_desc (s : State) (j : Nat) (f : Client → Client) : (s.updClient j f).desc = s.desc := rfl
@[simp] theorem State.updClient_pwmState (s : State) (j : Nat) (f : Client → Client) : (s.updClient j f).pwmState = s.pwmState := rfl
@[simp] theorem State.updClient_pwmAddr (s : State) (j : Nat) (f : Client → Client) : (s.updClient j f).pwmAddr = s.pwmAddr := rfl
@[simp] theorem State.updClient_pwmPrescale (s : State) (j : Nat) (f : Client → Client) : (s.updClient j f).pwmPrescale = s.pwmPrescale := rfl
@[simp] theorem State.updClient_initStep (s : State) (j : Nat) (f : Client → Client) : (s.updClient j f).initStep = s.initStep := rfl
@[simp] theorem State.updClient_initTx (s : State) (j : Nat) (f : Client → Client) : (s.updClient j f).initTx = s.initTx := rfl
@[simp] theorem State.updClient_cache (s : State) (j : Nat) (f : Client → Client) : (s.updClient j f).cache = s.cache := rfl
@[simp] theorem State.updClient_dirty (s : State) (j : Nat) (f : Client → Client) : (s.updClient j f).dirty = s.dirty := rfl
@[simp] theorem State.updClient_wake (s : State) (j : Nat) (f : Client → Client) : (s.updClient j f).wake = s.wake := rfl
@[simp] theorem State.updClient_wk (s : State) (j : Nat) (f : Client → Client) : (s.updClient j f).wk = s.wk := rfl
@[simp] theorem State.updClient_clients (s : State) (j : Nat) (f : Client → Client) : (s.updClient j f).clients = s.clients.modify j f := rfl
@[simp] theorem State.updClient_trace (s : State) (j : Nat) (f : Client → Client) : (s.updClient j f).trace = s.trace := rfl
@[simp] theorem State.updClient_flog (s : State) (j : Nat) (f : Client → Client) : (s.updClient j f).flog = s.flog := rfl
@[simp] theorem State.updClient_env (s : State) (j : Nat) (f : Client → Client) : (s.updClient j f).env = s.env := rfl

/-! ### `State.selectClient` -/

@[simp] theorem State.selectClient_busInit (s : State) (j : Nat) : (s.selectClient j).busInit = s.busInit := rfl
@[simp] theorem State.selectClient_cfg (s : State) (j : Nat) : (s.selectClient j).cfg = s.cfg := rfl
@[simp] theorem State.selectClient_lockOwner (s : State) (j : Nat) : (s.selectClient j).lockOwner = s.lockOwner := rfl
@[simp] theorem State.selectClient_eng (s : State) (j : Nat) : (s.selectClient j).eng = s.eng := rfl
@[simp] theorem State.selectClient_desc (s : State) (j : Nat) : (s.selectClient j).desc = s.desc := rfl
@[simp] theorem State.selectClient_pwmState (s : State) (j : Nat) : (s.selectClient j).pwmState = s.pwmState := rfl
@[simp] theorem State.selectClient_pwmAddr (s : State) (j : Nat) : (s.selectClient j).pwmAddr = s.pwmAddr := rfl
@[simp] theorem State.selectClient_pwmPrescale (s : State) (j : Nat) : (s.selectClient j).pwmPrescale = s.pwmPrescale := rfl
@[simp] theorem State.selectClient_initStep (s : State) (j : Nat) : (s.selectClient j).initStep = s.initStep := rfl
@[simp] theorem State.selectClient_initTx (s : State) (j : Nat) : (s.selectClient j).initTx = s.initTx := rfl
@[simp] theorem State.selectClient_cache (s : State) (j : Nat) : (s.selectClient j).cache = s.cache := rfl
@[simp] theorem State.selectClient_dirty (s : State) (j : Nat) : (s.selectClient j).dirty = s.dirty := rfl
@[simp] theorem State.selectClient_wake (s : State) (j : Nat) : (s.selectClient j).wake = s.wake := rfl
@[simp] theorem State.selectClient_wk (s : State) (j : Nat) : (s.selectClient j).wk = s.wk := rfl
@[simp] theorem State.selectClient_clients (s : State) (j : Nat) : (s.selectClient j).clients = s.clients := rfl
@[simp] theorem State.selectClient_trace (s : State) (j : Nat) : (s.selectClient j).trace = s.trace := rfl
@[simp] theorem State.selectClient_flog (s : State) (j : Nat) : (s.selectClient j).flog = s.flog := rfl
@[simp] theorem State.selectClient_env (s : State) (j : Nat) : (s.selectClient j).env = { s.env with cur := j } := rfl

/-! ### `State.setPhase` -/

@[simp] theorem State.setPhase_busInit (s : State) (p : ClientPhase) : (s.setPhase p).busInit = s.busInit := rfl
@[simp] theorem State.setPhase_cfg (s : State) (p : ClientPhase) : (s.setPhase p).cfg = s.cfg := rfl
@[simp] theorem State.setPhase_lockOwner (s : State) (p : ClientPhase) : (s.setPhase p).lockOwner = s.lockOwner := rfl
@[simp] theorem State.setPhase_eng (s : State) (p : ClientPhase) : (s.setPhase p).eng = s.eng := rfl
@[simp] theorem State.setPhase_desc (s : State) (p : ClientPhase) : (s.setPhase p).desc = s.desc := rfl
@[simp] theorem State.setPhase_pwmState (s : State) (p : ClientPhase) : (s.setPhase p).pwmState = s.pwmState := rfl
@[simp] theorem State.setPhase_pwmAddr (s : State) (p : ClientPhase) : (s.setPhase p).pwmAddr = s.pwmAddr := rfl
@[simp] theorem State.setPhase_pwmPrescale (s : State) (p : ClientPhase) : (s.setPhase p).pwmPrescale = s.pwmPrescale := rfl
@[simp] theorem State.setPhase_initStep (s : State) (p : ClientPhase) : (s.setPhase p).initStep = s.initStep := rfl
@[simp] theorem State.setPhase_initTx (s : State) (p : ClientPhase) : (s.setPhase p).initTx = s.initTx := rfl
@[simp] theorem State.setPhase_cache (s : State) (p : ClientPhase) : (s.setPhase p).cache = s.cache := rfl
@[simp] theorem State.setPhase_dirty (s : State) (p : ClientPhase) : (s.setPhase p).dirty = s.dirty := rfl
@[simp] theorem State.setPhase_wake (s : State) (p : ClientPhase) : (s.setPhase p).wake = s.wake := rfl
@[simp] theorem State.setPhase_wk (s : State) (p : ClientPhase) : (s.setPhase p).wk = s.wk := rfl
@[simp] theorem State.setPhase_clients (s : State) (p : ClientPhase) : (s.setPhase p).clients = s.clients.modify s.env.cur (fun c => { c with phase := p }) := rfl
@[simp] theorem State.setPhase_trace (s : State) (p : ClientPhase) : (s.setPhase p).trace = s.trace := rfl
@[simp] theorem State.setPhase_flog (s : State) (p : ClientPhase) : (s.setPhase p).flog = s.flog := rfl
@[simp] theorem State.setPhase_env (s : State) (p : ClientPhase) : (s.setPhase p).env = s.env := rfl

/-! ### `State.respond` -/

@[simp] theorem State.respond_busInit (s : State) (st : Status) (res : Result) : (s.respond st res).busInit = s.busInit := rfl
@[simp] theorem State.respond_cfg (s : State) (st : Status) (res : Result) : (s.respond st res).cfg = s.cfg := rfl
@[simp] theorem State.respond_lockOwner (s : State) (st : Status) (res : Result) : (s.respond st res).lockOwner = s.lockOwner := rfl
@[simp] theorem State.respond_eng (s : State) (st : Status) (res : Result) : (s.respond st res).eng = s.eng := rfl
@[simp] theorem State.respond_desc (s : State) (st : Status) (res : Result) : (s.respond st res).desc = s.desc := rfl
@[simp] theorem State.respond_pwmState (s : State) (st : Status) (res : Result) : (s.respond st res).pwmState = s.pwmState := rfl
@[simp] theorem State.respond_pwmAddr (s : State) (st : Status) (res : Result) : (s.respond st res).pwmAddr = s.pwmAddr := rfl
@[simp] theorem State.respond_pwmPrescale (s : State) (st : Status) (res : Result) : (s.respond st res).pwmPrescale = s.pwmPrescale := rfl
@[simp] theorem State.respond_initStep (s : State) (st : Status) (res : Result) : (s.respond st res).initStep = s.initStep := rfl
@[simp] theorem State.respond_initTx (s : State) (st : Status) (res : Result) : (s.respond st res).initTx = s.initTx := rfl
@[simp] theorem State.respond_cache (s : State) (st : Status) (res : Result) : (s.respond st res).cache = s.cache := rfl
@[simp] theorem State.respond_dirty (s : State) (st : Status) (res : Result) : (s.respond st res).dirty = s.dirty := rfl
@[simp] theorem State.respond_wake (s : State) (st : Status) (res : Result) : (s.respond st res).wake = s.wake := rfl
@[simp] theorem State.respond_wk (s : State) (st : Status) (res : Result) : (s.respond st res).wk = s.wk := rfl
@[simp] theorem State.respond_clients (s : State) (st : Status) (res : Result) : (s.respond st res).clients = s.clients.modify s.env.cur (fun _ => Client.answered ⟨st, res⟩) := rfl
@[simp] theorem State.respond_trace (s : State) (st : Status) (res : Result) : (s.respond st res).trace = s.trace := rfl
@[simp] theorem State.respond_flog (s : State) (st : Status) (res : Result) : (s.respond st res).flog = s.flog := rfl
@[simp] theorem State.respond_env (s : State) (st : Status) (res : Result) : (s.respond st res).env = s.env := rfl

/-! ### `State.thenRespond` -/

@[simp] theorem State.thenRespond_busInit (s : State) (st : Status) (res : Result) : (s.thenRespond st res).busInit = s.busInit := rfl
@[simp] theorem State.thenRespond_cfg (s : State) (st : Status) (res : Result) : (s.thenRespond st res).cfg = s.cfg := rfl
@[simp] theorem State.thenRespond_lockOwner (s : State) (st : Status) (res : Result) : (s.thenRespond st res).lockOwner = s.lockOwner := rfl
@[simp] theorem State.thenRespond_eng (s : State) (st : Status) (res : Result) : (s.thenRespond st res).eng = s.eng := rfl
@[simp] theorem State.thenRespond_desc (s : State) (st : Status) (res : Result) : (s.thenRespond st res).desc = s.desc := rfl
@[simp] theorem State.thenRespond_pwmState (s : State) (st : Status) (res : Result) : (s.thenRespond st res).pwmState = s.pwmState := rfl
@[simp] theorem State.thenRespond_pwmAddr (s : State) (st : Status) (res : Result) : (s.thenRespond st res).pwmAddr = s.pwmAddr := rfl
@[simp] theorem State.thenRespond_pwmPrescale (s : State) (st : Status) (res : Result) : (s.thenRespond st res).pwmPrescale = s.pwmPrescale := rfl
@[simp] theorem State.thenRespond_initStep (s : State) (st : Status) (res : Result) : (s.thenRespond st res).initStep = s.initStep := rfl
@[simp] theorem State.thenRespond_initTx (s : State) (st : Status) (res : Result) : (s.thenRespond st res).initTx = s.initTx := rfl
@[simp] theorem State.thenRespond_cache (s : State) (st : Status) (res : Result) : (s.thenRespond st res).cache = s.cache := rfl
@[simp] theorem State.thenRespond_dirty (s : State) (st : Status) (res : Result) : (s.thenRespond st res).dirty = s.dirty := rfl
@[simp] theorem State.thenRespond_wake (s : State) (st : Status) (res : Result) : (s.thenRespond st res).wake = s.wake := rfl
@[simp] theorem State.thenRespond_wk (s : State) (st : Status) (res : Result) : (s.thenRespond st res).wk = s.wk := rfl
@[simp] theorem State.thenRespond_clients (s : State) (st : Status) (res : Result) : (s.thenRespond st res).clients = s.clients.modify s.env.cur (fun c => { c with phase := .respond ⟨st, res⟩ }) := rfl
@[simp] theorem State.thenRespond_trace (s : State) (st : Status) (res : Result) : (s.thenRespond st res).trace = s.trace := rfl
@[simp] theorem State.thenRespond_flog (s : State) (st : Status) (res : Result) : (s.thenRespond st res).flog = s.flog := rfl
@[simp] theorem State.thenRespond_env (s : State) (st : Status) (res : Result) : (s.thenRespond st res).env = s.env := rfl

/-! ### `State.raise` -/

@[simp] theorem State.raise_busInit (s : State) (st : Status) : (s.raise st).busInit = s.busInit := rfl
@[simp] theorem State.raise_cfg (s : State) (st : Status) : (s.raise st).cfg = s.cfg := rfl
@[simp] theorem State.raise_lockOwner (s : State) (st : Status) : (s.raise st).lockOwner = s.lockOwner := rfl
@[simp] theorem State.raise_eng (s : State) (st : Status) : (s.raise st).eng = s.eng := rfl
@[simp] theorem State.raise_desc (s : State) (st : Status) : (s.raise st).desc = s.desc := rfl
@[simp] theorem State.raise_pwmState (s : State) (st : Status) : (s.raise st).pwmState = s.pwmState := rfl
@[simp] theorem State.raise_pwmAddr (s : State) (st : Status) : (s.raise st).pwmAddr = s.pwmAddr := rfl
@[simp] theorem State.raise_pwmPrescale (s : State) (st : Status) : (s.raise st).pwmPrescale = s.pwmPrescale := rfl
@[simp] theorem State.raise_initStep (s : State) (st : Status) : (s.raise st).initStep = s.initStep := rfl
@[simp] theorem State.raise_initTx (s : State) (st : Status) : (s.raise st).initTx = s.initTx := rfl
@[simp] theorem State.raise_cache (s : State) (st : Status) : (s.raise st).cache = s.cache := rfl
@[simp] theorem State.raise_dirty (s : State) (st : Status) : (s.raise st).dirty = s.dirty := rfl
@[simp] theorem State.raise_wake (s : State) (st : Status) : (s.raise st).wake = s.wake := rfl
@[simp] theorem State.raise_wk (s : State) (st : Status) : (s.raise st).wk = s.wk := rfl
@[simp] theorem State.raise_clients (s : State) (st : Status) : (s.raise st).clients = s.clients.modify s.env.cur (fun _ => Client.answered ⟨st, .none⟩) := rfl
@[simp] theorem State.raise_trace (s : State) (st : Status) : (s.raise st).trace = s.trace := rfl
@[simp] theorem State.raise_flog (s : State) (st : Status) : (s.raise st).flog = s.flog := rfl
@[simp] theorem State.raise_env (s : State) (st : Status) : (s.raise st).env = s.env := rfl

/-! ### `State.callTransact` -/

@[simp] theorem State.callTransact_busInit (s : State) (segs : List Segment) (dflt : Addr7) : (s.callTransact segs dflt).busInit = s.busInit := rfl
@[simp] theorem State.callTransact_cfg (s : State) (segs : List Segment) (dflt : Addr7) : (s.callTransact segs dflt).cfg = s.cfg := rfl
@[simp] theorem State.callTransact_lockOwner (s : State) (segs : List Segment) (dflt : Addr7) : (s.callTransact segs dflt).lockOwner = s.lockOwner := rfl
@[simp] theorem State.callTransact_eng (s : State) (segs : List Segment) (dflt : Addr7) : (s.callTransact segs dflt).eng = s.eng := rfl
@[simp] theorem State.callTransact_desc (s : State) (segs : List Segment) (dflt : Addr7) : (s.callTransact segs dflt).desc = s.desc := rfl
@[simp] theorem State.callTransact_pwmState (s : State) (segs : List Segment) (dflt : Addr7) : (s.callTransact segs dflt).pwmState = s.pwmState := rfl
@[simp] theorem State.callTransact_pwmAddr (s : State) (segs : List Segment) (dflt : Addr7) : (s.callTransact segs dflt).pwmAddr = s.pwmAddr := rfl
@[simp] theorem State.callTransact_pwmPrescale (s : State) (segs : List Segment) (dflt : Addr7) : (s.callTransact segs dflt).pwmPrescale = s.pwmPrescale := rfl
@[simp] theorem State.callTransact_initStep (s : State) (segs : List Segment) (dflt : Addr7) : (s.callTransact segs dflt).initStep = s.initStep := rfl
@[simp] theorem State.callTransact_initTx (s : State) (segs : List Segment) (dflt : Addr7) : (s.callTransact segs dflt).initTx = s.initTx := rfl
@[simp] theorem State.callTransact_cache (s : State) (segs : List Segment) (dflt : Addr7) : (s.callTransact segs dflt).cache = s.cache := rfl
@[simp] theorem State.callTransact_dirty (s : State) (segs : List Segment) (dflt : Addr7) : (s.callTransact segs dflt).dirty = s.dirty := rfl
@[simp] theorem State.callTransact_wake (s : State) (segs : List Segment) (dflt : Addr7) : (s.callTransact segs dflt).wake = s.wake := rfl
@[simp] theorem State.callTransact_wk (s : State) (segs : List Segment) (dflt : Addr7) : (s.callTransact segs dflt).wk = s.wk := rfl
@[simp] theorem State.callTransact_clients (s : State) (segs : List Segment) (dflt : Addr7) : (s.callTransact segs dflt).clients = s.clients.modify s.env.cur (fun c => { c with phase := .bus, tx := .waiting segs dflt }) := rfl
@[simp] theorem State.callTransact_trace (s : State) (segs : List Segment) (dflt : Addr7) : (s.callTransact segs dflt).trace = s.trace := rfl
@[simp] theorem State.callTransact_flog (s : State) (segs : List Segment) (dflt : Addr7) : (s.callTransact segs dflt).flog = s.flog := rfl
@[simp] theorem State.callTransact_env (s : State) (segs : List Segment) (dflt : Addr7) : (s.callTransact segs dflt).env = s.env := rfl

/-! ### `State.issue` -/

@[simp] theorem State.issue_busInit (s : State) (j : Nat) (cmd : Command) : (s.issue j cmd).busInit = s.busInit := rfl
@[simp] theorem State.issue_cfg (s : State) (j : Nat) (cmd : Command) : (s.issue j cmd).cfg = s.cfg := rfl
@[simp] theorem State.issue_lockOwner (s : State) (j : Nat) (cmd : Command) : (s.issue j cmd).lockOwner = s.lockOwner := rfl
@[simp] theorem State.issue_eng (s : State) (j : Nat) (cmd : Command) : (s.issue j cmd).eng = s.eng := rfl
@[simp] theorem State.issue_desc (s : State) (j : Nat) (cmd : Command) : (s.issue j cmd).desc = s.desc := rfl
@[simp] theorem State.issue_pwmState (s : State) (j : Nat) (cmd : Command) : (s.issue j cmd).pwmState = s.pwmState := rfl
@[simp] theorem State.issue_pwmAddr (s : State) (j : Nat) (cmd : Command) : (s.issue j cmd).pwmAddr = s.pwmAddr := rfl
@[simp] theorem State.issue_pwmPrescale (s : State) (j : Nat) (cmd : Command) : (s.issue j cmd).pwmPrescale = s.pwmPrescale := rfl
@[simp] theorem State.issue_initStep (s : State) (j : Nat) (cmd : Command) : (s.issue j cmd).initStep = s.initStep := rfl
@[simp] theorem State.issue_initTx (s : State) (j : Nat) (cmd : Command) : (s.issue j cmd).initTx = s.initTx := rfl
@[simp] theorem State.issue_cache (s : State) (j : Nat) (cmd : Command) : (s.issue j cmd).cache = s.cache := rfl
@[simp] theorem State.issue_dirty (s : State) (j : Nat) (cmd : Command) : (s.issue j cmd).dirty = s.dirty := rfl
@[simp] theorem State.issue_wake (s : State) (j : Nat) (cmd : Command) : (s.issue j cmd).wake = s.wake := rfl
@[simp] theorem State.issue_wk (s : State) (j : Nat) (cmd : Command) : (s.issue j cmd).wk = s.wk := rfl
@[simp] theorem State.issue_clients (s : State) (j : Nat) (cmd : Command) : (s.issue j cmd).clients = s.clients.modify j (fun c => c.accept cmd) := rfl
@[simp] theorem State.issue_trace (s : State) (j : Nat) (cmd : Command) : (s.issue j cmd).trace = s.trace := rfl
@[simp] theorem State.issue_flog (s : State) (j : Nat) (cmd : Command) : (s.issue j cmd).flog = s.flog := rfl
@[simp] theorem State.issue_env (s : State) (j : Nat) (cmd : Command) : (s.issue j cmd).env = s.env := rfl

/-! ### `State.emit` -/

@[simp] theorem State.emit_busInit (s : State) (e : Event) : (s.emit e).busInit = s.busInit := rfl
@[simp] theorem State.emit_cfg (s : State) (e : Event) : (s.emit e).cfg = s.cfg := rfl
@[simp] theorem State.emit_lockOwner (s : State) (e : Event) : (s.emit e).lockOwner = s.lockOwner := rfl
@[simp] theorem State.emit_eng (s : State) (e : Event) : (s.emit e).eng = s.eng := rfl
@[simp] theorem State.emit_desc (s : State) (e : Event) : (s.emit e).desc = s.desc := rfl
@[simp] theorem State.emit_pwmState (s : State) (e : Event) : (s.emit e).pwmState = s.pwmState := rfl
@[simp] theorem State.emit_pwmAddr (s : State) (e : Event) : (s.emit e).pwmAddr = s.pwmAddr := rfl
@[simp] theorem State.emit_pwmPrescale (s : State) (e : Event) : (s.emit e).pwmPrescale = s.pwmPrescale := rfl
@[simp] theorem State.emit_initStep (s : State) (e : Event) : (s.emit e).initStep = s.initStep := rfl
@[simp] theorem State.emit_initTx (s : State) (e : Event) : (s.emit e).initTx = s.initTx := rfl
@[simp] theorem State.emit_cache (s : State) (e : Event) : (s.emit e).cache = s.cache := rfl
@[simp] theorem State.emit_dirty (s : State) (e : Event) : (s.emit e).dirty = s.dirty := rfl
@[simp] theorem State.emit_wake (s : State) (e : Event) : (s.emit e).wake = s.wake := rfl
@[simp] theorem State.emit_wk (s : State) (e : Event) : (s.emit e).wk = s.wk := rfl
@[simp] theorem State.emit_clients (s : State) (e : Event) : (s.emit e).clients = s.clients := rfl
@[simp] theorem State.emit_trace (s : State) (e : Event) : (s.emit e).trace = s.trace ++ [e] := rfl
@[simp] theorem State.emit_flog (s : State) (e : Event) : (s.emit e).flog = s.flog := rfl
@[simp] theorem State.emit_env (s : State) (e : Event) : (s.emit e).env = s.env := rfl

/-! ### `State.logFault` -/

@[simp] theorem State.logFault_busInit (s : State) (c : Nat) (st : Status) : (s.logFault c st).busInit = s.busInit := rfl
@[simp] theorem State.logFault_cfg (s : State) (c : Nat) (st : Status) : (s.logFault c st).cfg = s.cfg := rfl
@[simp] theorem State.logFault_lockOwner (s : State) (c : Nat) (st : Status) : (s.logFault c st).lockOwner = s.lockOwner := rfl
@[simp] theorem State.logFault_eng (s : State) (c : Nat) (st : Status) : (s.logFault c st).eng = s.eng := rfl
@[simp] theorem State.logFault_desc (s : State) (c : Nat) (st : Status) : (s.logFault c st).desc = s.desc := rfl
@[simp] theorem State.logFault_pwmState (s : State) (c : Nat) (st : Status) : (s.logFault c st).pwmState = s.pwmState := rfl
@[simp] theorem State.logFault_pwmAddr (s : State) (c : Nat) (st : Status) : (s.logFault c st).pwmAddr = s.pwmAddr := rfl
@[simp] theorem State.logFault_pwmPrescale (s : State) (c : Nat) (st : Status) : (s.logFault c st).pwmPrescale = s.pwmPrescale := rfl
@[simp] theorem State.logFault_initStep (s : State) (c : Nat) (st : Status) : (s.logFault c st).initStep = s.initStep := rfl
@[simp] theorem State.logFault_initTx (s : State) (c : Nat) (st : Status) : (s.logFault c st).initTx = s.initTx := rfl
@[simp] theorem State.logFault_cache (s : State) (c : Nat) (st : Status) : (s.logFault c st).cache = s.cache := rfl
@[simp] theorem State.logFault_dirty (s : State) (c : Nat) (st : Status) : (s.logFault c st).dirty = s.dirty := rfl
@[simp] theorem State.logFault_wake (s : State) (c : Nat) (st : Status) : (s.logFault c st).wake = s.wake := rfl
@[simp] theorem State.logFault_wk (s : State) (c : Nat) (st : Status) : (s.logFault c st).wk = s.wk := rfl
@[simp] theorem State.logFault_clients (s : State) (c : Nat) (st : Status) : (s.logFault c st).clients = s.clients := rfl
@[simp] theorem State.logFault_trace (s : State) (c : Nat) (st : Status) : (s.logFault c st).trace = s.trace := rfl
@[simp] theorem State.logFault_flog (s : State) (c : Nat) (st : Status) : (s.logFault c st).flog = s.flog ++ [⟨c, st⟩] := rfl
@[simp] theorem State.logFault_env (s : State) (c : Nat) (st : Status) : (s.logFault c st).env = s.env := rfl

/-! ### `State.post` -/

@[simp] theorem State.post_busInit (s : State) : s.post.busInit = s.busInit := rfl
@[simp] theorem State.post_cfg (s : State) : s.post.cfg = s.cfg := rfl
@[simp] theorem State.post_lockOwner (s : State) : s.post.lockOwner = s.lockOwner := rfl
@[simp] theorem State.post_eng (s : State) : s.post.eng = s.eng := rfl
@[simp] theorem State.post_desc (s : State) : s.post.desc = s.desc := rfl
@[simp] theorem State.post_pwmState (s : State) : s.post.pwmState = s.pwmState := rfl
@[simp] theorem State.post_pwmAddr (s : State) : s.post.pwmAddr = s.pwmAddr := rfl
@[simp] theorem State.post_pwmPrescale (s : State) : s.post.pwmPrescale = s.pwmPrescale := rfl
@[simp] theorem State.post_initStep (s : State) : s.post.initStep = s.initStep := rfl
@[simp] theorem State.post_initTx (s : State) : s.post.initTx = s.initTx := rfl
@[simp] theorem State.post_cache (s : State) : s.post.cache = s.cache := rfl
@[simp] theorem State.post_dirty (s : State) : s.post.dirty = s.dirty := rfl
@[simp] theorem State.post_wake (s : State) : s.post.wake = s.wake + 1 := rfl
@[simp] theorem State.post_wk (s : State) : s.post.wk = s.wk := rfl
@[simp] theorem State.post_clients (s : State) : s.post.clients = s.clients := rfl
@[simp] theorem State.post_trace (s : State) : s.post.trace = s.trace := rfl
@[simp] theorem State.post_flog (s : State) : s.post.flog = s.flog := rfl
@[simp] theorem State.post_env (s : State) : s.post.env = s.env := rfl

/-! ### `State.setDesc` -/

@[simp] theorem State.setDesc_busInit (s : State) (n : Nat) (d : Desc) : (s.setDesc n d).busInit = s.busInit := rfl
@[simp] theorem State.setDesc_cfg (s : State) (n : Nat) (d : Desc) : (s.setDesc n d).cfg = s.cfg := rfl
@[simp] theorem State.setDesc_lockOwner (s : State) (n : Nat) (d : Desc) : (s.setDesc n d).lockOwner = s.lockOwner := rfl
@[simp] theorem State.setDesc_eng (s : State) (n : Nat) (d : Desc) : (s.setDesc n d).eng = s.eng := rfl
@[simp] theorem State.setDesc_desc (s : State) (n : Nat) (d : Desc) : (s.setDesc n d).desc = s.desc.set n d := rfl
@[simp] theorem State.setDesc_pwmState (s : State) (n : Nat) (d : Desc) : (s.setDesc n d).pwmState = s.pwmState := rfl
@[simp] theorem State.setDesc_pwmAddr (s : State) (n : Nat) (d : Desc) : (s.setDesc n d).pwmAddr = s.pwmAddr := rfl
@[simp] theorem State.setDesc_pwmPrescale (s : State) (n : Nat) (d : Desc) : (s.setDesc n d).pwmPrescale = s.pwmPrescale := rfl
@[simp] theorem State.setDesc_initStep (s : State) (n : Nat) (d : Desc) : (s.setDesc n d).initStep = s.initStep := rfl
@[simp] theorem State.setDesc_initTx (s : State) (n : Nat) (d : Desc) : (s.setDesc n d).initTx = s.initTx := rfl
@[simp] theorem State.setDesc_cache (s : State) (n : Nat) (d : Desc) : (s.setDesc n d).cache = s.cache := rfl
@[simp] theorem State.setDesc_dirty (s : State) (n : Nat) (d : Desc) : (s.setDesc n d).dirty = s.dirty := rfl
@[simp] theorem State.setDesc_wake (s : State) (n : Nat) (d : Desc) : (s.setDesc n d).wake = s.wake := rfl
@[simp] theorem State.setDesc_wk (s : State) (n : Nat) (d : Desc) : (s.setDesc n d).wk = s.wk := rfl
@[simp] theorem State.setDesc_clients (s : State) (n : Nat) (d : Desc) : (s.setDesc n d).clients = s.clients := rfl
@[simp] theorem State.setDesc_trace (s : State) (n : Nat) (d : Desc) : (s.setDesc n d).trace = s.trace := rfl
@[simp] theorem State.setDesc_flog (s : State) (n : Nat) (d : Desc) : (s.setDesc n d).flog = s.flog := rfl
@[simp] theorem State.setDesc_env (s : State) (n : Nat) (d : Desc) : (s.setDesc n d).env = s.env := rfl

/-! ### `State.storeDuty` -/

@[simp] theorem State.storeDuty_busInit (s : State) (c : Fin 16) (v : Nat) : (s.storeDuty c v).busInit = s.busInit := rfl
@[simp] theorem State.storeDuty_cfg (s : State) (c : Fin 16) (v : Nat) : (s.storeDuty c v).cfg = s.cfg := rfl
@[simp] theorem State.storeDuty_lockOwner (s : State) (c : Fin 16) (v : Nat) : (s.storeDuty c v).lockOwner = s.lockOwner := rfl
@[simp] theorem State.storeDuty_eng (s : State) (c : Fin 16) (v : Nat) : (s.storeDuty c v).eng = s.eng := rfl
@[simp] theorem State.storeDuty_desc (s : State) (c : Fin 16) (v : Nat) : (s.storeDuty c v).desc = s.desc := rfl
@[simp] theorem State.storeDuty_pwmState (s : State) (c : Fin 16) (v : Nat) : (s.storeDuty c v).pwmState = s.pwmState := rfl
@[simp] theorem State.storeDuty_pwmAddr (s : State) (c : Fin 16) (v : Nat) : (s.storeDuty c v).pwmAddr = s.pwmAddr := rfl
@[simp] theorem State.storeDuty_pwmPrescale (s : State) (c : Fin 16) (v : Nat) : (s.storeDuty c v).pwmPrescale = s.pwmPrescale := rfl
@[simp] theorem State.storeDuty_initStep (s : State) (c : Fin 16) (v : Nat) : (s.storeDuty c v).initStep = s.initStep := rfl
@[simp] theorem State.storeDuty_initTx (s : State) (c : Fin 16) (v : Nat) : (s.storeDuty c v).initTx = s.initTx := rfl
@[simp] theorem State.storeDuty_cache (s : State) (c : Fin 16) (v : Nat) : (s.storeDuty c v).cache = s.cache.set c v := rfl
@[simp] theorem State.storeDuty_dirty (s : State) (c : Fin 16) (v : Nat) : (s.storeDuty c v).dirty = s.dirty ||| channelBit c.val := rfl
@[simp] theorem State.storeDuty_wake (s : State) (c : Fin 16) (v : Nat) : (s.storeDuty c v).wake = s.wake := rfl
@[simp] theorem State.storeDuty_wk (s : State) (c : Fin 16) (v : Nat) : (s.storeDuty c v).wk = s.wk := rfl
@[simp] theorem State.storeDuty_clients (s : State) (c : Fin 16) (v : Nat) : (s.storeDuty c v).clients = s.clients := rfl
@[simp] theorem State.storeDuty_trace (s : State) (c : Fin 16) (v : Nat) : (s.storeDuty c v).trace = s.trace := rfl
@[simp] theorem State.storeDuty_flog (s : State) (c : Fin 16) (v : Nat) : (s.storeDuty c v).flog = s.flog := rfl
@[simp] theorem State.storeDuty_env (s : State) (c : Fin 16) (v : Nat) : (s.storeDuty c v).env = s.env := rfl

/-! ### `State.beginInit` -/

@[simp] theorem State.beginInit_busInit (s : State) (k : Nat) : (s.beginInit k).busInit = s.busInit := rfl
@[simp] theorem State.beginInit_cfg (s : State) (k : Nat) : (s.beginInit k).cfg = s.cfg := rfl
@[simp] theorem State.beginInit_lockOwner (s : State) (k : Nat) : (s.beginInit k).lockOwner = s.lockOwner := rfl
@[simp] theorem State.beginInit_eng (s : State) (k : Nat) : (s.beginInit k).eng = s.eng := rfl
@[simp] theorem State.beginInit_desc (s : State) (k : Nat) : (s.beginInit k).desc = s.desc := rfl
@[simp] theorem State.beginInit_pwmState (s : State) (k : Nat) : (s.beginInit k).pwmState = s.pwmState := rfl
@[simp] theorem State.beginInit_pwmAddr (s : State) (k : Nat) : (s.beginInit k).pwmAddr = s.pwmAddr := rfl
@[simp] theorem State.beginInit_pwmPrescale (s : State) (k : Nat) : (s.beginInit k).pwmPrescale = s.pwmPrescale := rfl
@[simp] theorem State.beginInit_initStep (s : State) (k : Nat) : (s.beginInit k).initStep = k := rfl
@[simp] theorem State.beginInit_initTx (s : State) (k : Nat) : (s.beginInit k).initTx = .waiting (initSegs k s.pwmPrescale) s.pwmAddr := rfl
@[simp] theorem State.beginInit_cache (s : State) (k : Nat) : (s.beginInit k).cache = s.cache := rfl
@[simp] theorem State.beginInit_dirty (s : State) (k : Nat) : (s.beginInit k).dirty = s.dirty := rfl
@[simp] theorem State.beginInit_wake (s : State) (k : Nat) : (s.beginInit k).wake = s.wake := rfl
@[simp] theorem State.beginInit_wk (s : State) (k : Nat) : (s.beginInit k).wk = s.wk := rfl
@[simp] theorem State.beginInit_clients (s : State) (k : Nat) : (s.beginInit k).clients = s.clients := rfl
@[simp] theorem State.beginInit_trace (s : State) (k : Nat) : (s.beginInit k).trace = s.trace := rfl
@[simp] theorem State.beginInit_flog (s : State) (k : Nat) : (s.beginInit k).flog = s.flog := rfl
@[simp] theorem State.beginInit_env (s : State) (k : Nat) : (s.beginInit k).env = s.env := rfl

/-! ### `State.afterMove` -/

@[simp] theorem State.afterMove_busInit (s : State) : s.afterMove.busInit = s.busInit := by
  unfold State.afterMove
  split <;> rfl
@[simp] theorem State.afterMove_cfg (s : State) : s.afterMove.cfg = s.cfg := by
  unfold State.afterMove
  split <;> rfl
@[simp] theorem State.afterMove_lockOwner (s : State) : s.afterMove.lockOwner = s.lockOwner := by
  unfold State.afterMove
  split <;> rfl
@[simp] theorem State.afterMove_eng (s : State) : s.afterMove.eng = s.eng := by
  unfold State.afterMove
  split <;> rfl
@[simp] theorem State.afterMove_desc (s : State) : s.afterMove.desc = s.desc := by
  unfold State.afterMove
  split <;> rfl
@[simp] theorem State.afterMove_pwmState (s : State) : s.afterMove.pwmState = s.pwmState := by
  unfold State.afterMove
  split <;> rfl
@[simp] theorem State.afterMove_pwmAddr (s : State) : s.afterMove.pwmAddr = s.pwmAddr := by
  unfold State.afterMove
  split <;> rfl
@[simp] theorem State.afterMove_pwmPrescale (s : State) : s.afterMove.pwmPrescale = s.pwmPrescale := by
  unfold State.afterMove
  split <;> rfl
@[simp] theorem State.afterMove_initStep (s : State) : s.afterMove.initStep = s.initStep := by
  unfold State.afterMove
  split <;> rfl
@[simp] theorem State.afterMove_initTx (s : State) : s.afterMove.initTx = s.initTx := by
  unfold State.afterMove
  split <;> rfl
@[simp] theorem State.afterMove_cache (s : State) : s.afterMove.cache = s.cache := by
  unfold State.afterMove
  split <;> rfl
@[simp] theorem State.afterMove_dirty (s : State) : s.afterMove.dirty = s.dirty := by
  unfold State.afterMove
  split <;> rfl
@[simp] theorem State.afterMove_wake (s : State) : s.afterMove.wake = s.wake := by
  unfold State.afterMove
  split <;> rfl
@[simp] theorem State.afterMove_wk (s : State) : s.afterMove.wk = s.wk := by
  unfold State.afterMove
  split <;> rfl
@[simp] theorem State.afterMove_clients (s : State) : s.afterMove.clients = s.clients := by
  unfold State.afterMove
  split <;> rfl
@[simp] theorem State.afterMove_trace (s : State) : s.afterMove.trace = s.trace := by
  unfold State.afterMove
  split <;> rfl
@[simp] theorem State.afterMove_flog (s : State) : s.afterMove.flog = s.flog := by
  unfold State.afterMove
  split <;> rfl

/-! ### `State.afterReply` -/

@[simp] theorem State.afterReply_busInit (s : State) : s.afterReply.busInit = s.busInit := by
  unfold State.afterReply
  split <;> rfl
@[simp] theorem State.afterReply_cfg (s : State) : s.afterReply.cfg = s.cfg := by
  unfold State.afterReply
  split <;> rfl
@[simp] theorem State.afterReply_lockOwner (s : State) : s.afterReply.lockOwner = s.lockOwner := by
  unfold State.afterReply
  split <;> rfl
@[simp] theorem State.afterReply_eng (s : State) : s.afterReply.eng = s.eng := by
  unfold State.afterReply
  split <;> rfl
@[simp] theorem State.afterReply_desc (s : State) : s.afterReply.desc = s.desc := by
  unfold State.afterReply
  split <;> rfl
@[simp] theorem State.afterReply_pwmState (s : State) : s.afterReply.pwmState = s.pwmState := by
  unfold State.afterReply
  split <;> rfl
@[simp] theorem State.afterReply_pwmAddr (s : State) : s.afterReply.pwmAddr = s.pwmAddr := by
  unfold State.afterReply
  split <;> rfl
@[simp] theorem State.afterReply_pwmPrescale (s : State) : s.afterReply.pwmPrescale = s.pwmPrescale := by
  unfold State.afterReply
  split <;> rfl
@[simp] theorem State.afterReply_initStep (s : State) : s.afterReply.initStep = s.initStep := by
  unfold State.afterReply
  split <;> rfl
@[simp] theorem State.afterReply_initTx (s : State) : s.afterReply.initTx = s.initTx := by
  unfold State.afterReply
  split <;> rfl
@[simp] theorem State.afterReply_cache (s : State) : s.afterReply.cache = s.cache := by
  unfold State.afterReply
  split <;> rfl
@[simp] theorem State.afterReply_dirty (s : State) : s.afterReply.dirty = s.dirty := by
  unfold State.afterReply
  split <;> rfl
@[simp] theorem State.afterReply_wake (s : State) : s.afterReply.wake = s.wake := by
  unfold State.afterReply
  split <;> rfl
@[simp] theorem State.afterReply_wk (s : State) : s.afterReply.wk = s.wk := by
  unfold State.afterReply
  split <;> rfl
@[simp] theorem State.afterReply_clients (s : State) : s.afterReply.clients = s.clients := by
  unfold State.afterReply
  split <;> rfl
@[simp] theorem State.afterReply_trace (s : State) : s.afterReply.trace = s.trace := by
  unfold State.afterReply
  split <;> rfl
@[simp] theorem State.afterReply_flog (s : State) : s.afterReply.flog = s.flog := by
  unfold State.afterReply
  split <;> rfl

/-! ### `State.setTx` -/

@[simp] theorem State.setTx_busInit (s : State) (r : Requester) (t : Transact) : (s.setTx r t).busInit = s.busInit := by cases r <;> rfl
@[simp] theorem State.setTx_cfg (s : State) (r : Requester) (t : Transact) : (s.setTx r t).cfg = s.cfg := by cases r <;> rfl
@[simp] theorem State.setTx_lockOwner (s : State) (r : Requester) (t : Transact) : (s.setTx r t).lockOwner = s.lockOwner := by cases r <;> rfl
@[simp] theorem State.setTx_eng (s : State) (r : Requester) (t : Transact) : (s.setTx r t).eng = s.eng := by cases r <;> rfl
@[simp] theorem State.setTx_desc (s : State) (r : Requester) (t : Transact) : (s.setTx r t).desc = s.desc := by cases r <;> rfl
@[simp] theorem State.setTx_pwmState (s : State) (r : Requester) (t : Transact) : (s.setTx r t).pwmState = s.pwmState := by cases r <;> rfl
@[simp] theorem State.setTx_pwmAddr (s : State) (r : Requester) (t : Transact) : (s.setTx r t).pwmAddr = s.pwmAddr := by cases r <;> rfl
@[simp] theorem State.setTx_pwmPrescale (s : State) (r : Requester) (t : Transact) : (s.setTx r t).pwmPrescale = s.pwmPrescale := by cases r <;> rfl
@[simp] theorem State.setTx_initStep (s : State) (r : Requester) (t : Transact) : (s.setTx r t).initStep = s.initStep := by cases r <;> rfl
@[simp] theorem State.setTx_cache (s : State) (r : Requester) (t : Transact) : (s.setTx r t).cache = s.cache := by cases r <;> rfl
@[simp] theorem State.setTx_dirty (s : State) (r : Requester) (t : Transact) : (s.setTx r t).dirty = s.dirty := by cases r <;> rfl
@[simp] theorem State.setTx_wake (s : State) (r : Requester) (t : Transact) : (s.setTx r t).wake = s.wake := by cases r <;> rfl
@[simp] theorem State.setTx_trace (s : State) (r : Requester) (t : Transact) : (s.setTx r t).trace = s.trace := by cases r <;> rfl
@[simp] theorem State.setTx_flog (s : State) (r : Requester) (t : Transact) : (s.setTx r t).flog = s.flog := by cases r <;> rfl
@[simp] theorem State.setTx_env (s : State) (r : Requester) (t : Transact) : (s.setTx r t).env = s.env := by cases r <;> rfl

/-! ### The requester's progress and the environment -/

@[simp] theorem State.setTx_init_initTx (s : State) (t : Transact) : (s.setTx .init t).initTx = t := rfl
@[simp] theorem State.setTx_init_wk (s : State) (t : Transact) : (s.setTx .init t).wk = s.wk := rfl
@[simp] theorem State.setTx_init_clients (s : State) (t : Transact) : (s.setTx .init t).clients = s.clients := rfl
@[simp] theorem State.setTx_worker_initTx (s : State) (t : Transact) : (s.setTx .worker t).initTx = s.initTx := rfl
@[simp] theorem State.setTx_worker_wk (s : State) (t : Transact) : (s.setTx .worker t).wk = { s.wk with tx := t } := rfl
@[simp] theorem State.setTx_worker_clients (s : State) (t : Transact) : (s.setTx .worker t).clients = s.clients := rfl
@[simp] theorem State.setTx_client_initTx (s : State) (j : Nat) (t : Transact) :
    (s.setTx (.client j) t).initTx = s.initTx := rfl
@[simp] theorem State.setTx_client_wk (s : State) (j : Nat) (t : Transact) : (s.setTx (.client j) t).wk = s.wk := rfl
@[simp] theorem State.setTx_client_clients (s : State) (j : Nat) (t : Transact) :
    (s.setTx (.client j) t).clients = s.clients.modify j (fun c => { c with tx := t }) := rfl

@[simp] theorem State.afterMove_cur (s : State) : s.afterMove.env.cur = s.env.cur := by
  unfold State.afterMove
  split <;> rfl
@[simp] theorem State.afterMove_replies (s : State) : s.afterMove.env.replies = s.env.replies := by
  unfold State.afterMove
  split <;> rfl
@[simp] theorem State.afterReply_cur (s : State) : s.afterReply.env.cur = s.env.cur := by
  unfold State.afterReply
  split <;> rfl
@[simp] theorem State.afterReply_sched (s : State) : s.afterReply.env.sched = s.env.sched := by
  unfold State.afterReply
  split <;> rfl

/-- A reply drawn from the list of replies shortens it by one. -/
theorem State.afterReply_replies_cons (s : State) (r : Reply) (rest : List Reply) (h : s.env.replies = r :: rest) :
    s.afterReply.env.replies = rest := by
  unfold State.afterReply
  rw [h]

/-- A reply is the head of the list of replies while there is one. -/
theorem State.reply_cons (s : State) (r : Reply) (rest : List Reply) (h : s.env.replies = r :: rest) : s.reply = r := by
  unfold State.reply
  rw [h]

end Sys2Proof.Machine
end

