-- ==== Sys2Proof/Laws/Ops.lean ====
section
/-! SUPPORT. What each shared operation can do, said once: the lock step, a step inside `Transact`, the engine, the worker,
the initialisation sequence. Provers cite these instead of unfolding the operations. -/

namespace Sys2Proof.Machine

/-! ## Clients and requesters -/

/-- A requester exists: INIT and WORKER always, a client when the list holds it. -/
def State.hasRequester (s : State) (r : Requester) : Prop :=
  match r with
  | .client j => j < s.clients.length
  | .init => True
  | .worker => True

/-- The progress of an existing client's call is the one its record holds. -/
theorem State.tx_client {s : State} {j : Nat} {c : Client} (h : s.clients[j]? = some c) :
    s.tx (.client j) = c.tx := by
  simp [State.tx, List.getD, h]

/-- A client that is not there has no call. -/
theorem State.tx_client_none {s : State} {j : Nat} (h : s.clients[j]? = none) : s.tx (.client j) = .idle := by
  simp [State.tx, List.getD, h, Client.fresh]

/-- A requester with a call exists. -/
theorem State.hasRequester_of_tx {s : State} {r : Requester} (h : s.tx r ≠ .idle) : s.hasRequester r := by
  cases r with
  | client j =>
    by_contra hn
    have hl : s.clients[j]? = none := List.getElem?_eq_none (Nat.le_of_not_lt hn)
    exact h (State.tx_client_none hl)
  | init => trivial
  | worker => trivial

/-- Setting a requester's progress is read back. -/
theorem State.tx_setTx_self {s : State} {r : Requester} (t : Transact) (h : s.hasRequester r) :
    (s.setTx r t).tx r = t := by
  cases r with
  | client j =>
    have hj : j < s.clients.length := h
    simp [State.tx, State.setTx, State.updClient, List.getD, List.getElem?_eq_getElem hj]
  | init => rfl
  | worker => rfl

/-- Setting one requester's progress leaves every other one's alone. -/
theorem State.tx_setTx_of_ne {s : State} {r q : Requester} (t : Transact) (h : q ≠ r) :
    (s.setTx r t).tx q = s.tx q := by
  cases r <;> cases q <;> first | exact absurd rfl h | rfl | skip
  rename_i j k
  have hjk : ¬ j = k := fun e => h (by rw [e])
  simp [State.tx, State.setTx, State.updClient, List.getD, hjk]

/-- The current client's record is the one `cur` names. -/
theorem State.curClient_eq {s : State} {c : Client} (h : s.clients[s.env.cur]? = some c) : s.curClient = c := by
  simp [State.curClient, List.getD, h]

/-- The current phase is the one the current client's record holds. -/
theorem State.phase_eq {s : State} {c : Client} (h : s.clients[s.env.cur]? = some c) : s.phase = c.phase := by
  simp [State.phase, State.curClient_eq h]

/-- An update of client `j` leaves every other client alone. -/
theorem State.updClient_of_ne (s : State) (f : Client → Client) {j k : Nat} (h : k ≠ j) :
    (s.updClient j f).clients[k]? = s.clients[k]? := by
  simp [Ne.symm h]

/-- An update of client `j` is read back. -/
theorem State.updClient_self {s : State} {j : Nat} {c : Client} (f : Client → Client) (h : s.clients[j]? = some c) :
    (s.updClient j f).clients[j]? = some (f c) := by
  simp [h]

/-! ## The lock step (R136) -/

/-- Everything a lock step can do. -/
theorem State.lockStep_cases (s : State) (r : Requester) (segs : List Segment) (dflt : Addr7) :
    (s.lockOwner = none ∧
      s.lockStep r segs dflt = { s with lockOwner := some r, eng := Engine.load segs dflt }.setTx r .running) ∨
    (s.lockOwner ≠ none ∧ s.reply.lock = .timeout ∧
      s.lockStep r segs dflt = s.afterReply.setTx r (.returned .busTimeout none)) ∨
    (s.lockOwner ≠ none ∧ s.reply.lock = .goOn ∧ s.lockStep r segs dflt = s.afterReply) := by
  unfold State.lockStep
  cases h : s.lockOwner with
  | none => exact .inl ⟨rfl, rfl⟩
  | some o =>
    cases hl : s.reply.lock with
    | timeout => exact .inr (.inl ⟨by simp, rfl, rfl⟩)
    | goOn => exact .inr (.inr ⟨by simp, rfl, rfl⟩)

/-- Everything a step of the current client inside `Transact` can do. -/
theorem State.clientTransactStep_cases (s : State) (finish : Status → Option (List Byte) → State) :
    (∃ segs dflt, s.tx (.client s.env.cur) = .waiting segs dflt ∧
      s.clientTransactStep finish = s.lockStep (.client s.env.cur) segs dflt) ∨
    (s.tx (.client s.env.cur) = .running ∧ s.clientTransactStep finish = s) ∨
    (∃ st rx, s.tx (.client s.env.cur) = .returned st rx ∧ s.clientTransactStep finish = finish st rx) ∨
    (s.tx (.client s.env.cur) = .idle ∧ s.clientTransactStep finish = s) := by
  unfold State.clientTransactStep
  cases h : s.tx (.client s.env.cur) with
  | idle => exact .inr (.inr (.inr ⟨rfl, rfl⟩))
  | waiting segs dflt => exact .inl ⟨segs, dflt, rfl, rfl⟩
  | running => exact .inr (.inl ⟨rfl, rfl⟩)
  | returned st rx => exact .inr (.inr (.inl ⟨st, rx, rfl, rfl⟩))

/-! ## The engine (R137 to R145) -/

/-- Everything an engine step can do. -/
theorem engineStep_cases (s : State) :
    engineStep s = s ∨
    (∃ r, s.lockOwner = some r ∧
      ((s.eng.phase = .begin ∧ engineStep s = engineBegin s) ∨
       (∃ seg, s.eng.phase = .addr ∧ s.curSeg = some seg ∧ engineStep s = engineAddr s seg) ∨
       (∃ seg d, s.eng.phase = .wdata ∧ s.curSeg = some seg ∧ seg.data[s.eng.i]? = some d ∧
         engineStep s = engineWData s seg d) ∨
       (∃ seg, s.eng.phase = .rdata ∧ s.curSeg = some seg ∧ engineStep s = engineRData s seg) ∨
       (s.eng.phase = .stop ∧ engineStep s = engineStop s r))) := by
  unfold engineStep
  cases ho : s.lockOwner with
  | none => exact .inl rfl
  | some r =>
    cases hp : s.eng.phase with
    | idle => exact .inl rfl
    | begin => exact .inr ⟨r, rfl, .inl ⟨rfl, rfl⟩⟩
    | addr =>
      cases hs : s.curSeg with
      | none => exact .inl rfl
      | some seg => exact .inr ⟨r, rfl, .inr (.inl ⟨seg, rfl, rfl, rfl⟩)⟩
    | wdata =>
      cases hs : s.curSeg with
      | none => exact .inl rfl
      | some seg =>
        cases hd : seg.data[s.eng.i]? with
        | none => exact .inl (by simp [hd])
        | some d => exact .inr ⟨r, rfl, .inr (.inr (.inl ⟨seg, d, rfl, rfl, hd, by simp [hd]⟩))⟩
    | rdata =>
      cases hs : s.curSeg with
      | none => exact .inl rfl
      | some seg => exact .inr ⟨r, rfl, .inr (.inr (.inr (.inl ⟨seg, rfl, rfl, rfl⟩)))⟩
    | stop => exact .inr ⟨r, rfl, .inr (.inr (.inr (.inr ⟨rfl, rfl⟩)))⟩

/-- `Next()` goes to BEGIN of the next segment or to STOP, and touches nothing but `eng_k` and `eng_phase`. -/
theorem Engine.next_cases (e : Engine) :
    (e.k + 1 < e.segs.length ∧ e.next = { e with k := e.k + 1, phase := .begin }) ∨
    (¬ e.k + 1 < e.segs.length ∧ e.next = { e with phase := .stop }) := by
  unfold Engine.next
  by_cases h : e.k + 1 < e.segs.length
  · exact .inl ⟨h, by simp [h]⟩
  · exact .inr ⟨h, by simp [h]⟩

/-- What the ADDR step makes of the engine registers. -/
theorem Engine.afterAddr_cases (e : Engine) (seg : Segment) (r : TargetAnswer) :
    (∃ st, addrFailure r = some st ∧ e.afterAddr seg r = e.fail st) ∨
    (r = .ack ∧ seg.dir = .read ∧ e.afterAddr seg r = { e with phase := .rdata }) ∨
    (r = .ack ∧ seg.dir = .write ∧ seg.len = 0#16 ∧ e.afterAddr seg r = e.next) ∨
    (r = .ack ∧ seg.dir = .write ∧ seg.len ≠ 0#16 ∧ e.afterAddr seg r = { e with phase := .wdata }) := by
  cases r with
  | ack =>
    cases hd : seg.dir with
    | read => exact .inr (.inl ⟨rfl, rfl, by simp [Engine.afterAddr, addrFailure, hd]⟩)
    | write =>
      by_cases hl : seg.len = 0#16
      · exact .inr (.inr (.inl ⟨rfl, rfl, hl, by simp [Engine.afterAddr, addrFailure, hd, hl]⟩))
      · exact .inr (.inr (.inr ⟨rfl, rfl, hl, by simp [Engine.afterAddr, addrFailure, hd, hl]⟩))
  | nack => exact .inl ⟨_, rfl, rfl⟩
  | stretchTo => exact .inl ⟨_, rfl, rfl⟩
  | timeout => exact .inl ⟨_, rfl, rfl⟩

/-- Counting a byte done moves on exactly at the last byte of the segment. -/
theorem Engine.byteDone_cases (e : Engine) (seg : Segment) :
    (e.i + 1 ≠ seg.len.toNat ∧ e.byteDone seg = { e with i := e.i + 1 }) ∨
    (e.i + 1 = seg.len.toNat ∧ e.k + 1 < e.segs.length ∧
      e.byteDone seg = { e with i := e.i + 1, k := e.k + 1, phase := .begin }) ∨
    (e.i + 1 = seg.len.toNat ∧ ¬ e.k + 1 < e.segs.length ∧
      e.byteDone seg = { e with i := e.i + 1, phase := .stop }) := by
  unfold Engine.byteDone
  by_cases h : e.i + 1 = seg.len.toNat
  · by_cases hk : e.k + 1 < e.segs.length
    · exact .inr (.inl ⟨h, hk, by simp [h, Engine.next, hk]⟩)
    · exact .inr (.inr ⟨h, hk, by simp [h, Engine.next, hk]⟩)
  · exact .inl ⟨h, by simp [h]⟩

/-! ## The dirty mask (R31) -/

/-- The lowest marked channel: 16 when none is marked from `c` on, otherwise a marked one with none marked below it. -/
theorem lowestFrom_spec (mask : BitVec 16) (c : Nat) :
    (lowestFrom mask c = 16 ∧ ∀ k, c ≤ k → k < 16 → mask.getLsbD k = false) ∨
    (lowestFrom mask c < 16 ∧ c ≤ lowestFrom mask c ∧ mask.getLsbD (lowestFrom mask c) = true ∧
      ∀ k, c ≤ k → k < lowestFrom mask c → mask.getLsbD k = false) := by
  unfold lowestFrom
  cases h : (List.range Config.pwmChannels).find? (fun i => decide (c ≤ i) && mask.getLsbD i) with
  | none =>
    refine .inl ⟨rfl, fun k hk hl => ?_⟩
    have hn := List.find?_eq_none.mp h k (List.mem_range.mpr hl)
    simpa [hk] using hn
  | some n =>
    obtain ⟨hp, as, bs, hl, hb⟩ := List.find?_eq_some_iff_append.mp h
    have hlen : as.length = n := by
      have hn : (List.range Config.pwmChannels)[as.length]? = some n := by rw [hl]; simp
      rw [List.getElem?_eq_some_iff] at hn
      obtain ⟨_, hn⟩ := hn
      simpa using hn
    have hlt : n < 16 := by
      have : n ∈ List.range Config.pwmChannels := by rw [hl]; simp
      exact List.mem_range.mp this
    simp only [Bool.and_eq_true, decide_eq_true_eq] at hp
    refine .inr ⟨hlt, hp.1, hp.2, fun k hk hkn => ?_⟩
    have hkn' : k < n := hkn
    have hm : k ∈ as := by
      have hg : (List.range Config.pwmChannels)[k]? = some k := by
        rw [List.getElem?_range]
        exact Nat.lt_trans hkn' hlt
      rw [hl, List.getElem?_append_left (by omega)] at hg
      exact List.mem_of_getElem? hg
    have := hb k hm
    simpa [hk] using this

/-- A mask that is not 0 has a marked channel. -/
theorem lowestFrom_zero_lt {mask : BitVec 16} (h : mask ≠ 0#16) :
    lowestFrom mask 0 < 16 ∧ mask.getLsbD (lowestFrom mask 0) = true := by
  rcases lowestFrom_spec mask 0 with ⟨_, hn⟩ | ⟨hl, _, hb, _⟩
  · refine absurd (BitVec.eq_of_getLsbD_eq fun k hk => ?_) h
    simpa using hn k (Nat.zero_le k) hk
  · exact ⟨hl, hb⟩

/-- The bit of channel `c` and no other. -/
theorem channelBit_getLsbD {c : Nat} (hc : c < 16) (k : Nat) : (channelBit c).getLsbD k = decide (k = c) := by
  unfold channelBit
  rw [BitVec.getLsbD_ofNat, Nat.testBit_two_pow]
  by_cases h : c = k
  · subst h
    simp [hc]
  · simp [h, Ne.symm h]

/-! ## The worker (R260 to R264) -/

/-- Everything a worker step can do. -/
theorem workerStep_cases (s : State) :
    workerStep s = s ∨
    (s.wk.phase = .idle ∧ 0 < s.wake ∧
      workerStep s = { s with wake := s.wake - 1, wk := { s.wk with phase := .capture } }) ∨
    (s.wk.phase = .capture ∧ workerStep s = workerCapture s) ∨
    (s.wk.phase = .flushing ∧ s.wk.ch < 16 ∧ s.wk.tx = .idle ∧ workerStep s = workerFrame s) ∨
    (∃ segs dflt, s.wk.phase = .flushing ∧ s.wk.ch < 16 ∧ s.wk.tx = .waiting segs dflt ∧
      workerStep s = s.lockStep .worker segs dflt) ∨
    (∃ st rx, s.wk.phase = .flushing ∧ s.wk.ch < 16 ∧ s.wk.tx = .returned st rx ∧ workerStep s = workerNext s st) ∨
    (s.wk.phase = .flushing ∧ ¬ s.wk.ch < 16 ∧ workerStep s = workerEndPass s) := by
  unfold workerStep
  cases hp : s.wk.phase with
  | idle =>
    by_cases hw : 0 < s.wake
    · exact .inr (.inl ⟨rfl, hw, by simp [workerWake, hw]⟩)
    · exact .inl (by simp [workerWake, hw])
  | capture => exact .inr (.inr (.inl ⟨rfl, rfl⟩))
  | flushing =>
    by_cases hc : s.wk.ch < 16
    · simp only [hc, if_true]
      unfold workerWrite
      cases ht : s.wk.tx with
      | idle => exact .inr (.inr (.inr (.inl ⟨trivial, trivial, rfl, rfl⟩)))
      | waiting segs dflt => exact .inr (.inr (.inr (.inr (.inl ⟨segs, dflt, trivial, trivial, rfl, rfl⟩))))
      | running => exact .inl rfl
      | returned st rx => exact .inr (.inr (.inr (.inr (.inr (.inl ⟨st, rx, trivial, trivial, rfl, rfl⟩)))))
    · exact .inr (.inr (.inr (.inr (.inr (.inr ⟨rfl, hc, by simp [hc]⟩)))))

/-! ## The initialisation sequence (R241 to R248) -/

/-- Everything a step of the sequence can do. -/
theorem initSequenceStep_cases (s : State) :
    initSequenceStep s = s ∨
    (∃ segs dflt, s.initTx = .waiting segs dflt ∧ initSequenceStep s = s.lockStep .init segs dflt) ∨
    (∃ rx, s.initTx = .returned .ok rx ∧ s.initStep = 1 ∧ initSequenceStep s = s.beginInit 2) ∨
    (∃ rx, s.initTx = .returned .ok rx ∧ s.initStep ≠ 1 ∧ s.initStep < 6 ∧ s.lockOwner = none ∧
      initSequenceStep s = (s.emit (.delay Config.tSettle)).beginInit (s.initStep + 1)) ∨
    (∃ rx, s.initTx = .returned .ok rx ∧ ¬ s.initStep < 6 ∧ s.lockOwner = none ∧
      initSequenceStep s = { s.emit (.delay Config.tSettle) with initStep := 7, initTx := .idle }) ∨
    (∃ st rx, s.initTx = .returned st rx ∧ st ≠ .ok ∧ initSequenceStep s = initFail s st) ∨
    (s.initTx = .idle ∧ s.initStep = 7 ∧ initSequenceStep s = initComplete s) := by
  unfold initSequenceStep
  cases ht : s.initTx with
  | idle =>
    by_cases h7 : s.initStep = 7
    · exact .inr (.inr (.inr (.inr (.inr (.inr ⟨rfl, h7, by simp [h7]⟩)))))
    · exact .inl (by simp [h7])
  | waiting segs dflt => exact .inr (.inl ⟨segs, dflt, rfl, rfl⟩)
  | running => exact .inl rfl
  | returned st rx =>
    by_cases hst : st = .ok
    · subst hst
      simp only [if_true]
      unfold initAdvance
      by_cases h1 : s.initStep = 1
      · exact .inr (.inr (.inl ⟨rx, rfl, h1, by simp [h1]⟩))
      · cases ho : s.lockOwner with
        | some o => exact .inl (by simp [h1])
        | none =>
          by_cases h6 : s.initStep < 6
          · exact .inr (.inr (.inr (.inl ⟨rx, rfl, h1, h6, rfl, by simp [h1, h6]⟩)))
          · exact .inr (.inr (.inr (.inr (.inl ⟨rx, rfl, h6, rfl, by simp [h1, h6]⟩))))
    · exact .inr (.inr (.inr (.inr (.inr (.inl ⟨st, rx, rfl, hst, by simp [hst]⟩)))))

/-! ## The trace (R151) -/

/-- Reading a trace with one more event. -/
theorem scanTrace_append (t : List Event) (e : Event) : scanTrace (t ++ [e]) = traceNext (scanTrace t) e := by
  simp [scanTrace]

/-! ## The step -/

/-- A step whose move is a client's runs that client's command. -/
theorem step_client {s : State} {j : Nat} (h : s.nextMove = .client j) : step s = clientStep j s.afterMove := by
  simp [step, h, runMove]

/-- What is pending does not depend on the schedule. -/
@[simp] theorem State.pending_afterMove (s : State) (j : Nat) : s.afterMove.pending j = s.pending j := by
  simp [State.pending]

/-- What is pending does not depend on the current client. -/
@[simp] theorem State.pending_selectClient (s : State) (k j : Nat) : (s.selectClient k).pending j = s.pending j := rfl

end Sys2Proof.Machine
end

