-- ==== Sys2Proof/Laws/Exec.lean ====
section
/-! SUPPORT. What one step of a command can do, said once per group of commands, and what a move can do. Provers cite these
instead of unfolding the meanings. -/

namespace Sys2Proof.Machine

/-! ## The response as a step of its own (00_scope R9) -/

/-- Everything `respondOr` can do: respond where the command's effect has been done, otherwise the first step. -/
theorem State.respondOr_cases (s first : State) :
    (∃ r, s.phase = .respond r ∧ s.respondOr first = s.respond r.status r.result) ∨
    ((∀ r, s.phase ≠ .respond r) ∧ s.respondOr first = first) := by
  unfold State.respondOr
  cases h : s.phase <;> simp

/-! ## The commands that change no register, or one -/

/-- Everything BUS_INIT can do (R130). -/
theorem execBusInit_cases {s t : State} (h : exec .busInit s = .next t) :
    (∃ r, s.phase = .respond r ∧ t = s.respond r.status r.result) ∨
    (s.busInit = true ∧ t = s.raise .alreadyInitialized) ∨
    ((∀ r, s.phase ≠ .respond r) ∧ s.busInit = false ∧
      t = { s with cfg := BusConfig.parameters, busInit := true }.thenRespond .ok .none) := by
  have ht : t = s.respondOr (busInitStart s) := (Host.Outcome.next.inj h).symm
  rcases State.respondOr_cases s (busInitStart s) with ⟨r, hr, e⟩ | ⟨hn, e⟩ <;> rw [e] at ht
  · exact .inl ⟨r, hr, ht⟩
  · unfold busInitStart at ht
    cases hb : s.busInit with
    | true => exact .inr (.inl ⟨rfl, by simpa [hb] using ht⟩)
    | false => exact .inr (.inr ⟨hn, rfl, by simpa [hb] using ht⟩)

/-- Everything a query of the channel handle or SET_PERIOD can do (R280 to R284). -/
theorem execChannelQuery_cases {s t : State} {i : Instr} (hi : Instr.isChannelQuery i = true) (h : exec i s = .next t) :
    (∃ r, s.phase = .respond r ∧ Instr.respondsLater i = true ∧ t = s.respond r.status r.result) ∨
    (∃ st res, t = s.respond st res ∧ st ∈ allowedStatuses i ∧ (st.isCallerError = true → res = .none)) ∨
    (∃ res, (∀ r, s.phase ≠ .respond r) ∧ Instr.respondsLater i = true ∧ t = s.thenRespond .ok res) := by
  cases i <;> try cases hi
  case getDuty ch =>
    have ht : t = s.respondOr (getDutyStart ch s) := (Host.Outcome.next.inj h).symm
    rcases State.respondOr_cases s (getDutyStart ch s) with ⟨r, hr, e⟩ | ⟨hn, e⟩ <;> rw [e] at ht
    · exact .inl ⟨r, hr, rfl, ht⟩
    · unfold getDutyStart at ht
      by_cases hr : s.pwmState = .ready
      · cases hc : channelOf ch with
        | none =>
          exact .inr (.inl ⟨_, _, by simpa [hr, hc, State.raise] using ht, by simp [allowedStatuses], fun _ => rfl⟩)
        | some c => exact .inr (.inr ⟨_, hn, rfl, by simpa [hr, hc] using ht⟩)
      · exact .inr (.inl ⟨_, _, by simpa [hr, State.raise] using ht, by simp [allowedStatuses], fun _ => rfl⟩)
  all_goals
    have ht := (Host.Outcome.next.inj h).symm
    refine .inr (.inl ?_)
  case setPeriod val =>
    by_cases hr : s.pwmState = .ready
    · by_cases hv : val.toNat = Config.pwmMax
      · exact ⟨_, _, by simpa [hr, hv, State.raise] using ht, by simp [allowedStatuses], fun _ => rfl⟩
      · exact ⟨_, _, by simpa [hr, hv, State.raise] using ht, by simp [allowedStatuses], fun _ => rfl⟩
    · exact ⟨_, _, by simpa [hr, State.raise] using ht, by simp [allowedStatuses], fun _ => rfl⟩
  all_goals
    by_cases hr : s.pwmState = .ready
    · exact ⟨_, _, by simpa [State.answerPeriod, hr, State.raise] using ht, by simp [allowedStatuses], fun hx => by cases hx⟩
    · exact ⟨_, _, by simpa [State.answerPeriod, hr, State.raise] using ht, by simp [allowedStatuses], fun _ => rfl⟩

/-- Everything OPEN, CLOSE and BIND_ADDRESS can do (R170 to R172): respond, refuse, or overwrite one entry. -/
theorem execDesc_cases {s t : State} {i : Instr} (hi : Instr.writesDesc i = true) (h : exec i s = .next t) :
    (∃ r, s.phase = .respond r ∧ t = s.respond r.status r.result) ∨
    (∃ st, t = s.raise st ∧ st.isCallerError = true ∧ st ∈ allowedStatuses i) ∨
    (∃ n d res, (∀ r, s.phase ≠ .respond r) ∧ t = (s.setDesc n d).thenRespond .ok res) := by
  cases i <;> try cases hi
  case openDesc =>
    have ht : t = s.respondOr (openStart s) := (Host.Outcome.next.inj h).symm
    rcases State.respondOr_cases s (openStart s) with ⟨r, hr, e⟩ | ⟨hn, e⟩ <;> rw [e] at ht
    · exact .inl ⟨r, hr, ht⟩
    · unfold openStart at ht
      cases hl : lowestClosed s.desc with
      | none => exact .inr (.inl ⟨_, by simpa [hl] using ht, rfl, by simp [allowedStatuses]⟩)
      | some n => exact .inr (.inr ⟨n, _, _, hn, by simpa [hl] using ht⟩)
  case closeDesc fd =>
    have ht : t = s.respondOr (closeStart fd s) := (Host.Outcome.next.inj h).symm
    rcases State.respondOr_cases s (closeStart fd s) with ⟨r, hr, e⟩ | ⟨hn, e⟩ <;> rw [e] at ht
    · exact .inl ⟨r, hr, ht⟩
    · unfold closeStart at ht
      cases ho : openEntry s.desc fd with
      | none => exact .inr (.inl ⟨_, by simpa [ho] using ht, rfl, by simp [allowedStatuses]⟩)
      | some d => exact .inr (.inr ⟨_, _, _, hn, by simpa [ho] using ht⟩)
  case bindAddress fd a8 =>
    have ht : t = s.respondOr (bindStart fd a8 s) := (Host.Outcome.next.inj h).symm
    rcases State.respondOr_cases s (bindStart fd a8 s) with ⟨r, hr, e⟩ | ⟨hn, e⟩ <;> rw [e] at ht
    · exact .inl ⟨r, hr, ht⟩
    · unfold bindStart at ht
      cases ho : openEntry s.desc fd with
      | none => exact .inr (.inl ⟨_, by simpa [ho] using ht, rfl, by simp [allowedStatuses]⟩)
      | some d =>
        by_cases ha : 0x7F < a8.toNat
        · exact .inr (.inl ⟨_, by simpa [ho, ha] using ht, rfl, by simp [allowedStatuses]⟩)
        · exact .inr (.inr ⟨_, _, _, hn, by simpa [ho, ha] using ht⟩)

/-- Everything FLUSH_TRIGGER can do (R252). -/
theorem execFlushTrigger_cases {s t : State} (h : exec .flushTrigger s = .next t) :
    (∃ r, s.phase = .respond r ∧ t = s.respond r.status r.result) ∨
    (s.pwmState ≠ .ready ∧ t = s.raise .notInitialized) ∨
    ((∀ r, s.phase ≠ .respond r) ∧ s.pwmState = .ready ∧ t = s.post.thenRespond .ok .none) := by
  have ht : t = s.respondOr (flushTriggerStart s) := (Host.Outcome.next.inj h).symm
  rcases State.respondOr_cases s (flushTriggerStart s) with ⟨r, hr, e⟩ | ⟨hn, e⟩ <;> rw [e] at ht
  · exact .inl ⟨r, hr, ht⟩
  · unfold flushTriggerStart at ht
    by_cases hr : s.pwmState = .ready
    · exact .inr (.inr ⟨hn, hr, by simpa [hr] using ht⟩)
    · exact .inr (.inl ⟨hr, by simpa [hr] using ht⟩)

/-! ## SET_DUTY -/

/-- Everything SET_DUTY can do (R250, R251): refuse, store and go on to its second step, or post and answer. -/
theorem execSetDuty_cases {s t : State} {ch : BitVec 8} {val : BitVec 16} (h : exec (.setDuty ch val) s = .next t) :
    (s.phase = .post ∧ t = s.post.respond .ok .none) ∨
    (s.phase ≠ .post ∧ ∃ st, t = s.raise st ∧ (st = .notInitialized ∨ st = .invalidArgument)) ∨
    (s.phase ≠ .post ∧ s.pwmState = .ready ∧
      ∃ c : Fin 16, c.val = ch.toNat ∧ t = (s.storeDuty c (clampDuty val)).setPhase .post) := by
  have ht := (Host.Outcome.next.inj h).symm
  by_cases hp : s.phase = .post
  · exact .inl ⟨hp, by simpa [hp] using ht⟩
  · have ht' : t = setDutyStart ch val s := by
      revert ht hp
      cases s.phase <;> intro ht hp <;> first | exact absurd rfl hp | exact ht
    unfold setDutyStart at ht'
    by_cases hr : s.pwmState = .ready
    · by_cases hc : ch.toNat < 16
      · exact .inr (.inr ⟨hp, hr, ⟨ch.toNat, hc⟩, rfl, by simpa [hr, channelOf, hc] using ht'⟩)
      · exact .inr (.inl ⟨hp, _, by simpa [hr, channelOf, hc] using ht', .inr rfl⟩)
    · exact .inr (.inl ⟨hp, _, by simpa [hr] using ht', .inl rfl⟩)

/-! ## PWM_INIT -/

/-- Everything PWM_INIT can do (R240, R241, R248): go on with the sequence, respond after a failure, refuse, or latch and start
the sequence. -/
theorem execPwmInit_cases {s t : State} {freq : BitVec 16} {addr : Addr7} (h : exec (.pwmInit freq addr) s = .next t) :
    (s.phase = .sequence ∧ t = initSequenceStep s) ∨
    (∃ r, s.phase = .respond r ∧ t = s.respond r.status r.result) ∨
    (s.phase ≠ .sequence ∧ ∃ st, t = s.raise st ∧
      (st = .alreadyInitialized ∨ st = .notInitialized ∨ st = .invalidArgument)) ∨
    (s.phase ≠ .sequence ∧ (∀ r, s.phase ≠ .respond r) ∧ s.pwmState = .uninit ∧ s.busInit = true ∧ addr ≠ 0#7 ∧
      ∃ p, computePrescaler Config.oscHz freq.toNat = some p ∧
        t = ({ s with pwmState := .initializing, pwmAddr := addr, pwmPrescale := p }.beginInit 1).setPhase .sequence) := by
  have ht := (Host.Outcome.next.inj h).symm
  by_cases hp : s.phase = .sequence
  · exact .inl ⟨hp, by simpa [hp] using ht⟩
  · have ht' : t = s.respondOr (pwmInitStart freq addr s) := by
      revert ht hp
      cases s.phase <;> intro ht hp <;> first | exact absurd rfl hp | exact ht
    rcases State.respondOr_cases s (pwmInitStart freq addr s) with ⟨r, hr, e⟩ | ⟨hn, e⟩ <;> rw [e] at ht'
    · exact .inr (.inl ⟨r, hr, ht'⟩)
    · refine .inr (.inr ?_)
      unfold pwmInitStart at ht'
      by_cases hu : s.pwmState = .uninit
      · cases hb : s.busInit with
        | false => exact .inl ⟨hp, _, by simpa [hu, hb] using ht', .inr (.inl rfl)⟩
        | true =>
          cases hc : computePrescaler Config.oscHz freq.toNat with
          | none => exact .inl ⟨hp, _, by simpa [hu, hb, hc] using ht', .inr (.inr rfl)⟩
          | some p =>
            by_cases ha : addr = 0#7
            · exact .inl ⟨hp, _, by simpa [hu, hb, hc, ha] using ht', .inr (.inr rfl)⟩
            · exact .inr ⟨hp, hn, hu, rfl, ha, p, rfl, by simpa [hu, hb, hc, ha] using ht'⟩
      · exact .inl ⟨hp, _, by simpa [hu] using ht', .inl rfl⟩

/-! ## The commands that call `Transact` -/

/-- The one segment of WRITE is legal when its count is right (R94, R173). -/
theorem segsLegal_writeSegs {len : BitVec 16} {data : List Byte} (h : len.toNat = data.length) :
    SegsLegal (writeSegs len data) := by
  simp [SegsLegal, writeSegs, segLegal, segCountOk, segLenOk, h]

/-- The one segment of READ is legal when its count is not 0 (R135, R174). -/
theorem segsLegal_readSegs {len : BitVec 16} (h : len ≠ 0#16) : SegsLegal (readSegs len) := by
  simp [SegsLegal, readSegs, segLegal, segCountOk, segLenOk, h]

/-- A list that passed the checks of R94 and R135 is legal, unless it is empty. -/
theorem segsLegal_of_checks {count : Nat} {segs : List Segment} (hc : countsAgree count segs = true)
    (hk : checkSegments segs = true) (hn : segs.isEmpty = false) : SegsLegal segs := by
  simp only [countsAgree, Bool.and_eq_true, List.all_eq_true] at hc
  simp only [checkSegments, List.all_eq_true] at hk
  refine ⟨by intro he; simp [he] at hn, ?_⟩
  simp only [List.all_eq_true, segLegal, Bool.and_eq_true]
  exact fun seg hs => ⟨hc.2 seg hs, hk seg hs⟩

/-- Everything a first step of EXECUTE, READ, WRITE or ATOMIC_TRANSFER can do: refuse, answer an empty list at once, or call
`Transact` with a legal list (a READ with reads only). -/
theorem execBus_start_cases {s t : State} {i : Instr} (hi : Instr.usesBus i = true) (hp : s.phase ≠ .bus)
    (h : exec i s = .next t) :
    (∃ st, t = s.raise st ∧ st.isCallerError = true ∧ st ∈ allowedStatuses i) ∨
    (∃ res, t = s.respond .ok res) ∨
    (∃ segs dflt, SegsLegal segs ∧ t = s.callTransact segs dflt ∧
      ((∃ fd len, i = .readDesc fd len) → ∀ seg ∈ segs, seg.dir = .read)) := by
  cases i <;> try cases hi
  all_goals have ht := (Host.Outcome.next.inj h).symm
  case execute nseg addr segs =>
    have ht' : t = executeStart nseg addr segs s := by
      revert ht hp; cases s.phase <;> intro hp ht <;> first | exact absurd rfl hp | exact ht
    unfold executeStart at ht'
    cases hb : s.busInit with
    | false => exact .inl ⟨_, by simpa [hb] using ht', rfl, by simp [allowedStatuses]⟩
    | true =>
      cases hc : countsAgree nseg.toNat segs with
      | false => exact .inl ⟨_, by simpa [hb, hc] using ht', rfl, by simp [allowedStatuses]⟩
      | true =>
        cases hk : checkSegments segs with
        | false => exact .inl ⟨_, by simpa [hb, hc, hk] using ht', rfl, by simp [allowedStatuses]⟩
        | true =>
          cases he : segs.isEmpty with
          | true => exact .inr (.inl ⟨_, by simp only [hb, hc, hk, he] at ht'; exact ht'⟩)
          | false =>
            exact .inr (.inr ⟨segs, addr, segsLegal_of_checks hc hk he, by simp only [hb, hc, hk, he] at ht'; exact ht',
              fun hx => by obtain ⟨_, _, hx⟩ := hx; cases hx⟩)
  case atomicTransfer fd len segs =>
    have ht' : t = atomicStart fd len segs s := by
      revert ht hp; cases s.phase <;> intro hp ht <;> first | exact absurd rfl hp | exact ht
    unfold atomicStart at ht'
    cases hb : s.busInit with
    | false => exact .inl ⟨_, by simpa [hb] using ht', rfl, by simp [allowedStatuses]⟩
    | true =>
      cases ho : openEntry s.desc fd with
      | none => exact .inl ⟨_, by simpa [hb, ho] using ht', rfl, by simp [allowedStatuses]⟩
      | some d =>
        cases hc : countsAgree len.toNat segs with
        | false => exact .inl ⟨_, by simpa [hb, ho, hc] using ht', rfl, by simp [allowedStatuses]⟩
        | true =>
          cases hk : checkSegments segs with
          | false => exact .inl ⟨_, by simpa [hb, ho, hc, hk] using ht', rfl, by simp [allowedStatuses]⟩
          | true =>
            cases hu : anyUnbound segs d.addr with
            | true => exact .inl ⟨_, by simpa [hb, ho, hc, hk, hu] using ht', rfl, by simp [allowedStatuses]⟩
            | false =>
              cases he : segs.isEmpty with
              | true => exact .inr (.inl ⟨_, by simp only [hb, ho, hc, hk, hu, he] at ht'; exact ht'⟩)
              | false =>
                exact .inr (.inr ⟨segs, d.addr, segsLegal_of_checks hc hk he,
                  by simp only [hb, ho, hc, hk, hu, he] at ht'; exact ht', fun hx => by obtain ⟨_, _, hx⟩ := hx; cases hx⟩)
  case readDesc fd len =>
    have ht' : t = readStart fd len s := by
      revert ht hp; cases s.phase <;> intro hp ht <;> first | exact absurd rfl hp | exact ht
    unfold readStart at ht'
    cases hb : s.busInit with
    | false => exact .inl ⟨_, by simpa [hb] using ht', rfl, by simp [allowedStatuses]⟩
    | true =>
      cases ho : openEntry s.desc fd with
      | none => exact .inl ⟨_, by simpa [hb, ho] using ht', rfl, by simp [allowedStatuses]⟩
      | some d =>
        by_cases ha : d.addr = 0#7
        · exact .inl ⟨_, by simpa [hb, ho, ha] using ht', rfl, by simp [allowedStatuses]⟩
        · by_cases hl : len = 0#16
          · exact .inr (.inl ⟨.bytes [], by simpa [hb, ho, ha, hl, State.respondRead, readResult] using ht'⟩)
          · exact .inr (.inr ⟨_, _, segsLegal_readSegs hl, by simpa [hb, ho, ha, hl] using ht',
              fun _ seg hs => by simp only [readSegs, List.mem_singleton] at hs; rw [hs]⟩)
  case writeDesc fd len data =>
    have ht' : t = writeStart fd len data s := by
      revert ht hp; cases s.phase <;> intro hp ht <;> first | exact absurd rfl hp | exact ht
    unfold writeStart at ht'
    cases hb : s.busInit with
    | false => exact .inl ⟨_, by simpa [hb] using ht', rfl, by simp [allowedStatuses]⟩
    | true =>
      cases ho : openEntry s.desc fd with
      | none => exact .inl ⟨_, by simpa [hb, ho] using ht', rfl, by simp [allowedStatuses]⟩
      | some d =>
        by_cases hc : len.toNat = data.length
        · by_cases ha : d.addr = 0#7
          · exact .inl ⟨_, by simpa [hb, ho, hc, ha] using ht', rfl, by simp [allowedStatuses]⟩
          · by_cases hl : len = 0#16
            · exact .inr (.inl ⟨.none, by simp only [hb, ho, ha, if_neg (not_not.mpr hc), if_pos hl] at ht'; exact ht'⟩)
            · exact .inr (.inr ⟨_, _, segsLegal_writeSegs hc, by simpa [hb, ho, hc, ha, hl] using ht',
                fun hx => by obtain ⟨_, _, hx⟩ := hx; cases hx⟩)
        · exact .inl ⟨_, by simpa [hb, ho, hc] using ht', rfl, by simp [allowedStatuses]⟩

/-- A later step of such a command is a step inside `Transact`, with the response as its end (R131, R173 to R175). -/
theorem execBus_bus_eq {s : State} {i : Instr} (hi : Instr.usesBus i = true) (hp : s.phase = .bus) :
    ∃ res : Status → Option (List Byte) → Result,
      exec i s = .next (s.clientTransactStep (fun st rx => s.respond st (res st rx))) := by
  cases i <;> try cases hi
  case execute => exact ⟨readResult, by simp only [exec, execExecute, hp]; rfl⟩
  case readDesc => exact ⟨readResult, by simp only [exec, execReadDesc, hp]; rfl⟩
  case writeDesc => exact ⟨fun _ _ => .none, by simp only [exec, execWriteDesc, hp]; rfl⟩
  case atomicTransfer => exact ⟨readResult, by simp only [exec, execAtomicTransfer, hp]; rfl⟩

/-! ## A move -/

/-- Everything a step can do: a client hands in a command, answers an illegal word, takes a step of its command or has
none; or the engine or the worker takes its step. -/
theorem step_cases {s t : State} (h : step s = .next t) :
    (∃ j cmd, s.nextMove = .issue j cmd ∧ t = s.afterMove.issue j cmd) ∨
    (∃ j, s.nextMove = .client j ∧ s.pending j = .nothing ∧ t = s.afterMove) ∨
    (∃ j, s.nextMove = .client j ∧ s.pending j = .illegal ∧
      t = (s.afterMove.selectClient j).raise .illegalCommand) ∨
    (∃ j i, s.nextMove = .client j ∧ s.pending j = .instr i ∧ exec i (s.afterMove.selectClient j) = .next t) ∨
    (s.nextMove = .engine ∧ t = engineStep s.afterMove) ∨
    (s.nextMove = .worker ∧ t = workerStep s.afterMove) := by
  unfold step at h
  cases hm : s.nextMove with
  | issue j cmd =>
    rw [hm] at h
    exact .inl ⟨j, cmd, rfl, (Host.Outcome.next.inj h).symm⟩
  | client j =>
    rw [hm] at h
    simp only [runMove, clientStep, State.pending_afterMove] at h
    cases hp : s.pending j with
    | nothing => rw [hp] at h; exact .inr (.inl ⟨j, rfl, hp, (Host.Outcome.next.inj h).symm⟩)
    | illegal => rw [hp] at h; exact .inr (.inr (.inl ⟨j, rfl, hp, (Host.Outcome.next.inj h).symm⟩))
    | instr i => rw [hp] at h; exact .inr (.inr (.inr (.inl ⟨j, i, rfl, hp, h⟩)))
  | engine => rw [hm] at h; exact .inr (.inr (.inr (.inr (.inl ⟨rfl, (Host.Outcome.next.inj h).symm⟩))))
  | worker => rw [hm] at h; exact .inr (.inr (.inr (.inr (.inr ⟨rfl, (Host.Outcome.next.inj h).symm⟩))))

/-- A pending instruction stands in an existing client's record. -/
theorem State.pending_instr {s : State} {j : Nat} {i : Instr} (h : s.pending j = .instr i) :
    ∃ c, s.clients[j]? = some c ∧ c.instr = some i := by
  unfold State.pending at h
  cases hc : s.clients[j]? with
  | none => rw [hc] at h; cases h
  | some c =>
    simp only [hc] at h
    refine ⟨c, rfl, ?_⟩
    unfold Client.instr
    cases hm : c.cmd with
    | none => simp only [hm] at h; cases h
    | some cmd =>
      simp only [hm] at h
      cases hd : decode cmd with
      | ok i' => simp only [hd, Pending.instr.injEq] at h; simp only [hd, h]
      | error e => simp only [hd] at h; cases h

end Sys2Proof.Machine
end

