-- ==== Sys2Proof/Laws/Fairness.lean ====
section
/-! SUPPORT. Executions: an agent whose step is disabled takes none, every run of `step` is an execution, and what the moves of
the other agents leave alone, which is what a proof from weak fairness needs. -/

namespace Sys2Proof.Machine

/-! ## A disabled step is no step (R133, R137, R260) -/

/-- A disabled engine has no step. -/
theorem engineStep_disabled {s : State} (h : s.enabled .engine = false) : engineStep s = s := by
  have ho : s.lockOwner = none := by simpa [State.enabled] using h
  simp [engineStep, ho]

/-- A disabled worker has no step. -/
theorem workerStep_disabled {s : State} (h : s.enabled .worker = false) : workerStep s = s := by
  simp only [State.enabled, State.workerHasStep] at h
  unfold workerStep
  cases hp : s.wk.phase with
  | idle => simp [hp] at h; simp [workerWake, h]
  | capture => simp [hp] at h
  | flushing =>
    simp only [hp, Bool.or_eq_false_iff, decide_eq_false_iff_not] at h
    have hc : s.wk.ch < 16 := by omega
    have hr : s.wk.tx = .running := by
      have := h.2
      revert this
      cases s.wk.tx <;> simp [Transact.hasStep]
    simp [hc, workerWrite, hr]

/-! ## Executions -/

/-- Every run of `step` is an execution, its moves those of the schedule. -/
def Execution.ofSteps (r : Nat → State) (h : ∀ n, step (r n) = .next (r (n + 1))) : Execution where
  state := r
  move n := (r n).nextMove
  steps n := by
    refine ⟨(r n).afterMove.env, ?_⟩
    have e : ({ r n with env := (r n).afterMove.env } : State) = (r n).afterMove := by
      unfold State.afterMove
      split <;> rfl
    rw [e]
    exact h n

/-- The execution in which one and the same move is taken for ever. -/
def Execution.always (m : Move) (f : State → State) (h : ∀ s, runMove m s = .next (f s)) (s : State) : Execution where
  state n := f^[n] s
  move _ := m
  steps n := ⟨(f^[n] s).env, by rw [Function.iterate_succ_apply']; exact h _⟩

/-- An agent that moves for ever is treated fairly. -/
theorem Execution.always_fair {a : Agent} {f : State → State} (h : ∀ s, runMove a.move s = .next (f s)) (s : State) :
    (Execution.always a.move f h s).weaklyFair a := fun n => ⟨n, Nat.le_refl n, .inr rfl⟩

/-! ## What a client's step leaves alone -/

/-- What every step of a client's command leaves alone: the other clients, the worker, a lock that is held, and the wakes
already posted; and it hands the lock to nobody but itself. -/
structure ClientFrame (s t : State) : Prop where
  others : ∀ j, j ≠ s.env.cur → t.clients[j]? = s.clients[j]?
  worker : t.wk = s.wk
  held   : s.lockOwner ≠ none → t.lockOwner = s.lockOwner ∧ t.eng = s.eng
  taker  : t.lockOwner = s.lockOwner ∨ t.lockOwner = some (.client s.env.cur) ∨ t.lockOwner = some .init
  wake   : s.wake ≤ t.wake

/-- A change of the current client's record alone, after a change that touches neither clients, worker, lock nor engine. -/
theorem ClientFrame.ofUpd {s u : State} (f : Client → Client) (h1 : u.clients = s.clients) (h2 : u.wk = s.wk)
    (h3 : u.lockOwner = s.lockOwner) (h4 : u.eng = s.eng) (h5 : s.wake ≤ u.wake) :
    ClientFrame s (u.updClient s.env.cur f) where
  others j hj := by rw [State.updClient_of_ne u f hj, h1]
  worker := h2
  held _ := ⟨h3, h4⟩
  taker := .inl h3
  wake := h5

/-- A change that touches neither clients, worker, lock nor engine. -/
theorem ClientFrame.ofSame {s u : State} (h1 : u.clients = s.clients) (h2 : u.wk = s.wk)
    (h3 : u.lockOwner = s.lockOwner) (h4 : u.eng = s.eng) (h5 : s.wake ≤ u.wake) : ClientFrame s u where
  others j _ := by rw [h1]
  worker := h2
  held _ := ⟨h3, h4⟩
  taker := .inl h3
  wake := h5

/-- A lock step of the current client, or of the sequence it runs. -/
theorem ClientFrame.lockStep {s : State} {r : Requester} (segs : List Segment) (dflt : Addr7)
    (hr : r = .client s.env.cur ∨ r = .init) : ClientFrame s (s.lockStep r segs dflt) := by
  rcases State.lockStep_cases s r segs dflt with ⟨hn, e⟩ | ⟨_, _, e⟩ | ⟨_, _, e⟩ <;> rw [e]
  · rcases hr with rfl | rfl
    · exact { others := fun j hj => by simp [State.setTx, Ne.symm hj], worker := rfl, held := fun h => absurd hn h
              taker := .inr (.inl rfl), wake := Nat.le_refl _ }
    · exact { others := fun _ _ => rfl, worker := rfl, held := fun h => absurd hn h
              taker := .inr (.inr rfl), wake := Nat.le_refl _ }
  · rcases hr with rfl | rfl
    · exact ClientFrame.ofUpd _ (by simp) (by simp) (by simp) (by simp) (by simp)
    · exact ClientFrame.ofSame (by simp) (by simp) (by simp) (by simp) (by simp)
  · exact ClientFrame.ofSame (by simp) (by simp) (by simp) (by simp) (by simp)

/-- A step of the sequence. -/
theorem ClientFrame.initSequenceStep (s : State) : ClientFrame s (initSequenceStep s) := by
  rcases initSequenceStep_cases s with e | ⟨segs, dflt, ht, e⟩ | ⟨rx, ht, hs, e⟩ | ⟨rx, ht, hs, h6, ho, e⟩ |
      ⟨rx, ht, h6, ho, e⟩ | ⟨st, rx, ht, hst, e⟩ | ⟨ht, hs, e⟩ <;> rw [e]
  · exact ClientFrame.ofSame rfl rfl rfl rfl (Nat.le_refl _)
  · exact ClientFrame.lockStep segs dflt (.inr rfl)
  · exact ClientFrame.ofSame rfl rfl rfl rfl (Nat.le_refl _)
  · exact ClientFrame.ofSame rfl rfl rfl rfl (Nat.le_refl _)
  · exact ClientFrame.ofSame rfl rfl rfl rfl (Nat.le_refl _)
  · exact ClientFrame.ofUpd _ rfl rfl rfl rfl (Nat.le_refl _)
  · exact ClientFrame.ofUpd _ rfl rfl rfl rfl (Nat.le_refl _)

/-- Every step of every command has the frame. -/
theorem exec_clientFrame {s t : State} {i : Instr} (h : exec i s = .next t) : ClientFrame s t := by
  have answered : ∀ st res, ClientFrame s (s.respond st res) := fun st res =>
    ClientFrame.ofUpd _ rfl rfl rfl rfl (Nat.le_refl _)
  have bus : Instr.usesBus i = true → ClientFrame s t := by
    intro hu
    by_cases hp : s.phase = .bus
    · obtain ⟨res, he⟩ := execBus_bus_eq hu hp
      rw [he] at h
      have ht := (Host.Outcome.next.inj h).symm
      rcases State.clientTransactStep_cases s (fun st rx => s.respond st (res st rx)) with
        ⟨segs, dflt, _, e⟩ | ⟨_, e⟩ | ⟨st, rx, _, e⟩ | ⟨_, e⟩ <;> rw [e] at ht <;> subst ht
      · exact ClientFrame.lockStep segs dflt (.inl rfl)
      · exact ClientFrame.ofSame rfl rfl rfl rfl (Nat.le_refl _)
      · exact answered _ _
      · exact ClientFrame.ofSame rfl rfl rfl rfl (Nat.le_refl _)
    · rcases execBus_start_cases hu hp h with ⟨st, rfl, _⟩ | ⟨res, rfl⟩ | ⟨segs, dflt, _, rfl, _⟩
      · exact answered _ _
      · exact answered _ _
      · exact ClientFrame.ofUpd _ rfl rfl rfl rfl (Nat.le_refl _)
  have query : Instr.isChannelQuery i = true → ClientFrame s t := by
    intro hq
    rcases execChannelQuery_cases hq h with ⟨r, _, _, rfl⟩ | ⟨st, res, rfl, _⟩ | ⟨res, _, _, rfl⟩
    · exact answered _ _
    · exact answered _ _
    · exact ClientFrame.ofUpd _ rfl rfl rfl rfl (Nat.le_refl _)
  have table : Instr.writesDesc i = true → ClientFrame s t := by
    intro hw
    rcases execDesc_cases hw h with ⟨r, _, rfl⟩ | ⟨st, rfl, _⟩ | ⟨n, d, res, _, rfl⟩
    · exact answered _ _
    · exact answered _ _
    · exact ClientFrame.ofUpd _ rfl rfl rfl rfl (Nat.le_refl _)
  cases i with
  | execute => exact bus rfl
  | readDesc => exact bus rfl
  | writeDesc => exact bus rfl
  | atomicTransfer => exact bus rfl
  | getDuty => exact query rfl
  | getPeriod => exact query rfl
  | getPeriodMin => exact query rfl
  | getPeriodMax => exact query rfl
  | setPeriod => exact query rfl
  | openDesc => exact table rfl
  | closeDesc => exact table rfl
  | bindAddress => exact table rfl
  | busInit =>
    rcases execBusInit_cases h with ⟨r, _, rfl⟩ | ⟨_, rfl⟩ | ⟨_, _, rfl⟩
    · exact answered _ _
    · exact answered _ _
    · exact ClientFrame.ofUpd _ rfl rfl rfl rfl (Nat.le_refl _)
  | flushTrigger =>
    rcases execFlushTrigger_cases h with ⟨r, _, rfl⟩ | ⟨_, rfl⟩ | ⟨_, _, rfl⟩
    · exact answered _ _
    · exact answered _ _
    · exact ClientFrame.ofUpd _ rfl rfl rfl rfl (Nat.le_succ _)
  | setDuty =>
    rcases execSetDuty_cases h with ⟨_, rfl⟩ | ⟨_, st, rfl, _⟩ | ⟨_, _, k, _, rfl⟩
    · exact ClientFrame.ofUpd _ rfl rfl rfl rfl (Nat.le_succ _)
    · exact answered _ _
    · exact ClientFrame.ofUpd _ rfl rfl rfl rfl (Nat.le_refl _)
  | pwmInit =>
    rcases execPwmInit_cases h with ⟨_, rfl⟩ | ⟨r, _, rfl⟩ | ⟨_, st, rfl, _⟩ | ⟨_, _, _, _, _, p, _, rfl⟩
    · exact ClientFrame.initSequenceStep s
    · exact answered _ _
    · exact answered _ _
    · exact ClientFrame.ofUpd _ rfl rfl rfl rfl (Nat.le_refl _)

/-- A client's move: nothing pending, an illegal word answered, or a step of its command; each has the frame. -/
theorem clientStep_frame {s t : State} {j : Nat} (h : clientStep j s = .next t) : ClientFrame (s.selectClient j) t := by
  unfold clientStep at h
  cases hp : s.pending j with
  | nothing =>
    rw [hp] at h
    cases h
    exact ClientFrame.ofSame rfl rfl rfl rfl (Nat.le_refl _)
  | illegal =>
    rw [hp] at h
    cases h
    exact ClientFrame.ofUpd _ rfl rfl rfl rfl (Nat.le_refl _)
  | instr i =>
    rw [hp] at h
    exact exec_clientFrame h

/-! ## What the other agents' moves leave alone -/

/-- Every move but the worker's leaves the worker's phase, and no wake is lost. -/
theorem runMove_worker_kept {s t : State} {m : Move} (h : runMove m s = .next t) (hm : m ≠ .worker) :
    t.wk.phase = s.wk.phase ∧ s.wake ≤ t.wake := by
  cases m with
  | worker => exact absurd rfl hm
  | issue j cmd => cases h; exact ⟨rfl, Nat.le_refl _⟩
  | client j => have := clientStep_frame h; exact ⟨by rw [this.worker]; rfl, this.wake⟩
  | engine =>
    cases h
    rcases engineStep_cases s with e | ⟨r, ho, ⟨hp, e⟩ | ⟨seg, hp, hs, e⟩ |
      ⟨seg, d, hp, hs, hd, e⟩ | ⟨seg, hp, hs, e⟩ | ⟨hp, e⟩⟩ <;> rw [e]
    · simp
    · simp [engineBegin]
    · simp [engineAddr]
    · simp [engineWData]
    · simp [engineRData]
    · cases r <;> simp [engineStop]

/-- Every move but client j's own leaves the record of a client with a command outstanding that does not hold the lock. -/
theorem runMove_client_kept {s t : State} {m : Move} {j : Nat} {c : Client} (h : runMove m s = .next t) (hm : m ≠ .client j)
    (hc : s.clients[j]? = some c) (hcmd : c.cmd ≠ none) (hl : s.lockOwner ≠ some (.client j)) :
    t.clients[j]? = some c ∧ t.lockOwner ≠ some (.client j) := by
  cases m with
  | issue k cmd =>
    cases h
    refine ⟨?_, hl⟩
    by_cases hk : k = j
    · subst hk
      have : c.accept cmd = c := by
        unfold Client.accept
        cases h : c.cmd with
        | none => exact absurd h hcmd
        | some _ => rfl
      simp [hc, this]
    · simp [hk, hc]
  | client k =>
    have hk : k ≠ j := fun e => hm (by rw [e])
    have F := clientStep_frame h
    refine ⟨by rw [F.others j (by simpa using Ne.symm hk)]; exact hc, ?_⟩
    rcases F.taker with e | e | e <;> rw [e]
    · exact hl
    · simp; exact hk
    · simp
  | worker =>
    cases h
    have lk : ∀ segs dflt, (s.lockStep .worker segs dflt).clients[j]? = some c ∧
        (s.lockStep .worker segs dflt).lockOwner ≠ some (.client j) := by
      intro segs dflt
      rcases State.lockStep_cases s .worker segs dflt with ⟨hn, e⟩ | ⟨_, _, e⟩ | ⟨_, _, e⟩ <;> rw [e] <;> simp [hc, hl]
    rcases workerStep_cases s with e | ⟨hp, hwk, e⟩ | ⟨hp, e⟩ | ⟨hp, hc', ht, e⟩ |
      ⟨segs, dflt, hp, hc', ht, e⟩ | ⟨st, rx, hp, hc', ht, e⟩ | ⟨hp, hc', e⟩ <;> rw [e]
    · exact ⟨hc, hl⟩
    · exact ⟨hc, hl⟩
    · exact ⟨hc, hl⟩
    · exact ⟨hc, hl⟩
    · exact lk _ _
    · unfold workerNext; by_cases hst : st = .ok <;> simp [hst, hc, hl]
    · exact ⟨hc, hl⟩
  | engine =>
    cases h
    rcases engineStep_cases s with e | ⟨r, ho, ⟨hp, e⟩ | ⟨seg, hp, hs, e⟩ |
      ⟨seg, d, hp, hs, hd, e⟩ | ⟨seg, hp, hs, e⟩ | ⟨hp, e⟩⟩ <;> rw [e]
    · exact ⟨hc, hl⟩
    · simp [engineBegin, hc, hl]
    · simp [engineAddr, hc, hl]
    · simp [engineWData, hc, hl]
    · simp [engineRData, hc, hl]
    · cases r with
      | client k =>
        have hk : k ≠ j := fun e => hl (by rw [ho, e])
        simp [engineStop, hc, hk]
      | init => simp [engineStop, hc]
      | worker => simp [engineStop, hc]

/-- Every move but the engine's leaves a lock that is held, and the engine registers. -/
theorem runMove_engine_kept {s t : State} {m : Move} (h : runMove m s = .next t) (hm : m ≠ .engine) (hl : s.lockOwner ≠ none) :
    t.lockOwner = s.lockOwner ∧ t.eng = s.eng := by
  cases m with
  | engine => exact absurd rfl hm
  | issue j cmd => cases h; exact ⟨rfl, rfl⟩
  | client j => exact (clientStep_frame h).held hl
  | worker =>
    cases h
    rcases workerStep_cases s with e | ⟨hp, hwk, e⟩ | ⟨hp, e⟩ | ⟨hp, hc', ht, e⟩ |
      ⟨segs, dflt, hp, hc', ht, e⟩ | ⟨st, rx, hp, hc', ht, e⟩ | ⟨hp, hc', e⟩ <;> rw [e]
    · exact ⟨rfl, rfl⟩
    · exact ⟨rfl, rfl⟩
    · exact ⟨rfl, rfl⟩
    · exact ⟨rfl, rfl⟩
    · rcases State.lockStep_cases s .worker segs dflt with ⟨hn, e⟩ | ⟨_, _, e⟩ | ⟨_, _, e⟩ <;> rw [e]
      · exact absurd hn hl
      · simp
      · simp
    · unfold workerNext; by_cases hst : st = .ok <;> simp [hst]
    · exact ⟨rfl, rfl⟩

end Sys2Proof.Machine
end

