-- ==== Sys2Proof/Laws/Legal.lean ====
section
/-! SUPPORT. What each shared operation does to a legal state: the operations of clients, of the lock,
    of the engine, of the
worker and of the initialisation sequence keep it legal. -/

namespace Sys2Proof.Machine

/-- What a requester's call is after an update of client `j`. -/
theorem State.tx_updClient {s : State} {j : Nat} {c : Client} (f) (h : s.clients[j]? = some c) (r : Requester) :
    (s.updClient j f).tx r = if r = .client j then (f c).tx else s.tx r := by
  cases r with
  | client k =>
    by_cases hk : k = j
    · subst hk; simp [State.tx_client (State.updClient_self f h)]
    · simp [hk]
      simp [State.tx, List.getD, Ne.symm hk]
  | init => simp; rfl
  | worker => simp; rfl

/-- Legality reads neither `cfg`, `desc`, the fault log nor `env`. -/
theorem Legal.congr {s t : State} (h : Legal s) (e1 : t.cache = s.cache) (e2 : t.trace = s.trace)
    (e3 : t.lockOwner = s.lockOwner)
   (e4 : t.eng = s.eng) (e5 : t.clients = s.clients) (e6 : t.pwmState = s.pwmState) (e7 : t.pwmAddr = s.pwmAddr)
   (e8 : t.pwmPrescale = s.pwmPrescale) (e9 : t.initStep = s.initStep) (e10 : t.initTx = s.initTx) (e11 : t.wk = s.wk)
   (e12 : t.dirty = s.dirty) (e13 : t.wake = s.wake) (e14 : t.busInit = s.busInit) : Legal t := by
  obtain ⟨h1,h2,h3,h4,h5,h6,h7,h8,h9⟩ := h
  obtain ⟨p1,p2,p3,p4,p5,p6,p7⟩ := h7
  have etx : ∀ r, t.tx r = s.tx r := by intro r; cases r <;> simp [State.tx, *]
  have esq : ∀ j, t.inSequence j ↔ s.inSequence j := by intro j; simp [State.inSequence, *]
  refine ⟨by simpa [CacheInRange, e1] using h1, by simpa [State.transactionOpen, *] using h2, by simpa [*] using h3,
      by simpa [*] using h4,
    by simpa [etx, e3] using h5, ?_, ⟨by simpa [*] using p1, by simpa [*] using p2, by simpa [*] using p3,
        by simpa [*] using p4, by simpa [esq, e6] using p5, by simpa [esq] using p6, by simpa [*] using p7⟩,
        by simpa [*] using h8, by simpa [DirtyIsPending, State.somePosting, *] using h9⟩
  intro j c hc
  rw [e5] at hc
  simpa [ReadLegal, *] using h6 j c hc

/-- An update of one client that leaves what is shared in agreement keeps a state legal. -/
theorem Legal.updClient {s : State} {j : Nat} {c : Client} {f : Client → Client} (hL : Legal s)
    (hc : s.clients[j]? = some c)
   (ht : (f c).tx = .running ↔ c.tx = .running) (hcl : ClientLegal (f c)) (hr : ReadLegal s j (f c))
   (hq : (f c).phase = .sequence ↔ c.phase = .sequence)
   (hp : c.phase = .post → (f c).phase = .post ∨ 0 < s.wake ∨ s.wk.phase ≠ .idle) : Legal (s.updClient j f) := by
  obtain ⟨h1,h2,h3,h4,h5,h6,h7,h8,h9⟩ := hL
  obtain ⟨p1,p2,p3,p4,p5,p6,p7⟩ := h7
  have esq : ∀ k, (s.updClient j f).inSequence k ↔ s.inSequence k := by
    intro k
    by_cases hk : k = j
    · subst hk; simp [State.inSequence, hc, hq]
    · simp [State.inSequence, Ne.symm hk]
  refine ⟨h1, h2, h3, h4, ?_, ?_, ⟨p1, p2, p3, p4, by simpa [esq] using p5, by simpa [esq] using p6, p7⟩, h8, ?_⟩
  · intro r
    rw [State.tx_updClient f hc]
    split
    · subst_vars; rw [ht, ← State.tx_client hc]; exact h5 _
    · exact h5 r
  · intro k d hd
    by_cases hk : k = j
    · subst hk
      rw [State.updClient_self f hc] at hd
      cases hd
      exact ⟨hcl, hr⟩
    · rw [State.updClient_of_ne s f hk] at hd
      exact h6 k d hd
  · intro hd
    rcases h9 hd with h | h | ⟨k, d, hk, hd⟩
    · exact .inl h
    · exact .inr (.inl h)
    · by_cases hkj : k = j
      · subst hkj
        rw [hc] at hk; cases hk
        rcases hp hd with h | h | h
        · exact .inr (.inr ⟨k, f c, State.updClient_self f hc, h⟩)
        · exact .inl h
        · exact .inr (.inl h)
      · exact .inr (.inr ⟨k, d, by rw [State.updClient_of_ne s f hkj]; exact hk, hd⟩)

/-- There is nothing to update where there is no client. -/
theorem State.updClient_none {s : State} {j} (f) (h : s.clients[j]? = none) : s.updClient j f = s := by
  have : s.clients.modify j f = s.clients := by
    apply List.ext_getElem?; intro k
    rw [List.getElem?_modify]
    split
    · subst_vars; simp [h]
    · simp
  simp [State.updClient, this]

/-- Answering a command (R9) keeps a state legal when the client neither holds the lock nor runs the sequence,
    and a stored duty has been posted. -/
theorem Legal.answered_keeps {s : State} {j : Nat} (hL : Legal s) (r : Response)
   (hc : ∀ c, s.clients[j]? = some c → c.tx ≠ .running ∧ c.phase ≠ .sequence ∧
       (c.phase = .post → 0 < s.wake ∨ s.wk.phase ≠ .idle)) :
   Legal (s.updClient j (fun _ => Client.answered r)) := by
  cases h : s.clients[j]? with
  | none => rw [State.updClient_none _ h]; exact hL
  | some c =>
    obtain ⟨a, b, d⟩ := hc c h
    have hlo := hL.lockHolder (.client j)
    rw [State.tx_client h] at hlo
    refine Legal.updClient hL h ?_ ?_ ?_ ?_ ?_
    · simp [Client.answered, a]
    · simp [ClientLegal, Client.answered, TxLegal]
    · intro ⟨fd, len, he⟩; simp [Client.answered, Client.instr] at he
    · simp [Client.answered, b]
    · intro hp; exact .inr (d hp)

/-- Going on to `Respond` (R9) keeps a state legal, for a command that responds later and with a status of its row that is no
caller error. -/
theorem Legal.thenRespond_keeps {s : State} {c : Client} {i : Instr} (st : Status) (res : Result) (hL : Legal s)
    (hc : s.clients[s.env.cur]? = some c) (hi : c.instr = some i) (hl : Instr.respondsLater i = true)
    (hp : c.phase ≠ .sequence) (hr : ∀ r, c.phase ≠ .respond r)
    (hs : st ∈ allowedStatuses i) (he : st.isCallerError = false) : Legal (s.thenRespond st res) := by
  have hcl := (hL.clients _ c hc).1
  have hst : c.phase = .start ∧ c.tx = .idle := by
    simp only [ClientLegal] at hcl
    cases hph : c.phase with
    | start => simp only [hph] at hcl; exact ⟨rfl, hcl.2⟩
    | sequence => exact absurd hph hp
    | respond r => exact absurd hph (hr r)
    | post =>
      simp only [hph, hi] at hcl
      obtain ⟨_, _, _, _, h⟩ := hcl
      cases h; cases hl
    | bus =>
      simp only [hph, hi] at hcl
      obtain ⟨_, _, i', h, hu⟩ := hcl
      cases h
      cases i <;> first | exact absurd hl Bool.false_ne_true | exact absurd hu Bool.false_ne_true
  obtain ⟨hst, htx⟩ := hst
  refine Legal.updClient hL hc Iff.rfl ?_ ?_ ?_ ?_
  · exact ⟨by simp [htx, TxLegal], htx, i, hi, hl, hs, he⟩
  · intro ⟨fd, len, hx⟩
    have hx' : c.instr = some (.readDesc fd len) := hx
    rw [hi] at hx'; cases hx'; cases hl
  · simp [hst]
  · intro hx; rw [hst] at hx; cases hx

/-- Handing in a command (R35) keeps a state legal. -/
theorem Legal.issue_keeps {s : State} {j : Nat} (hL : Legal s) (cmd) : Legal (s.issue j cmd) := by
  unfold State.issue
  cases h : s.clients[j]? with
  | none => rw [State.updClient_none _ h]; exact hL
  | some c =>
    have hcl := hL.clients j c h
    cases hm : c.cmd with
    | some x =>
      have : c.accept cmd = c := by simp [Client.accept, hm]
      refine Legal.updClient hL h (by simp [this]) (by simpa [this] using hcl.1) (by simpa [this] using hcl.2)
          (by simp [this]) (by intro hp; left; simpa [this] using hp)
    | none =>
      have hi : c.instr = none := by simp [Client.instr, hm]
      have hst : c.phase = .start := by
        have := hcl.1
        simp only [ClientLegal] at this
        cases hp : c.phase <;> simp [hp, hi] at this ⊢
      have htx : c.tx = .idle := by
        have := hcl.1
        simp only [ClientLegal, hst] at this; exact this.2
      have hlo := hL.lockHolder (.client j)
      rw [State.tx_client h] at hlo
      have : c.accept cmd = { c with cmd := some cmd, phase := .start, tx := .idle } := by simp [Client.accept, hm]
      refine Legal.updClient hL h ?_ ?_ ?_ ?_ ?_ <;> simp only [this]
      · simp [htx]
      · simp [ClientLegal, TxLegal]
      · intro _; refine ⟨by simp, by simp, ?_⟩
        intro hh; rw [hlo] at hh; simp [htx] at hh
      · simp [hst]
      · simp [hst]

/-- A lock step (R136) keeps a state legal. -/
theorem Legal.lockStep_keeps {s : State} {r : Requester} {segs dflt} (hL : Legal s) (hw : s.tx r = .waiting segs dflt)
  : Legal (s.lockStep r segs dflt) := by
  have hreq : s.hasRequester r := State.hasRequester_of_tx (by simp [hw])
  rcases State.lockStep_cases s r segs dflt with ⟨hn, e⟩ | ⟨hn, _, e⟩ | ⟨hn, _, e⟩ <;> rw [e]
  · have htr : ∀ q, s.tx q ≠ .running := fun q hq => by
      have := (hL.lockHolder q).mpr hq; rw [hn] at this; cases this
    have hsegs : SegsLegal segs := by
      cases r with
      | client j =>
        have hj : j < s.clients.length := hreq
        have := (hL.clients j _ (List.getElem?_eq_getElem hj)).1.1
        rw [← State.tx_client (List.getElem?_eq_getElem hj), hw] at this
        exact this
      | init => have := hL.pwm.initTx; simp only [State.tx] at hw; rw [hw] at this; exact this
      | worker => have := hL.worker.tx; simp only [State.tx] at hw; rw [hw] at this; exact this
    have hb : EngineBusy (Engine.load segs dflt) := by
      refine ⟨by simp [Engine.load], hsegs, ?_, rfl, fun _ => rfl⟩
      cases hs : segs with
      | nil => exact absurd hs hsegs.1
      | cons a l => exact ⟨a, by simp [Engine.load], by simp [cursorFits, Engine.load]⟩
    have hto : (({ s with lockOwner := some r, eng := Engine.load segs dflt } : State).setTx r
        .running).transactionOpen = false := by
      simp [State.transactionOpen, Engine.load]
    have hso : s.transactionOpen = false := by simp [State.transactionOpen, hn]
    obtain ⟨h1,h2,h3,h4,h5,h6,h7,h8,h9⟩ := hL
    obtain ⟨p1,p2,p3,p4,p5,p6,p7⟩ := h7
    have hlk : ∀ q, (({ s with lockOwner := some r, eng := Engine.load segs dflt } : State).setTx r .running).lockOwner = some q ↔
       (({ s with lockOwner := some r, eng := Engine.load segs dflt } : State).setTx r .running).tx q = .running := by
      intro q
      by_cases hq : q = r
      · subst hq
        rw [State.tx_setTx_self]
        · simp
        · exact hreq
      · rw [State.tx_setTx_of_ne _ hq]
        have := htr q
        constructor
        · intro hh; simp at hh; exact absurd hh.symm hq
        · intro hh; exact absurd hh this
    cases r with
    | init =>
      simp only [State.tx] at hw
      refine ⟨h1, by rw [hto, ← hso]; exact h2, (by intro hh; cases hh), fun _ => hb, hlk, ?_, ⟨p1, p2, ?_, ?_, p5,
          p6, trivial⟩, h8, h9⟩
      · intro j c hc
        refine ⟨(h6 j c hc).1, ?_⟩
        intro hrd
        obtain ⟨a, b, _⟩ := (h6 j c hc).2 hrd
        exact ⟨a, b, by intro hh; cases hh⟩
      · intro hi; have := p3 hi; rw [hw] at this; simp at this; simp [State.setTx, this]
      · intro hi; have := p4 hi; rw [hw] at this; simp at this
    | worker =>
      simp only [State.tx] at hw
      obtain ⟨w1, w2, w3, w4, w5⟩ := h8
      refine ⟨h1, by rw [hto, ← hso]; exact h2, (by intro hh; cases hh), fun _ => hb, hlk, ?_, ⟨p1, p2, p3, p4, p5,
          p6, p7⟩, ⟨w1, w2, ?_, ?_, trivial⟩, h9⟩
      · intro j c hc
        refine ⟨(h6 j c hc).1, ?_⟩
        intro hrd
        obtain ⟨a, b, _⟩ := (h6 j c hc).2 hrd
        exact ⟨a, b, by intro hh; cases hh⟩
      · intro hi; have := w3 hi; rw [hw] at this; cases this
      · intro hi; have := w4 hi; rw [hw] at this; cases this
    | client j =>
      have hj : j < s.clients.length := hreq
      obtain ⟨c, hc⟩ : ∃ c, s.clients[j]? = some c := ⟨_, List.getElem?_eq_getElem hj⟩
      have htx : c.tx = .waiting segs dflt := by rw [← State.tx_client hc]; exact hw
      have hph : c.phase = .bus := by
        have := (h6 j c hc).1; simp only [ClientLegal] at this
        cases hp : c.phase <;> simp [hp, htx] at this ⊢
      have esq : ∀ k, (({ s with lockOwner := some (.client j), eng := Engine.load segs dflt } : State).setTx (.client j) .running).inSequence k ↔ s.inSequence k := by
        intro k
        by_cases hk : k = j
        · subst hk; simp [State.inSequence, State.setTx, hc, hph]
        · simp [State.inSequence, State.setTx, Ne.symm hk]
      refine ⟨h1, by rw [hto, ← hso]; exact h2, (by intro hh; cases hh), fun _ => hb, hlk, ?_, ⟨p1, p2, p3, p4,
          by simpa [esq] using p5, by simpa [esq] using p6, p7⟩, h8, ?_⟩
      · intro k d hd
        by_cases hk : k = j
        · subst hk
          have : d = { c with tx := .running } := by simp [State.setTx, hc] at hd; exact hd.symm
          subst this
          have h6' := h6 k c hc
          constructor
          · have := h6'.1; simp only [ClientLegal, hph] at this ⊢
            exact ⟨trivial, by simp, this.2.2⟩
          · intro hrd
            obtain ⟨a, b, _⟩ := h6'.2 hrd
            refine ⟨by simp, by simp, fun _ => ⟨?_, by simp [Engine.load]⟩⟩
            exact a segs dflt htx
        · have hd' : s.clients[k]? = some d := by simpa [State.setTx, Ne.symm hk] using hd
          refine ⟨(h6 k d hd').1, ?_⟩
          intro hrd
          obtain ⟨a, b, _⟩ := (h6 k d hd').2 hrd
          exact ⟨a, b, by intro hh; simp at hh; omega⟩
      · intro hd
        rcases h9 hd with h | h | ⟨k, d, hk, hd⟩
        · exact .inl h
        · exact .inr (.inl h)
        · refine .inr (.inr ⟨k, d, ?_, hd⟩)
          have hkj : k ≠ j := by rintro rfl; rw [hc] at hk; cases hk; rw [hph] at hd; cases hd
          simpa [State.setTx, Ne.symm hkj] using hk
  · -- timeout
    have hL' : Legal s.afterReply := by apply Legal.congr hL <;> simp
    have hw' : s.afterReply.tx r = .waiting segs dflt := by
      rw [← hw]; cases r <;> simp [State.tx]
    have hn' : s.afterReply.lockOwner ≠ some r := by
      intro hh; rw [hL'.lockHolder, hw'] at hh; cases hh
    have hreq' : s.afterReply.hasRequester r := State.hasRequester_of_tx (by simp [hw'])
    generalize s.afterReply = s at hL' hw' hn' hreq'
    cases r with
    | client j =>
      have hj : j < s.clients.length := hreq'
      obtain ⟨c, hc⟩ : ∃ c, s.clients[j]? = some c := ⟨_, List.getElem?_eq_getElem hj⟩
      have htx : c.tx = .waiting segs dflt := by rw [← State.tx_client hc]; exact hw'
      have h6 := hL'.clients j c hc
      have hph : c.phase = .bus := by
        have := h6.1; simp only [ClientLegal] at this
        cases hp : c.phase <;> simp [hp, htx] at this ⊢
      refine Legal.updClient hL' hc (by simp [htx]) ?_ ?_ (by simp) (by simp [hph])
      · have := h6.1; simp only [ClientLegal, hph] at this ⊢
        exact ⟨⟨rfl, by simp⟩, by simp, this.2.2⟩
      · intro hrd
        exact ⟨by simp, by simp, fun hh => absurd hh hn'⟩
    | init =>
      obtain ⟨h1,h2,h3,h4,h5,h6,h7,h8,h9⟩ := hL'
      obtain ⟨p1,p2,p3,p4,p5,p6,p7⟩ := h7
      simp only [State.tx] at hw'
      refine ⟨h1, h2, h3, h4, ?_, h6, ⟨p1, p2, ?_, ?_, p5, p6, ⟨rfl, by simp⟩⟩, h8, h9⟩
      · intro q; cases q with
        | client k => exact h5 (.client k)
        | worker => exact h5 .worker
        | init => constructor
                  · intro hh; exact absurd hh hn'
                  · intro hh; cases hh
      · intro hi; have := p3 hi; rw [hw'] at this; simp at this; simp [State.setTx, this]
      · intro hi; have := p4 hi; rw [hw'] at this; simp at this
    | worker =>
      obtain ⟨h1,h2,h3,h4,h5,h6,h7,h8,h9⟩ := hL'
      obtain ⟨w1, w2, w3, w4, w5⟩ := h8
      simp only [State.tx] at hw'
      obtain ⟨p1,p2,p3,p4,p5,p6,p7⟩ := h7
      refine ⟨h1, h2, h3, h4, ?_, h6, ⟨p1,p2,p3,p4,p5,p6,p7⟩, ⟨w1, w2, ?_, ?_, ⟨rfl, by simp⟩⟩, h9⟩
      · intro q; cases q with
        | client k => exact h5 (.client k)
        | init => exact h5 .init
        | worker => constructor
                    · intro hh; exact absurd hh hn'
                    · intro hh; cases hh
      · intro hi; have := w3 hi; rw [hw'] at this; cases this
      · intro hi; have := w4 hi; rw [hw'] at this; cases this
  · apply Legal.congr hL <;> simp

/-- A step that emits one event the trace allows and leaves the engine busy keeps a state legal. -/
theorem Legal.engineUpdate {s : State} {r : Requester} {e : Event} {g : Engine} (hL : Legal s)
    (ho : s.lockOwner = some r)
   (htr : traceNext (some s.transactionOpen) e = some (!(g.phase == .begin && g.k == 0)))
   (hb : EngineBusy g) (hsg : g.segs = s.eng.segs)
   (hst : g.status = s.eng.status ∨ g.status ≠ .busNackData ∨ ¬ allReads s.eng.segs) :
   Legal { s.afterReply.emit e with eng := g } := by
  have hL' : Legal s.afterReply := by apply Legal.congr hL <;> simp
  have ho' : s.afterReply.lockOwner = some r := by simpa using ho
  have : s.afterReply.transactionOpen = s.transactionOpen := by simp [State.transactionOpen]
  rw [← this] at htr
  have heng : s.afterReply.eng = s.eng := by simp
  rw [← heng] at hsg hst
  generalize s.afterReply = s at *
  obtain ⟨h1,h2,h3,h4,h5,h6,h7,h8,h9⟩ := hL'
  obtain ⟨p1,p2,p3,p4,p5,p6,p7⟩ := h7
  refine ⟨h1, ?_, (by intro hh; exact absurd (ho'.symm.trans hh) (by simp)), fun _ => hb,
      (by intro q; cases q <;> exact h5 _), ?_, ⟨p1,p2,p3,p4,p5,p6,p7⟩, h8, h9⟩
  · show scanTrace (s.trace ++ [e]) = _
    rw [scanTrace_append, h2, htr]; simp [State.transactionOpen, ho']
  · intro j c hc
    refine ⟨(h6 j c hc).1, fun hrd => ?_⟩
    obtain ⟨a, b, d⟩ := (h6 j c hc).2 hrd
    refine ⟨a, b, fun hh => ?_⟩
    obtain ⟨d1, d2⟩ := d hh
    refine ⟨by simpa [hsg] using d1, ?_⟩
    rcases hst with h | h | h
    · simpa [h] using d2
    · exact h
    · exact absurd d1 h

/-- `Next()` keeps the engine busy. -/
theorem EngineBusy.next {e : Engine} (h : SegsLegal e.segs) (hs : e.status = .ok)
    (hk : e.k < e.segs.length) : EngineBusy e.next := by
  rcases Engine.next_cases e with ⟨hl, he⟩ | ⟨hl, he⟩ <;> rw [he]
  · exact ⟨by simp, h, ⟨e.segs[e.k+1], by simp [hl], by simp [cursorFits]⟩, by simp [hs]; rfl, fun _ => hs⟩
  · exact ⟨by simp, h, ⟨e.segs[e.k], by simp [hk], by simp [cursorFits]⟩, by simp [hs]; rfl, fun _ => hs⟩
/-- The fault path (R144) keeps the engine busy. -/
theorem EngineBusy.fail {e : Engine} (st) (h : SegsLegal e.segs) (hs : st.fromBus = true)
    (hk : e.k < e.segs.length) : EngineBusy (e.fail st) :=
  ⟨by simp [Engine.fail], h, ⟨e.segs[e.k], by simp [Engine.fail, hk], by simp [Engine.fail, cursorFits]⟩, hs,
      by simp [Engine.fail]⟩
/-- After `Next()` the transaction has begun. -/
theorem Engine.next_open (e : Engine) : (!(e.next.phase == .begin && e.next.k == 0)) = true := by
  rcases Engine.next_cases e with ⟨hl, he⟩ | ⟨hl, he⟩ <;> rw [he] <;> simp
/-- `Next()` keeps the segments and the status. -/
theorem Engine.next_keeps (e : Engine) : e.next.segs = e.segs ∧ e.next.status = e.status := by
  rcases Engine.next_cases e with ⟨hl, he⟩ | ⟨hl, he⟩ <;> rw [he] <;> simp

/-- Counting a byte done keeps the engine busy, the transaction begun, and the segments and status as they were. -/
theorem EngineBusy.byteDone {e : Engine} {seg} (h : SegsLegal e.segs) (hs : e.status = .ok)
    (hseg : e.segs[e.k]? = some seg)
   (hi : e.i < seg.len.toNat) (hph : (e.phase = .wdata ∧ seg.dir = .write) ∨ (e.phase = .rdata ∧ seg.dir = .read)) :
   EngineBusy (e.byteDone seg) ∧ (!((e.byteDone seg).phase == .begin && (e.byteDone seg).k == 0)) = true ∧
       (e.byteDone seg).segs = e.segs
    ∧ (e.byteDone seg).status = e.status := by
  have hk : e.k < e.segs.length := by
    by_contra hn; rw [List.getElem?_eq_none (by omega)] at hseg; cases hseg
  unfold Engine.byteDone
  split
  · exact ⟨EngineBusy.next h hs hk, Engine.next_open _, (Engine.next_keeps _).1, (Engine.next_keeps _).2⟩
  · refine ⟨⟨?_, h, ⟨seg, hseg, ?_⟩, by simp [hs]; rfl, fun _ => hs⟩, ?_, rfl, rfl⟩
    · rcases hph with ⟨h, _⟩ | ⟨h, _⟩ <;> simp [h]
    · rcases hph with ⟨h, hd⟩ | ⟨h, hd⟩ <;> simp [cursorFits, h, hd] <;> omega
    · rcases hph with ⟨h, _⟩ | ⟨h, _⟩ <;> simp [h]

/-- The STOP step (R145) keeps a state legal. -/
theorem Legal.engineStop_keeps {s : State} {r} (hL : Legal s) (ho : s.lockOwner = some r)
    (hp : s.eng.phase = .stop) : Legal (engineStop s r) := by
  have hb := hL.lockHeld (by simp [ho])
  have hrun : s.tx r = .running := (hL.lockHolder r).mp ho
  have hreq : s.hasRequester r := State.hasRequester_of_tx (by simp [hrun])
  have honly : ∀ q, q ≠ r → s.tx q ≠ .running := by
    intro q hq hh; have := (hL.lockHolder q).mpr hh; rw [ho] at this; cases this; exact hq rfl
  have htx : TxLegal s.eng.result := by
    refine ⟨hb.status, ?_⟩
    by_cases hh : s.eng.status = .ok <;> simp [hh]
  have hnr : s.eng.result ≠ .running := by simp [Engine.result]
  have hni : s.eng.result ≠ .idle := by simp [Engine.result]
  have hto : s.transactionOpen = true := by simp [State.transactionOpen, ho, hp]
  have hs2 : scanTrace (s.trace ++ [.stop]) = some false := by
    rw [scanTrace_append, hL.trace, hto]; rfl
  obtain ⟨h1,h2,h3,h4,h5,h6,h7,h8,h9⟩ := hL
  obtain ⟨p1,p2,p3,p4,p5,p6,p7⟩ := h7
  have hlk : ∀ q, (engineStop s r).tx q ≠ .running := by
    intro q
    unfold engineStop
    by_cases hq : q = r
    · subst hq; rw [State.tx_setTx_self]; exact hnr
      cases q <;> exact hreq
    · rw [State.tx_setTx_of_ne _ hq]; cases q <;> exact honly _ hq
  cases r with
  | init =>
    simp only [State.tx] at hrun
    refine ⟨h1, hs2, fun _ => rfl, fun hh => absurd rfl hh, fun q => ⟨(fun hh => by cases hh),
        fun hh => absurd hh (hlk q)⟩, ?_, ⟨p1, p2, ?_, ?_, p5, p6, htx⟩, h8, h9⟩
    · intro j c hc
      refine ⟨(h6 j c hc).1, fun hrd => ?_⟩
      obtain ⟨a, b, d⟩ := (h6 j c hc).2 hrd
      exact ⟨a, b, fun hh => by cases hh⟩
    · intro hi; have := p3 hi; rw [hrun] at this; simp at this
      simp [engineStop, State.setTx, this, Engine.result]
    · intro hi; have := p4 hi; rw [hrun] at this; simp at this
  | worker =>
    obtain ⟨w1, w2, w3, w4, w5⟩ := h8
    simp only [State.tx] at hrun
    refine ⟨h1, hs2, fun _ => rfl, fun hh => absurd rfl hh, fun q => ⟨(fun hh => by cases hh),
        fun hh => absurd hh (hlk q)⟩, ?_, ⟨p1, p2, p3, p4, p5, p6, p7⟩, ⟨w1, w2, ?_, ?_, htx⟩, h9⟩
    · intro j c hc
      refine ⟨(h6 j c hc).1, fun hrd => ?_⟩
      obtain ⟨a, b, d⟩ := (h6 j c hc).2 hrd
      exact ⟨a, b, fun hh => by cases hh⟩
    · intro hi; have := w3 hi; rw [hrun] at this; cases this
    · intro hi; have := w4 hi; rw [hrun] at this; cases this
  | client j =>
    have hj : j < s.clients.length := hreq
    obtain ⟨c, hc⟩ : ∃ c, s.clients[j]? = some c := ⟨_, List.getElem?_eq_getElem hj⟩
    have htx' : c.tx = .running := by rw [← State.tx_client hc]; exact hrun
    have hph : c.phase = .bus := by
      have := (h6 j c hc).1; simp only [ClientLegal] at this
      cases hp : c.phase <;> simp [hp, htx'] at this ⊢
    have esq : ∀ k, (engineStop s (.client j)).inSequence k ↔ s.inSequence k := by
      intro k
      by_cases hk : k = j
      · subst hk; simp [engineStop, State.inSequence, State.setTx, hc, hph]
      · simp [engineStop, State.inSequence, State.setTx, Ne.symm hk]
    refine ⟨h1, hs2, fun _ => rfl, fun hh => absurd rfl hh, fun q => ⟨(fun hh => by cases hh),
        fun hh => absurd hh (hlk q)⟩, ?_, ⟨p1, p2, p3, p4, (by simp only [esq]; exact p5),
        (by simp only [esq]; exact p6), p7⟩, h8, ?_⟩
    · intro k d hd
      by_cases hk : k = j
      · subst hk
        have : d = { c with tx := s.eng.result } := by simp [engineStop, State.setTx, hc] at hd; exact hd.symm
        subst this
        have h6' := h6 k c hc
        constructor
        · have := h6'.1; simp only [ClientLegal, hph] at this ⊢
          exact ⟨htx, hni, this.2.2⟩
        · intro hrd
          obtain ⟨a, b, d⟩ := h6'.2 hrd
          refine ⟨by simp [Engine.result], ?_, fun hh => by cases hh⟩
          intro st rx he
          simp [Engine.result] at he
          rw [← he.1]
          exact (d ho).2
      · have hd' : s.clients[k]? = some d := by simpa [engineStop, State.setTx, Ne.symm hk] using hd
        refine ⟨(h6 k d hd').1, ?_⟩
        intro hrd
        obtain ⟨a, b, _⟩ := (h6 k d hd').2 hrd
        exact ⟨a, b, fun hh => by cases hh⟩
    · intro hd
      rcases h9 hd with h | h | ⟨k, d, hk, hd⟩
      · exact .inl h
      · exact .inr (.inl h)
      · refine .inr (.inr ⟨k, d, ?_, hd⟩)
        have hkj : k ≠ j := by rintro rfl; rw [hc] at hk; cases hk; rw [hph] at hd; cases hd
        simpa [engineStop, State.setTx, Ne.symm hkj] using hk

/-- A failed address byte ends with a status of the bus, and not with BUS_NACK_DATA (R138). -/
theorem addrFailure_fromBus {r st} (h : addrFailure r = some st) : st.fromBus = true ∧ st ≠ .busNackData := by
  cases r <;> simp [addrFailure] at h <;> subst h <;> decide
/-- A failed data byte ends with a status of the bus (R140). -/
theorem dataFailure_fromBus {r st} (h : dataFailure r = some st) : st.fromBus = true := by
  cases r <;> simp [dataFailure] at h <;> subst h <;> decide

/-- An engine step keeps a state legal. -/
theorem Legal.engineStep_keeps {s : State} (hL : Legal s) : Legal (engineStep s) := by
  rcases engineStep_cases s with e | ⟨r, ho, h⟩
  · rw [e]; exact hL
  have hb := hL.lockHeld (by simp [ho])
  obtain ⟨seg0, hseg0, hcur⟩ := hb.cursor
  have hk : s.eng.k < s.eng.segs.length := by
    by_contra hn; rw [List.getElem?_eq_none (by omega)] at hseg0; cases hseg0
  rcases h with ⟨hp, e⟩ | ⟨seg, hp, hs, e⟩ | ⟨seg, d, hp, hs, hd, e⟩ | ⟨seg, hp, hs, e⟩ | ⟨hp, e⟩ <;> rw [e]
  · -- begin
    have hok := hb.okYet (by simp [hp])
    -- no reply drawn here
    unfold engineBegin
    have hL' := hL
    obtain ⟨h1,h2,h3,h4,h5,h6,h7,h8,h9⟩ := hL
    obtain ⟨p1,p2,p3,p4,p5,p6,p7⟩ := h7
    refine ⟨h1, ?_, (by intro hh; simp [ho] at hh), fun _ => ⟨by simp, hb.segs, ⟨seg0, hseg0, by simp [cursorFits]⟩,
        hb.status, fun _ => hok⟩, (by intro q; cases q <;> exact h5 _), ?_, ⟨p1,p2,p3,p4,p5,p6,p7⟩, h8, h9⟩
    · show scanTrace (s.trace ++ [_]) = _
      rw [scanTrace_append, h2]; simp [State.transactionOpen, ho, hp]
      by_cases hk0 : s.eng.k = 0
      · simp [hk0, traceNext]
      · have : (s.eng.k == 0) = false := by simp [hk0]
        simp [hk0, traceNext, this]
    · intro j c hc
      exact ⟨(h6 j c hc).1, (h6 j c hc).2⟩
  · have hs' : s.eng.segs[s.eng.k]? = some seg := hs
    rw [hs'] at hseg0; obtain rfl := Option.some.inj hseg0
    have hi : s.eng.i = 0 := by simpa [cursorFits, hp] using hcur
    have hok := hb.okYet (by simp [hp])
    have hop : s.transactionOpen = true := by simp [State.transactionOpen, ho, hp]
    unfold engineAddr
    rcases Engine.afterAddr_cases s.eng seg s.reply.target with ⟨st, hf, e⟩ | ⟨hr, hd, e⟩ | ⟨hr, hd, hl, e⟩ | ⟨hr,
        hd, hl, e⟩ <;> rw [e]
    · exact Legal.engineUpdate hL ho (by simp [hop, traceNext,
        Engine.fail]) (EngineBusy.fail st hb.segs (addrFailure_fromBus hf).1 hk) rfl (.inr (.inl
        (addrFailure_fromBus hf).2))
    · refine Legal.engineUpdate hL ho (by simp [hop, traceNext]) ⟨by simp, hb.segs, ⟨seg, hs', ?_⟩, hb.status,
        fun _ => hok⟩ rfl (.inl rfl)
      have hmem : seg ∈ s.eng.segs := List.mem_of_getElem? hs'
      have := hb.segs.2
      simp only [List.all_eq_true] at this
      have := this seg hmem
      simp [segLegal, segLenOk, hd] at this
      simp [cursorFits, hd, hi]
      have h2 := this.2
      rcases Nat.eq_zero_or_pos seg.len.toNat with h0 | h0
      · exfalso; apply h2; apply BitVec.eq_of_toNat_eq; simpa using h0
      · exact h0
    · exact Legal.engineUpdate hL ho (by rw [Engine.next_open, hop]; rfl)
        (EngineBusy.next hb.segs hok hk) (Engine.next_keeps _).1 (.inl (Engine.next_keeps _).2)
    · refine Legal.engineUpdate hL ho (by simp [hop, traceNext]) ⟨by simp, hb.segs, ⟨seg, hs', ?_⟩, hb.status,
        fun _ => hok⟩ rfl (.inl rfl)
      simp [cursorFits, hd, hi]
      rcases Nat.eq_zero_or_pos seg.len.toNat with h0 | h0
      · exfalso; apply hl; apply BitVec.eq_of_toNat_eq; simpa using h0
      · exact h0
  · have hs' : s.eng.segs[s.eng.k]? = some seg := hs
    rw [hs'] at hseg0; obtain rfl := Option.some.inj hseg0
    have hi : seg.dir = .write ∧ s.eng.i < seg.len.toNat := by simpa [cursorFits, hp] using hcur
    have hok := hb.okYet (by simp [hp])
    have hop : s.transactionOpen = true := by simp [State.transactionOpen, ho, hp]
    have hna : ¬ allReads s.eng.segs := fun ha => by
      have := ha seg (List.mem_of_getElem? hs'); rw [hi.1] at this; cases this
    unfold engineWData Engine.afterTx
    cases hf : dataFailure s.reply.target with
    | some st => exact Legal.engineUpdate hL ho (by simp [hop, traceNext,
        Engine.fail]) (EngineBusy.fail st hb.segs (dataFailure_fromBus hf) hk) rfl (.inr (.inr hna))
    | none =>
      obtain ⟨a, b, c, d⟩ := EngineBusy.byteDone hb.segs hok hs' hi.2 (.inl ⟨hp, hi.1⟩)
      exact Legal.engineUpdate hL ho (by rw [b, hop]; rfl) a c (.inl d)
  · have hs' : s.eng.segs[s.eng.k]? = some seg := hs
    rw [hs'] at hseg0; obtain rfl := Option.some.inj hseg0
    have hi : seg.dir = .read ∧ s.eng.i < seg.len.toNat := by simpa [cursorFits, hp] using hcur
    have hok := hb.okYet (by simp [hp])
    have hop : s.transactionOpen = true := by simp [State.transactionOpen, ho, hp]
    unfold engineRData Engine.afterRx
    cases hx : s.reply.rx with
    | fail f => exact Legal.engineUpdate hL ho (by simp [hop, traceNext, Engine.fail,
        rxEvent]) (EngineBusy.fail _ hb.segs (by cases f <;> rfl) hk) rfl (.inr (.inl
        (by cases f <;> simp [rxFailureStatus, Engine.fail])))
    | byte v =>
      obtain ⟨a, b, c, d⟩ := EngineBusy.byteDone (e := { s.eng with rx := s.eng.rx ++ [v] }) hb.segs hok hs' hi.2
          (.inr ⟨hp, hi.1⟩)
      exact Legal.engineUpdate hL ho (by simp only [b, hop]; rfl) a c (.inl d)
  · exact Legal.engineStop_keeps hL ho hp

/-- What `PwmLegal` reads. -/
theorem PwmLegal.congr {s : State} (t : State) (h : PwmLegal s) (e6 : t.pwmState = s.pwmState)
    (e7 : t.pwmAddr = s.pwmAddr)
   (e8 : t.pwmPrescale = s.pwmPrescale) (e9 : t.initStep = s.initStep) (e10 : t.initTx = s.initTx)
       (e14 : t.busInit = s.busInit) (e5 : t.clients = s.clients) : PwmLegal t := by
  obtain ⟨p1,p2,p3,p4,p5,p6,p7⟩ := h
  have esq : ∀ j, t.inSequence j ↔ s.inSequence j := by intro j; simp [State.inSequence, *]
  exact ⟨by simpa [*] using p1, by simpa [*] using p2, by simpa [*] using p3, by simpa [*] using p4, by simpa [esq,
      e6] using p5, by simpa [esq] using p6, by simpa [*] using p7⟩

/-- A change of the worker's registers, the mask, the wake count and the fault log keeps a state legal when the new
registers are legal and dirty bits stay pending. -/
theorem Legal.workerUpdate {s : State} (w : Worker) (d : BitVec 16) (n : Nat) (fl : List FlushFault) (hL : Legal s)
    (hw : WorkerLegal w)
   (ht : w.tx = .running ↔ s.wk.tx = .running) (hd : DirtyIsPending { s with wk := w, dirty := d, wake := n }) :
   Legal { s with wk := w, dirty := d, wake := n, flog := fl } := by
  obtain ⟨h1,h2,h3,h4,h5,h6,h7,h8,h9⟩ := hL
  refine ⟨h1, h2, h3, h4, ?_, h6, PwmLegal.congr _ h7 rfl rfl rfl rfl rfl rfl rfl, hw, hd⟩
  intro q
  cases q with
  | client j => exact h5 (.client j)
  | init => exact h5 .init
  | worker => rw [h5 .worker]; simp only [State.tx]; exact ht.symm

/-- The transactions of the sequence (R241) are legal. -/
theorem segsLegal_initSegs {k p} (h1 : 1 ≤ k) (h6 : k ≤ 6) : SegsLegal (initSegs k p) := by
  have : k = 1 ∨ k = 2 ∨ k = 3 ∨ k = 4 ∨ k = 5 ∨ k = 6 := by omega
  rcases this with rfl | rfl | rfl | rfl | rfl | rfl <;> exact ⟨by simp [initSegs], by simp [initSegs, segLegal,
      segCountOk, segLenOk, Segment.w, Segment.r, mode1Frame, prescaleFrame]⟩

/-- A worker step keeps a state legal. -/
theorem Legal.workerStep_keeps {s : State} (hL : Legal s) : Legal (workerStep s) := by
  have hw := hL.worker
  obtain ⟨w1, w2, w3, w4, w5⟩ := hL.worker
  rcases workerStep_cases s with e | ⟨hp, hwk, e⟩ | ⟨hp, e⟩ | ⟨hp, hc, ht, e⟩ | ⟨segs, dflt, hp, hc, ht, e⟩ | ⟨st,
      rx, hp, hc, ht, e⟩ | ⟨hp, hc, e⟩ <;> rw [e]
  · exact hL
  · have ht := w3 (by simp [hp])
    exact Legal.workerUpdate { s.wk with phase := .capture } s.dirty _ s.flog hL ⟨w1, by simp, fun _ => ht, w4,
        w5⟩ (by simp) (fun _ => .inr (.inl (by simp)))
  · have ht := w3 (by simp [hp])
    unfold workerCapture
    refine Legal.workerUpdate (s.wk.captured s.dirty) 0#16 s.wake s.flog hL ?_ ?_ (fun h => absurd rfl h)
    · unfold Worker.captured
      split
      · exact ⟨w1, by simp, fun _ => ht, fun h => w4 h, w5⟩
      · rename_i hm
        obtain ⟨a, b⟩ := lowestFrom_zero_lt hm
        exact ⟨by simp; omega, fun _ _ => b, fun _ => ht, fun h => ht, by simpa using w5⟩
    · unfold Worker.captured; split <;> simp
  · unfold workerFrame
    refine Legal.workerUpdate { s.wk with tx := .waiting (flushSegs s.wk.ch (s.duty s.wk.ch)) s.pwmAddr }
        s.dirty s.wake s.flog hL ⟨w1, w2, ?_, ?_, ?_⟩ (by simp [ht]) ?_
    · simp [hp]
    · simp; omega
    · refine ⟨by simp [flushSegs], ?_⟩
      simp [flushSegs, segLegal, segCountOk, segLenOk, Segment.w, ledFrame, ledBytes]
    · intro hd; exact .inr (.inl (by simp [hp]))
  · exact Legal.lockStep_keeps hL (r := .worker) ht
  · unfold workerNext
    have key : WorkerLegal { s.wk with ch := lowestFrom s.wk.mask (s.wk.ch + 1), tx := .idle } := by
      rcases lowestFrom_spec s.wk.mask (s.wk.ch+1) with ⟨a, b⟩ | ⟨a, b, c, d⟩
      · exact ⟨by simp; omega, by simp; omega, fun _ => rfl, fun _ => rfl, trivial⟩
      · exact ⟨by simp; omega, fun _ _ => c, fun _ => rfl, fun _ => rfl, trivial⟩
    by_cases hst : st = .ok
    · simp only [hst, if_true]
      exact Legal.workerUpdate _ s.dirty s.wake s.flog hL key (by simp [ht]) (fun hd => .inr (.inl (by simp [hp])))
    · simp only [hst, if_false]
      exact Legal.workerUpdate _ s.dirty s.wake (s.flog ++ [⟨s.wk.ch,
          st⟩]) hL key (by simp [ht]) (fun hd => .inr (.inl (by simp [hp])))
  · unfold workerEndPass
    have h16 : s.wk.ch = 16 := by omega
    have ht := w4 h16
    exact Legal.workerUpdate { s.wk with phase := .capture } s.dirty s.wake s.flog hL ⟨w1, by simp, fun _ => ht, w4,
        w5⟩ (by simp) (fun _ => .inr (.inl (by simp)))

/-- A step of the sequence from one of its steps to the next keeps a state legal. -/
theorem Legal.initUpdate {s : State} (k : Nat) (x : Transact) (tr : List Event) (hL : Legal s) (h1k : 1 ≤ k)
    (h7k : k ≤ 7) (hx : k = 7 ↔ x = .idle)
   (hs : s.pwmState = .initializing) (ht : x ≠ .running) (ht' : s.initTx ≠ .running) (hxl : TxLegal x)
       (htr : scanTrace tr = some s.transactionOpen) :
   Legal { s with initStep := k, initTx := x, trace := tr } := by
  obtain ⟨h1,h2,h3,h4,h5,h6,h7,h8,h9⟩ := hL
  obtain ⟨p1,p2,p3,p4,p5,p6,p7⟩ := h7
  refine ⟨h1, htr, h3, h4, ?_, h6, ⟨p1, fun _ => ⟨h1k, h7k⟩, fun _ => hx, fun h => absurd hs h, p5, p6, hxl⟩, h8, h9⟩
  intro q
  cases q with
  | client j => exact h5 (.client j)
  | worker => exact h5 .worker
  | init => rw [h5 .init]; simp only [State.tx]; exact ⟨fun h => absurd h ht', fun h => absurd h ht⟩

/-- The end of the sequence (R247, R248) keeps a state legal. -/
theorem Legal.endSequence_keeps {s : State} {j c} (p : PwmState) (f : Client → Client) (hL : Legal s)
    (hc : s.clients[j]? = some c) (hph : c.phase = .sequence)
   (hp : p = .ready ∨ p = .failed) (ht : s.initTx ≠ .running) (hft : (f c).tx = .idle) (hfp : (f c).phase ≠ .sequence)
   (hfc : ClientLegal (f c)) (hfr : ∀ fd len, (f c).instr ≠ some (.readDesc fd len)) :
   Legal ({ s with pwmState := p, initStep := 0, initTx := .idle }.updClient j f) := by
  have hcl := hL.clients j c hc
  have hin : s.inSequence j := ⟨c, hc, hph⟩
  have htx : c.tx = .idle := by have := hcl.1; simp only [ClientLegal, hph] at this; exact this.2.1
  obtain ⟨h1,h2,h3,h4,h5,h6,h7,h8,h9⟩ := hL
  obtain ⟨p1,p2,p3,p4,p5,p6,p7⟩ := h7
  have hc' : ({ s with pwmState := p, initStep := 0, initTx := .idle } : State).clients[j]? = some c := hc
  have hnseq : ∀ k, ¬ ({ s with pwmState := p, initStep := 0, initTx := .idle }.updClient j f : State).inSequence k := by
    intro k ⟨d, hd, hdp⟩
    by_cases hk : k = j
    · subst hk; rw [State.updClient_self _ hc'] at hd
      cases hd; exact hfp hdp
    · rw [State.updClient_of_ne _ _ hk] at hd
      exact hk (p6 k j ⟨d, hd, hdp⟩ hin)
  have hni : s.pwmState = .initializing := p5.mpr ⟨j, hin⟩
  refine ⟨h1, h2, h3, h4, ?_, ?_, ⟨fun _ => p1 (by simp [hni]), ?_, ?_, fun _ => ⟨rfl, rfl⟩, ?_, ?_, trivial⟩, h8, ?_⟩
  · intro q
    rw [State.tx_updClient _ hc']
    split
    · subst_vars
      have := h5 (.client j)
      rw [State.tx_client hc, htx] at this
      rw [hft]
      constructor
      · intro hh; have := this.mp hh; cases this
      · intro hh; cases hh
    · cases q with
      | client k => exact h5 (.client k)
      | worker => exact h5 .worker
      | init => have := h5 .init
                simp only [State.tx] at this ⊢
                constructor
                · intro hh; exact absurd (this.mp hh) ht
                · intro hh; cases hh
  · intro k d hd
    by_cases hk : k = j
    · subst hk; rw [State.updClient_self _ hc'] at hd; cases hd
      exact ⟨hfc, fun ⟨fd, len, he⟩ => absurd he (hfr fd len)⟩
    · rw [State.updClient_of_ne _ _ hk] at hd
      exact h6 k d hd
  · intro hi; rcases hp with rfl | rfl <;> cases hi
  · intro hi; rcases hp with rfl | rfl <;> cases hi
  · constructor
    · intro hi; rcases hp with rfl | rfl <;> cases hi
    · intro ⟨k, hk⟩; exact absurd hk (hnseq k)
  · intro k l hk; exact absurd hk (hnseq k)
  · intro hd
    rcases h9 hd with h | h | ⟨k, d, hk, hdp⟩
    · exact .inl h
    · exact .inr (.inl h)
    · refine .inr (.inr ⟨k, d, ?_, hdp⟩)
      have hkj : k ≠ j := by rintro rfl; rw [hc] at hk; cases hk; rw [hph] at hdp; cases hdp
      rw [State.updClient_of_ne _ _ hkj]; exact hk

/-- A step of the sequence keeps a state legal. -/
theorem Legal.initSequenceStep_keeps {s : State} {c} (hL : Legal s) (hc : s.clients[s.env.cur]? = some c)
    (hph : c.phase = .sequence) : Legal (initSequenceStep s) := by
  have hin : s.inSequence s.env.cur := ⟨c, hc, hph⟩
  have hni : s.pwmState = .initializing := hL.pwm.runner.mpr ⟨_, hin⟩
  have hrange := hL.pwm.stepRange hni
  have h7i := hL.pwm.lastStep hni
  rcases initSequenceStep_cases s with e | ⟨segs, dflt, ht, e⟩ | ⟨rx, ht, hs, e⟩ | ⟨rx, ht, hs, h6, ho, e⟩ | ⟨rx,
      ht, h6, ho, e⟩ | ⟨st, rx, ht, hst, e⟩ | ⟨ht, hs, e⟩ <;> rw [e]
  · exact hL
  · exact Legal.lockStep_keeps hL (r := .init) ht
  · exact Legal.initUpdate 2 _ s.trace hL (by omega) (by omega) (by simp) hni (by simp) (by simp [ht])
      (segsLegal_initSegs (by omega) (by omega)) hL.trace
  · refine Legal.initUpdate (s.initStep + 1) (.waiting (initSegs (s.initStep+1) s.pwmPrescale) s.pwmAddr)
      (s.trace ++ [.delay Config.tSettle]) hL (by omega) (by omega) (by simp; omega) hni (by simp) (by simp [ht])
      (segsLegal_initSegs (by omega) (by omega)) ?_
    rw [scanTrace_append, hL.trace]; simp [State.transactionOpen, ho, traceNext]
  · refine Legal.initUpdate 7 .idle (s.trace ++ [.delay Config.tSettle]) hL (by omega) (by omega) (by simp) hni
      (by simp) (by simp [ht]) trivial ?_
    rw [scanTrace_append, hL.trace]; simp [State.transactionOpen, ho, traceNext]
  · have hcl := (hL.clients _ c hc).1
    simp only [ClientLegal, hph] at hcl
    obtain ⟨_, htx, freq, addr, hi⟩ := hcl
    have hst' : st.fromBus = true := by
      have := hL.pwm.initTx
      rw [ht] at this
      exact this.1
    refine Legal.endSequence_keeps .failed (fun c => { c with phase := .respond ⟨initFailure s.initStep st, .none⟩ }) hL hc hph
      (.inr rfl) (by simp [ht]) htx (by simp) ⟨by simp [htx, TxLegal], htx, _, hi, rfl, ?_, ?_⟩ (fun fd len he => ?_)
    · unfold initFailure
      split
      · simp [allowedStatuses]
      · cases st <;> simp_all [allowedStatuses, Status.fromBus, Status.isBusFault]
    · unfold initFailure
      split
      · rfl
      · cases st <;> simp_all [Status.isCallerError, Status.fromBus, Status.isBusFault]
    · have he' : c.instr = some (.readDesc fd len) := he
      rw [hi] at he'; cases he'
  · have := Legal.endSequence_keeps .ready (fun _ => Client.answered ⟨.ok, .none⟩) hL hc hph (.inl rfl) (by simp [ht]) rfl
      (by simp [Client.answered]) (by simp [ClientLegal, Client.answered, TxLegal])
      (by simp [Client.answered, Client.instr])
    unfold initComplete State.respond
    have hs' : ({ s with pwmState := .ready, initStep := 0, initTx := .idle } : State) = { s with pwmState := .ready, initStep := 0 } := by rw [← ht]
    rw [hs'] at this
    exact this

/-- Latching and starting the sequence (R240) keeps a state legal. -/
theorem Legal.beginSequence_keeps {s : State} {c p addr freq} (hL : Legal s) (hc : s.clients[s.env.cur]? = some c)
    (hi : c.instr = some (.pwmInit freq addr))
   (hph : c.phase ≠ .sequence) (hpr : ∀ r, c.phase ≠ .respond r) (hu : s.pwmState = .uninit) (hb : s.busInit = true) (ha : addr ≠ 0#7)
       (hp : computePrescaler Config.oscHz freq.toNat = some p) :
   Legal (({ s with pwmState := .initializing, pwmAddr := addr, pwmPrescale := p }.beginInit 1).setPhase .sequence) := by
  have hcl := hL.clients _ c hc
  have hst : c.phase = .start := by
    have := hcl.1; simp only [ClientLegal] at this
    cases hp : c.phase <;> simp [hp, hi, Instr.usesBus] at this hph hpr ⊢
  have htx : c.tx = .idle := by have := hcl.1; simp only [ClientLegal, hst] at this; exact this.2
  obtain ⟨h1,h2,h3,h4,h5,h6,h7,h8,h9⟩ := hL
  obtain ⟨p1,p2,p3,p4,p5,p6,p7⟩ := h7
  have hno : ∀ k, ¬ s.inSequence k := fun k hk => by have := p5.mpr ⟨k, hk⟩; rw [hu] at this; cases this
  have hidle := (p4 (by simp [hu])).2
  have hpre : Config.prescaleMin ≤ p.toNat := by
    unfold computePrescaler at hp
    split at hp; cases hp
    simp only at hp
    split at hp; cases hp
    split at hp; cases hp
    rename_i hh
    simp only [Config.prescaleMin, Config.prescaleMax] at hh ⊢
    cases hp
    simp
    omega
  set t := (({ s with pwmState := .initializing, pwmAddr := addr, pwmPrescale := p } : State).beginInit 1).setPhase .sequence with htdef
  have hself : t.clients[s.env.cur]? = some { c with phase := .sequence } := by
    simp [htdef, State.beginInit, hc]
  have hother : ∀ k, k ≠ s.env.cur → t.clients[k]? = s.clients[k]? := by
    intro k hk; simp [htdef, State.beginInit, Ne.symm hk]
  have hseq : ∀ k, t.inSequence k ↔ k = s.env.cur := by
    intro k
    constructor
    · intro ⟨d, hd, hdp⟩
      by_contra hk
      rw [hother k hk] at hd
      exact hno k ⟨d, hd, hdp⟩
    · rintro rfl; exact ⟨_, hself, rfl⟩
  refine ⟨h1, h2, h3, h4, ?_, ?_, ⟨fun _ => ⟨hb, ha, hpre⟩, fun _ => ⟨Nat.le_refl 1, (by show 1 ≤ 7; omega)⟩,
      fun _ => ⟨(fun h => absurd h (by show ¬ 1 = 7; omega)), (fun h => by cases h)⟩, fun h => absurd rfl h,
      ⟨fun _ => ⟨_, (hseq _).mpr rfl⟩, fun _ => rfl⟩, fun j k hj hk => ((hseq j).mp hj).trans ((hseq k).mp hk).symm,
      segsLegal_initSegs (by omega) (by omega)⟩, h8, ?_⟩
  · intro q
    show s.lockOwner = some q ↔ _
    cases q with
    | worker => exact h5 .worker
    | init => rw [h5 .init]; simp only [State.tx]; rw [hidle]; exact ⟨(fun h => by cases h), (fun h => by cases h)⟩
    | client k =>
      rw [h5 (.client k)]
      by_cases hk : k = s.env.cur
      · rw [hk, State.tx_client hself, State.tx_client hc]
      · simp only [State.tx, List.getD, hother k hk]
  · intro k d hd
    by_cases hk : k = s.env.cur
    · subst hk; rw [hself] at hd; cases hd
      refine ⟨?_, ?_⟩
      · simp only [ClientLegal]; exact ⟨by simp [htx, TxLegal], by simp [htx], freq, addr, hi⟩
      · intro ⟨fd, len, he⟩
        have hcc : ({ c with phase := .sequence } : Client).instr = c.instr := rfl
        rw [hcc, hi] at he; cases he
    · rw [hother k hk] at hd
      exact h6 k d hd
  · intro hd
    rcases h9 hd with h | h | ⟨k, d, hk, hdp⟩
    · exact .inl h
    · exact .inr (.inl h)
    · refine .inr (.inr ⟨k, d, ?_, hdp⟩)
      have hkj : k ≠ s.env.cur := by rintro rfl; rw [hc] at hk; cases hk; rw [hst] at hdp; cases hdp
      rw [hother k hkj]; exact hk

end Sys2Proof.Machine
end

