-- ==== Sys2Proof/Laws/PerInstr.lean ====
section
/-! SUPPORT. Statements made for every command, one lemma per constructor. -/

namespace Sys2Proof.Laws.TableBits

/-- R96, R97: the command's word has its row's opcode in CW[31:24] and no reserved bit of its row's format set. -/
def Statement (i : Instr) : Prop :=
  Word.op (encode i).cw = i.opcode.code ∧ (encode i).cw &&& i.opcode.format.reserved = 0#32

theorem busInit : Statement .busInit :=
  ⟨op_encode _, encode_reserved_zero _⟩

theorem execute (nseg : BitVec 8) (addr : Addr7) (segs : List Segment) : Statement (.execute nseg addr segs) :=
  ⟨op_encode _, encode_reserved_zero _⟩

theorem pwmInit (freq : BitVec 16) (addr : Addr7) : Statement (.pwmInit freq addr) :=
  ⟨op_encode _, encode_reserved_zero _⟩

theorem setDuty (ch : BitVec 8) (val : BitVec 16) : Statement (.setDuty ch val) :=
  ⟨op_encode _, encode_reserved_zero _⟩

theorem getDuty (ch : BitVec 8) : Statement (.getDuty ch) :=
  ⟨op_encode _, encode_reserved_zero _⟩

theorem getPeriod : Statement .getPeriod :=
  ⟨op_encode _, encode_reserved_zero _⟩

theorem getPeriodMin : Statement .getPeriodMin :=
  ⟨op_encode _, encode_reserved_zero _⟩

theorem getPeriodMax : Statement .getPeriodMax :=
  ⟨op_encode _, encode_reserved_zero _⟩

theorem setPeriod (val : BitVec 16) : Statement (.setPeriod val) :=
  ⟨op_encode _, encode_reserved_zero _⟩

theorem flushTrigger : Statement .flushTrigger :=
  ⟨op_encode _, encode_reserved_zero _⟩

theorem openDesc : Statement .openDesc :=
  ⟨op_encode _, encode_reserved_zero _⟩

theorem closeDesc (fd : BitVec 8) : Statement (.closeDesc fd) :=
  ⟨op_encode _, encode_reserved_zero _⟩

theorem readDesc (fd : BitVec 8) (len : BitVec 16) : Statement (.readDesc fd len) :=
  ⟨op_encode _, encode_reserved_zero _⟩

theorem writeDesc (fd : BitVec 8) (len : BitVec 16) (data : List Byte) : Statement (.writeDesc fd len data) :=
  ⟨op_encode _, encode_reserved_zero _⟩

theorem bindAddress (fd : BitVec 8) (a8 : BitVec 8) : Statement (.bindAddress fd a8) :=
  ⟨op_encode _, encode_reserved_zero _⟩

theorem atomicTransfer (fd : BitVec 8) (len : BitVec 16) (segs : List Segment) : Statement (.atomicTransfer fd len segs) :=
  ⟨op_encode _, encode_reserved_zero _⟩

end Sys2Proof.Laws.TableBits
end

