-- ==== Sys2Proof/Machine/Asm.lean ====
section
/-! DEFINITION. The assembler text of a command (30_encoding R116). The path of OPEN is not encoded, so it is an argument. -/

namespace Sys2Proof.Machine

/-- A number in decimal, which R116 allows everywhere. -/
def asmNat (n : Nat) : String := Nat.repr n

/-- `[b, ...]`. -/
def asmBytes (bs : List Byte) : String :=
  "[" ++ String.intercalate ", " (bs.map (fun b => asmNat b.toNat)) ++ "]"

/-- The `@a` after a segment's letter, for an override address. -/
def asmOverride (seg : Segment) : String :=
  if seg.ovr then "@" ++ asmNat seg.oaddr.toNat else ""

/-- `W [b, ...]`, `R n`, or the same with an override address. -/
def asmSegment (seg : Segment) : String :=
  match seg.dir with
  | .write => "W" ++ asmOverride seg ++ " " ++ asmBytes seg.data
  | .read => "R" ++ asmOverride seg ++ " " ++ asmNat seg.len.toNat

/-- `seg ; seg ; ...` between braces. -/
def asmSegments (segs : List Segment) : String :=
  String.singleton (Char.ofNat 123) ++ " " ++ String.intercalate " ; " (segs.map asmSegment) ++ " "
    ++ String.singleton (Char.ofNat 125)

/-- One command, one line (R116). -/
def asmCommand (path : String) (i : Instr) : String :=
  match i with
  | .busInit => "BUS_INIT"
  | .execute _ addr segs => "EXECUTE " ++ asmNat addr.toNat ++ " " ++ asmSegments segs
  | .pwmInit freq addr => "PWM_INIT " ++ asmNat addr.toNat ++ ", " ++ asmNat freq.toNat
  | .setDuty ch val => "SET_DUTY " ++ asmNat ch.toNat ++ ", " ++ asmNat val.toNat
  | .getDuty ch => "GET_DUTY " ++ asmNat ch.toNat
  | .getPeriod => "GET_PERIOD"
  | .getPeriodMin => "GET_PERIOD_MIN"
  | .getPeriodMax => "GET_PERIOD_MAX"
  | .setPeriod val => "SET_PERIOD " ++ asmNat val.toNat
  | .flushTrigger => "FLUSH_TRIGGER"
  | .openDesc => "OPEN \"" ++ path ++ "\""
  | .closeDesc fd => "CLOSE " ++ asmNat fd.toNat
  | .readDesc fd len => "READ " ++ asmNat fd.toNat ++ ", " ++ asmNat len.toNat
  | .writeDesc fd _ data => "WRITE " ++ asmNat fd.toNat ++ ", " ++ asmBytes data
  | .bindAddress fd a8 => "BIND_ADDRESS " ++ asmNat fd.toNat ++ ", " ++ asmNat a8.toNat
  | .atomicTransfer fd _ segs => "ATOMIC_TRANSFER " ++ asmNat fd.toNat ++ " " ++ asmSegments segs

end Sys2Proof.Machine
end

