-- ==== Sys2Proof/Tests/Slice0.lean ====
section
/-! SUPPORT. Tests on fixed values, each taken from the tables of spec/95_test_vectors.md or written out from the encoding of
spec/30_encoding.md, and a witness for every statement with hypotheses. -/

open Sys2Proof Sys2Proof.Machine

namespace Sys2Proof.Tests

/-! ## Helpers -/

/-- Reset with two descriptors and one client (95: "with `N_DESC` >= 2"). -/
def base : State := State.resetFor 1 0

/-- A block whose PWM state is `p`, otherwise at rest, with BUS_INIT done. -/
def pwmBase (p : PwmState) : State :=
  { base with busInit := true, pwmState := p, pwmAddr := 0x40#7, pwmPrescale := 5#8 }

/-- `s` with the one client in the middle of `cmd`. -/
def withClient (s : State) (cmd : Option Command) (p : ClientPhase) (tx : Transact) : State :=
  { s with clients := [{ cmd := cmd, phase := p, tx := tx, resp := none }] }

/-- `s` with the one client about to take the first step of `cmd`. -/
def issued (s : State) (cw : Word) (p : Payload) : State := withClient s (some ⟨cw, p⟩) .start .idle

/-- `s` with the given schedule and oracle answers. -/
def driven (s : State) (sched : List Move) (replies : List Reply) : State :=
  { s with env := { s.env with sched := sched, replies := replies } }

/-- The state a step answers. -/
def after (s : State) : State :=
  match step s with
  | .next t => t
  | _ => s

/-- The state an engine with these registers is in, its lock held by client 0. -/
def busy (e : Engine) (replies : List Reply) : State :=
  driven { withClient base (some ⟨0x02010040#32, .none⟩) .bus .running with
    lockOwner := some (.client 0)
    eng := e } [] replies

/-- The response client 0 holds. -/
def resp (s : State) : Option Response := (s.clients.getD 0 Client.fresh).resp

/-- Whether client 0 has a command outstanding. -/
def waiting (s : State) : Bool := (s.clients.getD 0 Client.fresh).cmd.isSome

/-- The response to a command that never reaches the bus, two steps of its client later: a command answered in its first step
has no second. -/
def answer (s : State) (cw : Word) (p : Payload) : Option Response :=
  resp (after (after (driven (issued s cw p) [.client 0, .client 0] [])))

/-- Every byte accepted, every read byte `v`. -/
def accept (v : Byte) : Reply := ⟨.ack, .byte v, .goOn⟩

/-- Every byte refused, every read failed, every lock wait timed out. -/
def refuse : Reply := ⟨.nack, .fail .timeout, .timeout⟩

/-- The engine in the WDATA phase at byte `i` of segment `k`. -/
def engineAt (p : EngPhase) (k i : Nat) (segs : List Segment) : Engine :=
  { Engine.load segs 0x40#7 with phase := p, k := k, i := i }

/-! ## WellFormed (R92, R97) -/

/-- R97: an override address without the override flag is refused. -/
theorem test_wellFormed_override : Segment.wellFormed ⟨.write, false, 0x41#7, 1#16, [0x00#8]⟩ = false := by decide

/-- R92: data after a read header is refused. -/
theorem test_wellFormed_readData : Segment.wellFormed ⟨.read, false, 0#7, 1#16, [0x00#8]⟩ = false := by decide

/-- An ill-formed segment makes its command ill-formed, for both commands that carry segments. -/
theorem test_wellFormed_commands :
    Instr.wellFormed (.execute 1#8 0x40#7 [⟨.write, false, 0x41#7, 1#16, [0x00#8]⟩]) = false ∧
    Instr.wellFormed (.atomicTransfer 0#8 1#16 [⟨.read, false, 0#7, 1#16, [0x00#8]⟩]) = false ∧
    Instr.wellFormed (.execute 1#8 0x40#7 [⟨.read, true, 0x41#7, 1#16, []⟩]) = true := by decide

/-! ## Decoding (R91, R96), one word per constructor, from the tables of 95 -/

/-- 95 E1. -/
theorem test_decode_busInit : decode ⟨0x01000000#32, .none⟩ = .ok .busInit := by decide
/-- 95 E17: NSEG = 2, ADDR7 = 0x40, a write segment, a read segment with override 0x41. -/
theorem test_decode_execute :
    decode ⟨0x02020040#32, .segs [⟨0x00000001#32, [0x00#8]⟩, ⟨0xC0410001#32, []⟩]⟩ =
      .ok (.execute 2#8 0x40#7 [⟨.write, false, 0#7, 1#16, [0x00#8]⟩, ⟨.read, true, 0x41#7, 1#16, []⟩]) := by decide
/-- 95 I12: 200 Hz, address 0x40. -/
theorem test_decode_pwmInit : decode ⟨0x1000C840#32, .none⟩ = .ok (.pwmInit 200#16 0x40#7) := by decide
/-- 95 W2. -/
theorem test_decode_setDuty : decode ⟨0x11001388#32, .none⟩ = .ok (.setDuty 0#8 5000#16) := by decide
/-- 95 H2. -/
theorem test_decode_getDuty : decode ⟨0x120F0000#32, .none⟩ = .ok (.getDuty 15#8) := by decide
/-- 95 H5 to H7. -/
theorem test_decode_periods :
    decode ⟨0x13000000#32, .none⟩ = .ok .getPeriod ∧ decode ⟨0x14000000#32, .none⟩ = .ok .getPeriodMin ∧
    decode ⟨0x15000000#32, .none⟩ = .ok .getPeriodMax := by decide
/-- 95 H10. -/
theorem test_decode_setPeriod : decode ⟨0x16000FFF#32, .none⟩ = .ok (.setPeriod 4095#16) := by decide
/-- 95 W7. -/
theorem test_decode_flushTrigger : decode ⟨0x17000000#32, .none⟩ = .ok .flushTrigger := by decide
/-- 95 F1. -/
theorem test_decode_openDesc : decode ⟨0x20000000#32, .none⟩ = .ok .openDesc := by decide
/-- 95 F23. -/
theorem test_decode_closeDesc : decode ⟨0x21050000#32, .none⟩ = .ok (.closeDesc 5#8) := by decide
/-- 95 S6. -/
theorem test_decode_readDesc : decode ⟨0x22000003#32, .none⟩ = .ok (.readDesc 0#8 3#16) := by decide
/-- 95 F12. -/
theorem test_decode_writeDesc :
    decode ⟨0x23000002#32, .bytes [0xFE#8, 0x1E#8]⟩ = .ok (.writeDesc 0#8 2#16 [0xFE#8, 0x1E#8]) := by decide
/-- 95 F7: the field is 8 bits wide. -/
theorem test_decode_bindAddress : decode ⟨0x24000080#32, .none⟩ = .ok (.bindAddress 0#8 0x80#8) := by decide
/-- 95 F14. -/
theorem test_decode_atomicTransfer :
    decode ⟨0x25010002#32, .segs [⟨0x40410001#32, [0x00#8]⟩, ⟨0xC0410001#32, []⟩]⟩ =
      .ok (.atomicTransfer 1#8 2#16 [⟨.write, true, 0x41#7, 1#16, [0x00#8]⟩, ⟨.read, true, 0x41#7, 1#16, []⟩]) := by
  decide
/-- 95 §2.10: unassigned opcodes. -/
theorem test_decode_illegal :
    [0x00000000#32, 0x03000000#32, 0x0F000000#32, 0x18000000#32, 0x1F000000#32, 0x26000000#32, 0xFF000000#32].all
      (fun w => decide (decode ⟨w, .none⟩ = .error (.illegalOpcode (Word.op w)))) = true := by decide
/-- 95 E3, E20, F24, F25, W8, H4, H8, H13, I9 and §2.10: reserved bits of CW. -/
theorem test_decode_reserved :
    [0x01000001#32, 0x020100C0#32, 0x21000001#32, 0x24000140#32, 0x17000001#32, 0x12030001#32, 0x13000001#32,
      0x16011000#32, 0x1003E8C0#32, 0x01800000#32, 0x20000001#32, 0x14000100#32, 0x15010000#32].all
      (fun w => decide (decode ⟨w, .none⟩ = .error .reservedBits)) = true := by decide
/-- 95 E21, E22: reserved bits of a segment descriptor. -/
theorem test_decode_reservedSeg :
    decode ⟨0x02010040#32, .segs [⟨0x00800001#32, [0x00#8]⟩]⟩ = .error .reservedSegBits ∧
    decode ⟨0x02010040#32, .segs [⟨0x00410001#32, [0x00#8]⟩]⟩ = .error .reservedSegBits := by decide
/-- 95 E5, I1, W1: words written by the encoder. -/
theorem test_encode :
    encode (.execute 2#8 0x40#7 [Segment.w [0x06#8], Segment.r 4#16]) =
      ⟨0x02020040#32, .segs [⟨0x00000001#32, [0x06#8]⟩, ⟨0x80000004#32, []⟩]⟩ ∧
    (encode (.pwmInit 1000#16 0x40#7)).cw = 0x1003E840#32 ∧ (encode (.setDuty 3#8 100#16)).cw = 0x11030064#32 := by
  decide
/-- 95 E13: PROBE is an EXECUTE with one empty write segment (R117). -/
theorem test_pseudo_probe : encode (pseudoProbe 0x40#7) = ⟨0x02010040#32, .segs [⟨0x00000000#32, []⟩]⟩ := by decide
/-- A word of the table with a count stands with as many zero bytes. -/
theorem test_decodeTableWord : decodeTableWord 32 0x23010002 = some (.writeDesc 1#8 2#16 [0#8, 0#8]) := by decide
/-- R116: the assembler line of 95 S6. -/
theorem test_asm : asmCommand "/dev/bus0" (.readDesc 0#8 3#16) = "READ 0, 3" := by decide

/-! ## BUS_INIT and EXECUTE -/

/-- 95 E1 and E2; the latch is a step before the response (R9). -/
theorem test_busInit :
    (after (driven (issued base 0x01000000#32 .none) [.client 0] [])).busInit = true ∧
    waiting (after (driven (issued base 0x01000000#32 .none) [.client 0] [])) = true ∧
    answer base 0x01000000#32 .none = some ⟨.ok, .none⟩ ∧
    answer (pwmBase .uninit) 0x01000000#32 .none = some ⟨.alreadyInitialized, .none⟩ := ⟨rfl, rfl, rfl, rfl⟩
/-- 95 E15, E16, E23 to E25: what EXECUTE answers at once. -/
theorem test_execute_checks :
    answer (pwmBase .uninit) 0x02000040#32 (.segs []) = some ⟨.ok, .bytes []⟩ ∧
    answer (pwmBase .uninit) 0x02010040#32 (.segs [⟨0x80000000#32, []⟩]) = some ⟨.invalidArgument, .none⟩ ∧
    answer (pwmBase .uninit) 0x02020040#32 (.segs [⟨0x00000001#32, [0x00#8]⟩]) = some ⟨.invalidArgument, .none⟩ ∧
    answer (pwmBase .uninit) 0x02010040#32 (.segs [⟨0x00000002#32, [0x00#8]⟩]) = some ⟨.invalidArgument, .none⟩ ∧
    answer base 0x02010040#32 (.segs [⟨0x00000002#32, [0x00#8, 0x11#8]⟩]) = some ⟨.notInitialized, .none⟩ := by decide
/-- 95 E26: a wait for a held lock times out. -/
theorem test_execute_lockTimeout :
    (after (driven { withClient base (some ⟨0x02010040#32, .segs [⟨0#32, []⟩]⟩) .bus (.waiting [Segment.w []] 0x40#7) with
      lockOwner := some .worker } [.client 0] [refuse])).tx (.client 0) = .returned .busTimeout none := by decide

/-! ## The engine -/

/-- 95 E17: the second segment opens with RSTART. -/
theorem test_engine_rstart :
    (engineStep (busy (engineAt .begin 1 0 [Segment.w [0x00#8], Segment.r 1#16]) [])).trace = [.rstart] := by decide
/-- 95 E17: the override address 0x41 with the read bit is 0x83. -/
theorem test_engine_addr :
    (engineStep (busy (engineAt .addr 0 0 [⟨.read, true, 0x41#7, 1#16, []⟩]) [accept 0#8])).trace =
      [.addr 0x83#8 .ack] := by decide
/-- 95 E6: a refused address ends the transaction. -/
theorem test_engine_addrNack :
    (engineStep (busy (engineAt .addr 0 0 [Segment.w [0x00#8]]) [refuse])).eng.status = .busNackAddr := by decide
/-- 95 E7: a refused last byte. -/
theorem test_engine_dataNack :
    (engineStep (busy (engineAt .wdata 0 1 [Segment.w [0x00#8, 0x11#8]]) [refuse])).trace = [.tx 0x11#8 .nack] ∧
    (engineStep (busy (engineAt .wdata 0 1 [Segment.w [0x00#8, 0x11#8]]) [refuse])).eng.status = .busNackData := by
  decide
/-- 95 E5: byte 2 of 4 is acknowledged, byte 3 is not. -/
theorem test_engine_rx :
    (engineStep (busy (engineAt .rdata 0 2 [Segment.r 4#16]) [accept 0x0C#8])).trace = [.rx 0x0C#8 .ack] ∧
    (engineStep (busy (engineAt .rdata 0 3 [Segment.r 4#16]) [accept 0x0D#8])).trace = [.rx 0x0D#8 .nack] := by decide
/-- 95 E13: an empty write segment has no data byte. -/
theorem test_engine_probe :
    (engineStep (busy (engineAt .addr 0 0 [Segment.w []]) [accept 0#8])).eng.phase = .stop := by decide
/-- 40 R145: STOP releases the lock and delivers. -/
theorem test_engine_stop :
    (engineStep (busy (engineAt .stop 0 0 [Segment.w []]) [])).lockOwner = none ∧
    (engineStep (busy (engineAt .stop 0 0 [Segment.w []]) [])).tx (.client 0) = .returned .ok (some []) := by decide

/-! ## The descriptor front end (95 §2.2) -/

/-- Descriptor 0 open and bound to 0x40, descriptor 1 open and unbound. -/
def bound : State := { pwmBase .uninit with desc := [⟨true, 0x40#7⟩, ⟨true, 0#7⟩] }

/-- 95 F1, F2, F3. -/
theorem test_openDesc :
    answer base 0x20000000#32 .none = some ⟨.ok, .fd 0#8⟩ ∧
    answer { base with desc := [⟨true, 0x40#7⟩, ⟨false, 0#7⟩] } 0x20000000#32 .none = some ⟨.ok, .fd 1#8⟩ ∧
    answer bound 0x20000000#32 .none = some ⟨.tableFull, .none⟩ := by decide
/-- 95 F19, F23. -/
theorem test_closeDesc :
    (after (driven (issued bound 0x21000000#32 .none) [.client 0] [])).desc = [⟨false, 0#7⟩, ⟨true, 0#7⟩] ∧
    answer bound 0x21050000#32 .none = some ⟨.invalidDescriptor, .none⟩ := by decide
/-- 95 F7, F26. -/
theorem test_bindAddress :
    answer bound 0x24000080#32 .none = some ⟨.invalidArgument, .none⟩ ∧
    answer bound 0x24010000#32 .none = some ⟨.ok, .none⟩ := by decide
/-- 95 F4, F6, F9, F11, F27. -/
theorem test_writeDesc :
    answer bound 0x23010001#32 (.bytes [0x00#8]) = some ⟨.invalidDescriptor, .none⟩ ∧
    answer bound 0x23010000#32 (.bytes []) = some ⟨.invalidDescriptor, .none⟩ ∧
    answer bound 0x23000000#32 (.bytes []) = some ⟨.ok, .none⟩ ∧
    answer bound 0x23000003#32 (.bytes [0x00#8, 0x11#8]) = some ⟨.invalidArgument, .none⟩ ∧
    answer { bound with busInit := false } 0x23000001#32 (.bytes [0x00#8]) = some ⟨.notInitialized, .none⟩ := by decide
/-- 95 F5, F10. -/
theorem test_readDesc :
    answer bound 0x22010001#32 .none = some ⟨.invalidDescriptor, .none⟩ ∧
    answer bound 0x22000000#32 .none = some ⟨.ok, .bytes []⟩ := by decide
/-- 95 F15, F16, F17. -/
theorem test_atomicTransfer :
    answer bound 0x25010002#32 (.segs [⟨0x40410001#32, [0x00#8]⟩, ⟨0x80000001#32, []⟩]) =
      some ⟨.invalidDescriptor, .none⟩ ∧
    answer bound 0x25000001#32 (.segs [⟨0x80000000#32, []⟩]) = some ⟨.invalidArgument, .none⟩ ∧
    answer bound 0x25000000#32 (.segs []) = some ⟨.ok, .bytes []⟩ := by decide

/-! ## The PWM codec (95 §2.4 to §2.6) -/

/-- 95 §2.4. -/
theorem test_prescaler :
    [0, 1, 23, 24, 25, 50, 60, 100, 200, 1000, 1526, 1600, 1743, 1744, 65535].map (computePrescaler 25000000) =
      [none, none, none, some 253#8, some 243#8, some 121#8, some 101#8, some 60#8, some 30#8, some 5#8, some 3#8,
        some 3#8, some 3#8, none, none] := by decide
/-- 95 §2.5, the frames. -/
theorem test_ledFrame :
    ledFrame 0 0 = [0x06#8, 0x00#8, 0x00#8, 0x00#8, 0x10#8] ∧ ledFrame 0 4096 = [0x06#8, 0x00#8, 0x10#8, 0x00#8, 0x00#8] ∧
    ledFrame 1 4095 = [0x0A#8, 0x00#8, 0x01#8, 0xFF#8, 0x00#8] ∧ ledFrame 3 100 = [0x12#8, 0x00#8, 0x03#8, 0x64#8, 0x03#8] ∧
    ledFrame 8 2048 = [0x26#8, 0x00#8, 0x08#8, 0x00#8, 0x00#8] ∧
    ledFrame 15 512 = [0x42#8, 0x00#8, 0x0F#8, 0x00#8, 0x01#8] ∧
    ledFrame 15 5000 = [0x42#8, 0x00#8, 0x10#8, 0x00#8, 0x00#8] := by decide
/-- 95 §2.5, decoding. -/
theorem test_decodeLed :
    dutyOf (decodeLed 4 0x00#8 0x0F#8 0x00#8 0x01#8) = 512 ∧ dutyOf (decodeLed 4 0x64#8 0x03#8 0x00#8 0x03#8) = 3996 ∧
    decodeLed 4 0x00#8 0x1F#8 0x34#8 0x12#8 = ⟨0xF00#12, true, 0x234#12, true⟩ ∧
    dutyOf (decodeLed 4 0x00#8 0x1F#8 0x34#8 0x12#8) = 0 ∧ dutyOf (decodeLed 4 0x00#8 0x10#8 0x55#8 0x05#8) = 4096 ∧
    dutyOf (decodeLed 4 0x00#8 0x01#8 0x00#8 0x01#8) = 0 ∧ decodeLed 4 0x00#8 0xE0#8 0x00#8 0x00#8 = ⟨0#12, false, 0#12, false⟩ := by
  decide
/-- 95 §2.5, last lines: the literal reading of the full flag, bit 7. -/
theorem test_decodeLed_bit7 :
    dutyOf (decodeLed 7 0x00#8 0x80#8 0x00#8 0x00#8) = 4096 ∧ dutyOf (decodeLed 7 0x00#8 0x10#8 0x00#8 0x00#8) = 0 := by
  decide
/-- 95 §2.6. -/
theorem test_modeBytes :
    packMode1 ⟨false, false, false, true, false, false, false, true⟩ = 0x11#8 ∧
    packMode1 ⟨true, false, false, false, false, false, false, false⟩ = 0x80#8 ∧
    packMode1 ⟨false, false, true, false, false, false, false, false⟩ = 0x20#8 ∧
    unpackMode1 0xA1#8 = ⟨true, false, true, false, false, false, false, true⟩ ∧
    packMode2 ⟨false, false, true, 0#2⟩ = 0x04#8 ∧ packMode2 ⟨true, false, false, 0#2⟩ = 0x10#8 ∧
    packMode2 (unpackMode2 0xFF#8) = 0x1F#8 ∧ mode1Frame 0x11#8 = [0x00#8, 0x11#8] ∧
    prescaleFrame 0x1E#8 = [0xFE#8, 0x1E#8] := by decide

/-! ## PWM_INIT (95 §2.7) -/

/-- 95 I7, I8, I10, I11: what PWM_INIT answers at once. -/
theorem test_pwmInit_checks :
    answer (pwmBase .uninit) 0x1006D040#32 .none = some ⟨.invalidArgument, .none⟩ ∧
    answer (pwmBase .uninit) 0x1003E800#32 .none = some ⟨.invalidArgument, .none⟩ ∧
    answer base 0x1006D040#32 .none = some ⟨.notInitialized, .none⟩ ∧
    answer (pwmBase .failed) 0x1003E840#32 .none = some ⟨.alreadyInitialized, .none⟩ := by decide
/-- 95 I2: a fault at the presence step, and then the response. -/
theorem test_pwmInit_absent :
    resp (after (after (driven { withClient (pwmBase .initializing) (some ⟨0x1003E840#32, .none⟩) .sequence .idle with
      initStep := 1
      initTx := .returned .busNackAddr none } [.client 0, .client 0] []))) = some ⟨.deviceAbsent, .none⟩ := by decide

/-! ## Duties (95 §2.8, §2.9) -/

/-- 95 W2, W3. -/
theorem test_setDuty :
    (after (driven (issued (pwmBase .ready) 0x11001388#32 .none) [.client 0] [])).cache[0] = 4096 ∧
    (after (driven (issued (pwmBase .ready) 0x11001388#32 .none) [.client 0] [])).dirty = 1#16 ∧
    waiting (after (driven (issued (pwmBase .ready) 0x11001388#32 .none) [.client 0] [])) = true ∧
    answer (pwmBase .ready) 0x11100064#32 .none = some ⟨.invalidArgument, .none⟩ := by decide
/-- 95 W7, W9. -/
theorem test_flushTrigger :
    (after (driven (issued (pwmBase .ready) 0x17000000#32 .none) [.client 0] [])).wake = 1 ∧
    answer (pwmBase .failed) 0x17000000#32 .none = some ⟨.notInitialized, .none⟩ := by decide
/-- 95 H1, H3, H14. -/
theorem test_getDuty :
    answer { pwmBase .ready with cache := (Vector.replicate 16 0).set 3 100 } 0x12030000#32 .none =
      some ⟨.ok, .value 100#16⟩ ∧
    answer (pwmBase .ready) 0x12100000#32 .none = some ⟨.invalidArgument, .none⟩ ∧
    answer (pwmBase .failed) 0x12030000#32 .none = some ⟨.notInitialized, .none⟩ := by decide
/-- 95 H5 to H7, H15. -/
theorem test_getPeriods :
    answer (pwmBase .ready) 0x13000000#32 .none = some ⟨.ok, .value 4096#16⟩ ∧
    answer (pwmBase .ready) 0x14000000#32 .none = some ⟨.ok, .value 4096#16⟩ ∧
    answer (pwmBase .ready) 0x15000000#32 .none = some ⟨.ok, .value 4096#16⟩ ∧
    answer (pwmBase .uninit) 0x13000000#32 .none = some ⟨.notInitialized, .none⟩ := by decide
/-- 95 H9 to H12. -/
theorem test_setPeriod :
    answer (pwmBase .ready) 0x16001000#32 .none = some ⟨.ok, .none⟩ ∧
    answer (pwmBase .ready) 0x16000FFF#32 .none = some ⟨.invalidArgument, .none⟩ ∧
    answer (pwmBase .ready) 0x16001001#32 .none = some ⟨.invalidArgument, .none⟩ := by decide
/-- 95 P2: the capture of 0x8009 starts at channel 0, and channel 3 follows. -/
theorem test_worker :
    (workerStep { pwmBase .ready with dirty := 0x8009#16, wk := { Worker.reset with phase := .capture } }).wk =
      ⟨.flushing, 0x8009#16, 0, .idle⟩ ∧
    (workerStep { pwmBase .ready with wk := ⟨.flushing, 0x8009#16, 0, .returned .ok (some [])⟩ }).wk.ch = 3 := by decide
/-- 95 W12: a failed frame is logged. -/
theorem test_worker_fault :
    (workerStep { pwmBase .ready with wk := ⟨.flushing, 0x0002#16, 1, .returned .busNackAddr none⟩ }).flog =
      [⟨1, .busNackAddr⟩] := by decide
/-- 95 W8: an illegal word is answered ILLEGAL_COMMAND. -/
theorem test_illegal : answer (pwmBase .ready) 0x17000001#32 .none = some ⟨.illegalCommand, .none⟩ := by decide

/-! ## Witnesses: states and operands that meet the hypotheses of each statement together -/

/-- DecodeOfEncodeIsTheCommand: a well-formed command with both directions and an override. -/
theorem witness_DecodeOfEncodeIsTheCommand :
    Instr.wellFormed (.atomicTransfer 1#8 2#16 [⟨.write, true, 0x41#7, 1#16, [0x00#8]⟩, ⟨.read, false, 0#7, 1#16, []⟩]) = true := by
  decide
/-- EncodeOfDecodeIsTheWord: a word of each of the three commands with a payload. -/
theorem witness_EncodeOfDecodeIsTheWord :
    (decode ⟨0x02010040#32, .segs [⟨0x00000001#32, [0x00#8]⟩]⟩ = .ok (.execute 1#8 0x40#7 [Segment.w [0x00#8]]) ∧
      Instr.opcode (.execute 1#8 0x40#7 [Segment.w [0x00#8]]) = .execute) ∧
    (decode ⟨0x25000001#32, .segs [⟨0x80000001#32, []⟩]⟩ = .ok (.atomicTransfer 0#8 1#16 [Segment.r 1#16]) ∧
      Instr.opcode (.atomicTransfer 0#8 1#16 [Segment.r 1#16]) = .atomicTransfer) ∧
    (decode ⟨0x23000001#32, .bytes [0x00#8]⟩ = .ok (.writeDesc 0#8 1#16 [0x00#8]) ∧
      Instr.opcode (.writeDesc 0#8 1#16 [0x00#8]) = .writeDesc) := by decide
/-- IllegalOpcodesAreAnsweredIllegalCommand: both ends of every range. -/
theorem witness_IllegalOpcodesAreAnsweredIllegalCommand :
    [0x00000000#32, 0x03000000#32, 0x0F000000#32, 0x18000000#32, 0x1F000000#32, 0x26000000#32, 0xFF000000#32].all
      (fun w => decide ((issued base w .none).clients[0]?.map Client.cmd = some (some ⟨w, .none⟩)) &&
        decide ((Word.op w).toNat = 0x00 ∨ (0x03 ≤ (Word.op w).toNat ∧ (Word.op w).toNat ≤ 0x0F) ∨
          (0x18 ≤ (Word.op w).toNat ∧ (Word.op w).toNat ≤ 0x1F) ∨ 0x26 ≤ (Word.op w).toNat)) = true := by decide
/-- ReservedBitsAreAnsweredIllegalCommand: a word for each of the three grounds. -/
theorem witness_ReservedBitsAreAnsweredIllegalCommand :
    ((issued base 0x21000001#32 .none).hasCommand 0 ⟨0x21000001#32, .none⟩ ∧ Word.op 0x21000001#32 = Opcode.closeDesc.code ∧
      0x21000001#32 &&& Opcode.closeDesc.format.reserved ≠ 0#32) ∧
    ((issued base 0x02010040#32 (.segs [⟨0x00800001#32, []⟩])).hasCommand 0 ⟨0x02010040#32, .segs [⟨0x00800001#32, []⟩]⟩ ∧
      Word.op 0x02010040#32 = Opcode.execute.code ∧ Word.sdReserved 0x00800001#32 ≠ 0#7) ∧
    ((issued base 0x25000001#32 (.segs [⟨0x00410001#32, []⟩])).hasCommand 0 ⟨0x25000001#32, .segs [⟨0x00410001#32, []⟩]⟩ ∧
      Word.op 0x25000001#32 = Opcode.atomicTransfer.code ∧
      Word.sdOvr 0x00410001#32 = false ∧ Word.sdOaddr 0x00410001#32 ≠ 0#7) :=
  ⟨⟨⟨_, rfl, rfl⟩, by decide, by decide⟩, ⟨⟨_, rfl, rfl⟩, by decide, by decide⟩,
    ⟨⟨_, rfl, rfl⟩, by decide, by decide, by decide⟩⟩
/-- RefusesReserved, for every opcode whose format has a reserved bit: a pending word with all of them set. -/
theorem witness_RefusesReserved (o : Opcode) (h : o.format.reserved ≠ 0#32) :
    ∃ w, (issued base w .none).hasCommand 0 ⟨w, .none⟩ ∧ Word.op w = o.code ∧ w &&& o.format.reserved ≠ 0#32 := by
  refine ⟨(o.code ++ 0#24) ||| o.format.reserved, ⟨_, rfl, rfl⟩, ?_⟩
  revert h
  cases o <;> decide
/-- RespondEndsTheCommandOnly, and every statement with a `RespondsNext` clause: any command with its response due. -/
theorem witness_RespondsNext (i : Instr) (r : Response) :
    (withClient base (some (encode i)) (.respond r) .idle).phase = .respond r := rfl
/-- The statements about a first step of those commands: a command with no response due. -/
theorem witness_noResponseDue (cw : Word) (p : Payload) (r : Response) : (issued base cw p).phase ≠ .respond r := nofun
/-- StepRunsTheDecodedCommand: a state for each clause. -/
theorem witness_StepRunsTheDecodedCommand :
    ((driven (issued base 0x01000000#32 .none) [.client 0] []).nextMove = .client 0 ∧
      (driven (issued base 0x01000000#32 .none) [.client 0] []).hasCommand 0 ⟨0x01000000#32, .none⟩ ∧
      decode ⟨0x01000000#32, .none⟩ = .ok .busInit) ∧
    ((driven (issued base 0x26000000#32 .none) [.client 0] []).hasCommand 0 ⟨0x26000000#32, .none⟩ ∧
      decode ⟨0x26000000#32, .none⟩ = .error (.illegalOpcode 0x26#8)) ∧
    ((driven base [.client 7] []).nextMove = .client 7 ∧ (driven base [.client 7] []).pending 7 = .nothing) ∧
    (driven base [.engine] []).nextMove = .engine ∧ (driven base [.worker] []).nextMove = .worker ∧
    ((driven base [.issue 0 ⟨0x01000000#32, .none⟩] []).nextMove = .issue 0 ⟨0x01000000#32, .none⟩ ∧
      (driven base [.issue 0 ⟨0x01000000#32, .none⟩] []).clients[0]? = some Client.fresh ∧ Client.fresh.cmd = none) ∧
    ((issued base 0x01000000#32 .none).clients[0]?.map (fun c => c.cmd.isSome) = some true) ∧
    (driven base [.engine] []).env.sched = .engine :: [] :=
  ⟨⟨rfl, ⟨_, rfl, rfl⟩, by decide⟩, ⟨⟨_, rfl, rfl⟩, by decide⟩, ⟨rfl, rfl⟩, rfl, rfl, ⟨rfl, rfl, rfl⟩, rfl, rfl⟩

/-- A block at rest is a legal state, whatever final state its PWM part is in. -/
theorem legal_atRest (b : Bool) (p : PwmState) (a : Addr7) (q : BitVec 8) (hp : p ≠ .initializing)
    (hl : p ≠ .uninit → b = true ∧ a ≠ 0#7 ∧ Config.prescaleMin ≤ q.toNat) :
    Legal { base with busInit := b, pwmState := p, pwmAddr := a, pwmPrescale := q } := by
  have hfresh : ∀ (j : Nat) (c : Client), base.clients[j]? = some c → c = Client.fresh := by
    intro j c hc
    cases j with
    | zero => exact (Option.some.inj hc).symm
    | succ j => cases hc
  have hseq : ∀ (j : Nat) (c : Client), base.clients[j]? = some c → c.phase ≠ .sequence := by
    intro j c hc hx
    rw [hfresh j c hc] at hx
    cases hx
  refine { cache := ?_, trace := rfl, lockFree := fun _ => rfl, lockHeld := fun h => absurd rfl h, lockHolder := ?_,
           clients := ?_, pwm := ?_, worker := ?_, dirty := fun h => absurd rfl h }
  · intro c
    simp [base, State.resetFor]
  · intro r
    refine ⟨(fun h => by cases h), fun h => ?_⟩
    cases r with
    | init => cases h
    | worker => cases h
    | client j =>
      cases hc : base.clients[j]? with
      | none => exact absurd ((State.tx_client_none (s := base) hc).symm.trans h) (by simp)
      | some c =>
        have ht := (State.tx_client (s := base) hc).symm.trans h
        rw [hfresh j c hc] at ht
        cases ht
  · intro j c hc
    rw [hfresh j c hc]
    exact ⟨⟨trivial, rfl⟩, fun ⟨_, _, h⟩ => by cases h⟩
  · exact { latched := hl, stepRange := fun h => absurd h hp, lastStep := fun h => absurd h hp
            noStep := fun _ => ⟨rfl, rfl⟩
            runner := ⟨fun h => absurd h hp, fun ⟨j, c, hc, hx⟩ => absurd hx (hseq j c hc)⟩
            oneRunner := fun j _ ⟨c, hc, hx⟩ => absurd hx (hseq j c hc), initTx := trivial }
  · exact { chRange := Nat.zero_le _, bitSet := (fun h => by cases h), idleTx := fun _ => rfl, endOfPass := fun _ => rfl
            tx := trivial }

/-- Legality does not depend on the schedule or the oracle's answers. -/
theorem legal_driven {s : State} (h : Legal s) (m : List Move) (r : List Reply) : Legal (driven s m r) := by
  apply Legal.congr h <;> rfl

/-- The PWM part at rest in READY, FAILED or UNINIT. -/
theorem legal_pwmBase {p : PwmState} (hp : p ≠ .initializing) : Legal (pwmBase p) :=
  legal_atRest true p 0x40#7 5#8 hp (fun _ => ⟨rfl, by decide, by decide⟩)

/-- A block after reset. -/
theorem legal_base : Legal base := legal_atRest false .uninit 0#7 0#8 (by decide) (fun h => absurd rfl h)

/-- A SET_PERIOD pending before READY, its client next. -/
def refused : State := driven (base.issue 0 ⟨0x16001000#32, .none⟩) [.client 0] []

/-- StepKeepsLegal: a legal state and its next state. -/
theorem witness_StepKeepsLegal : Legal refused ∧ step refused = .next (after refused) :=
  ⟨legal_driven (Legal.issue_keeps legal_base _) _ _, rfl⟩
/-- QuiescentMeansNothingDirty. -/
theorem witness_QuiescentMeansNothingDirty : Legal (pwmBase .ready) ∧ Quiescent (pwmBase .ready) :=
  ⟨legal_pwmBase (by decide), by decide, rfl, rfl, rfl, rfl⟩
/-- HistoriesOnlyGrow, EveryRegisterHasItsWritersOnly: a step that changes the fault log. -/
theorem witness_HistoriesOnlyGrow :
    ∃ t, step (driven { pwmBase .ready with wk := ⟨.flushing, 0x0002#16, 1, .returned .busNackAddr none⟩ } [.worker] []) =
      .next t ∧ t.flog ≠ [] := ⟨_, rfl, by decide⟩
/-- LatchesAndFinalStatesStay: a legal state for each final state, and one before PWM_INIT. -/
theorem witness_LatchesAndFinalStatesStay :
    (∃ t, step (driven (pwmBase .ready) [.engine] []) = .next t) ∧ Legal (driven (pwmBase .ready) [.engine] []) ∧
    (pwmBase .ready).busInit = true ∧ (pwmBase .ready).pwmState = .ready ∧
    (∃ t, step (driven (pwmBase .failed) [.engine] []) = .next t) ∧ Legal (driven (pwmBase .failed) [.engine] []) ∧
    (∃ t, step (driven (pwmBase .uninit) [.engine] []) = .next t) ∧ Legal (driven (pwmBase .uninit) [.engine] []) :=
  ⟨⟨_, rfl⟩, legal_driven (legal_pwmBase (by decide)) _ _, rfl, rfl, ⟨_, rfl⟩,
    legal_driven (legal_pwmBase (by decide)) _ _, ⟨_, rfl⟩, legal_driven (legal_pwmBase (by decide)) _ _⟩
/-- A client in `Transact`, its call waiting, with the lock as given. -/
def inTransact (lock : Option Requester) (t : Transact) (replies : List Reply) : State :=
  driven { withClient (pwmBase .uninit) (some ⟨0x02010040#32, .segs [⟨0#32, []⟩]⟩) .bus t with lockOwner := lock } [] replies
/-- EveryRegisterHasItsWritersOnly: steps that change the registers of each clause. -/
theorem witness_EveryRegisterHasItsWritersOnly :
    (after (driven (issued base 0x01000000#32 .none) [.client 0] [])).busInit = true ∧
    (after (driven (issued base 0x20000000#32 .none) [.client 0] [])).desc ≠ base.desc ∧
    (after (driven (issued (pwmBase .uninit) 0x1003E840#32 .none) [.client 0] [])).pwmState = .initializing ∧
    (after (driven (issued (pwmBase .ready) 0x110F0200#32 .none) [.client 0] [])).dirty ≠ 0#16 ∧
    (after (driven (issued (pwmBase .ready) 0x110F0200#32 .none) [.client 0] [])).cache ≠ (pwmBase .ready).cache ∧
    (after (driven (issued (pwmBase .ready) 0x17000000#32 .none) [.client 0] [])).wake ≠ 0 ∧
    (after (driven { pwmBase .ready with wake := 1 } [.worker] [])).wk.phase = .capture := by decide
/-- EveryRegisterHasItsWritersOnly: a lock taken, a bus event, a response, a command handed in, a result delivered, and the
other two calls of `Transact`. -/
theorem witness_EveryRegisterHasItsWritersOnly_progress :
    (after { inTransact none (.waiting [Segment.w []] 0x40#7) [] with env := { Env.reset with sched := [.client 0] } }).lockOwner =
      some (.client 0) ∧
    (after (driven (busy (engineAt .begin 0 0 [Segment.w []]) []) [.engine] [])).trace = [.start] ∧
    resp (after (driven (issued base 0x17000000#32 .none) [.client 0] [])) = some ⟨.notInitialized, .none⟩ ∧
    waiting (after (driven base [.issue 0 ⟨0x01000000#32, .none⟩] [])) = true ∧
    (after (driven (busy (engineAt .stop 0 0 [Segment.w []]) []) [.engine] [])).tx (.client 0) = .returned .ok (some []) ∧
    (after (driven (issued (pwmBase .uninit) 0x1003E840#32 .none) [.client 0] [])).initTx ≠ .idle ∧
    (after (driven { pwmBase .ready with wk := ⟨.flushing, 0x0001#16, 0, .idle⟩ } [.worker] [])).wk.tx ≠ .idle := by decide
/-- CacheEntryIsTheLastStoredDuty: a step that changes the entry of channel 15, the last one. -/
theorem witness_CacheEntryIsTheLastStoredDuty :
    ∃ t, step (driven (issued (pwmBase .ready) 0x110F0200#32 .none) [.client 0] []) = .next t ∧
      t.cache[(15 : Fin 16)] ≠ (driven (issued (pwmBase .ready) 0x110F0200#32 .none) [.client 0] []).cache[(15 : Fin 16)] :=
  ⟨_, rfl, by decide⟩
/-- OnlyTheCaptureClearsADirtyBit: a capture with bits 0 and 15 set. -/
theorem witness_OnlyTheCaptureClearsADirtyBit :
    ∃ t, step (driven { pwmBase .ready with dirty := 0x8001#16, wk := { Worker.reset with phase := .capture } } [.worker] [])
      = .next t ∧ (0x8001#16).getLsbD 0 = true ∧ (0x8001#16).getLsbD 15 = true ∧ t.dirty = 0#16 :=
  ⟨_, rfl, by decide, by decide, rfl⟩
/-- CallerErrorsChangeNoState, EveryStatusIsInTheCommandsRow: a SET_PERIOD answered NOT_INITIALIZED. -/
theorem witness_CallerErrorsChangeNoState :
    Legal refused ∧ refused.runs 0 (.setPeriod 4096#16) ∧ step refused = .next (after refused) ∧
    (after refused).clients[0]? = some (Client.answered ⟨.notInitialized, .none⟩) ∧
    Status.isCallerError .notInitialized = true :=
  ⟨legal_driven (Legal.issue_keeps legal_base _) _ _, ⟨rfl, rfl⟩, rfl, rfl, rfl⟩
/-- ExecuteChecksThenCallsTransact, WriteChecksThenCallsTransact, ReadChecksThenCallsTransact,
AtomicTransferChecksThenCallsTransact: states before the first step, and operands for every clause. -/
theorem witness_firstSteps :
    (issued base 0#32 .none).phase ≠ .bus ∧ (issued base 0#32 .none).busInit = false ∧
    (issued bound 0#32 .none).phase ≠ .bus ∧ (issued bound 0#32 .none).busInit = true ∧
    (issued bound 0#32 .none).desc[(0#8).toNat]? = some ⟨true, 0x40#7⟩ ∧
    (issued bound 0#32 .none).desc[(1#8).toNat]? = some ⟨true, 0#7⟩ ∧
    (issued bound 0#32 .none).desc[(255#8).toNat]? = none ∧
    segLegal (Segment.r 0#16) = false ∧ segLegal ⟨.write, false, 0#7, 2#16, [0x00#8]⟩ = false ∧
    (1#8).toNat = [Segment.r 1#16].length ∧ (1#16).toNat = [Segment.r 1#16].length ∧ (2#8).toNat ≠ [Segment.r 1#16].length ∧
    ([Segment.r 1#16] ≠ [] ∧ [Segment.r 1#16].all segLegal = true) ∧
    (1#16).toNat = [0x00#8].length ∧ (3#16).toNat ≠ [0x00#8, 0x11#8].length := by decide
/-- BusCommandWaitsForTheLock: the lock free, held with a timeout, held without, and the engine at work. -/
theorem witness_BusCommandWaitsForTheLock :
    Instr.usesBus (.execute 1#8 0x40#7 [Segment.w []]) = true ∧
    ((inTransact none (.waiting [Segment.w []] 0x40#7) []).phase = .bus ∧
      (inTransact none (.waiting [Segment.w []] 0x40#7) []).tx (.client 0) = .waiting [Segment.w []] 0x40#7 ∧
      (inTransact none (.waiting [Segment.w []] 0x40#7) []).lockOwner = none) ∧
    ((inTransact (some .worker) (.waiting [Segment.w []] 0x40#7) [refuse]).lockOwner ≠ none ∧
      (inTransact (some .worker) (.waiting [Segment.w []] 0x40#7) [refuse]).reply.lock = .timeout) ∧
    (inTransact (some .worker) (.waiting [Segment.w []] 0x40#7) [accept 0#8]).reply.lock = .goOn ∧
    (inTransact (some (.client 0)) .running []).tx (.client 0) = .running := by decide
/-- BusCommandAnswersItsResult: a result with bytes, and a failure. -/
theorem witness_BusCommandAnswersItsResult :
    (inTransact none (.returned .ok (some [0x11#8])) []).phase = .bus ∧
    (inTransact none (.returned .ok (some [0x11#8])) []).tx (.client 0) = .returned .ok (some [0x11#8]) ∧
    (inTransact none (.returned .busTimeout none) []).tx (.client 0) = .returned .busTimeout none := by decide
/-- A result delivered to client 0, which responds; then nothing is left to do. -/
def answering : Execution where
  state n :=
    match n with
    | 0 => inTransact none (.returned .ok (some [0x11#8])) []
    | _ + 1 => after (driven (inTransact none (.returned .ok (some [0x11#8])) []) [.client 0] [])
  move n :=
    match n with
    | 0 => .client 0
    | _ + 1 => .engine
  steps n :=
    match n with
    | 0 => ⟨Env.reset, rfl⟩
    | _ + 1 => ⟨Env.reset, rfl⟩
/-- BusCommandAnswersItsResult, its last clause: that execution is fair to the client. -/
theorem witness_BusCommandAnswersItsResult_fair :
    answering.weaklyFair (.client 0) ∧
    (answering.state 0).clients[0]? =
      some ⟨some ⟨0x02010040#32, .segs [⟨0#32, []⟩]⟩, .bus, .returned .ok (some [0x11#8]), none⟩ ∧
    (decode ⟨0x02010040#32, .segs [⟨0#32, []⟩]⟩ = .ok (.execute 1#8 0x40#7 [Segment.w []]) ∧
      Instr.usesBus (.execute 1#8 0x40#7 [Segment.w []]) = true) ∧
    (answering.state 0).lockOwner ≠ some (.client 0) :=
  ⟨fun n => ⟨n + 1, Nat.le_succ n, .inl rfl⟩, rfl, by decide, by decide⟩
/-- EngineOpensAndStops, EngineSendsTheAddressByte, EngineSendsADataByte, EngineReceivesADataByte: every phase, every
answer, the last segment and one before it. -/
theorem witness_enginePhases :
    (busy (engineAt .begin 0 0 [Segment.w []]) []).lockOwner = some (.client 0) ∧
    (busy (engineAt .begin 0 0 [Segment.w []]) []).eng.phase = .begin ∧
    (busy (engineAt .stop 0 0 [Segment.w []]) []).eng.phase = .stop ∧
    (busy (engineAt .addr 0 0 [Segment.w [], Segment.r 2#16]) [accept 0#8]).eng.segs[(0 : Nat)]? = some (Segment.w []) ∧
    (busy (engineAt .addr 0 0 [Segment.w [], Segment.r 2#16]) [accept 0#8]).reply.target = .ack ∧
    0 + 1 < [Segment.w [], Segment.r 2#16].length ∧ ¬ 1 + 1 < [Segment.w [], Segment.r 2#16].length ∧
    (busy (engineAt .addr 1 0 [Segment.w [], Segment.r 2#16]) [refuse]).reply.target = .nack ∧
    (busy (engineAt .addr 1 0 [Segment.w [], Segment.r 2#16]) [⟨.stretchTo, .fail .stretchTo, .goOn⟩]).reply.target = .stretchTo ∧
    (busy (engineAt .addr 1 0 [Segment.w [], Segment.r 2#16]) [⟨.timeout, .fail .timeout, .goOn⟩]).reply.target = .timeout ∧
    (Segment.w [0x00#8, 0x11#8]).data[(1 : Nat)]? = some 0x11#8 ∧ 1 + 1 = (Segment.w [0x00#8, 0x11#8]).len.toNat ∧
    0 + 1 ≠ (Segment.w [0x00#8, 0x11#8]).len.toNat ∧
    (busy (engineAt .rdata 1 1 [Segment.w [], Segment.r 2#16]) [accept 0x04#8]).reply.rx = .byte 0x04#8 ∧
    (busy (engineAt .rdata 1 1 [Segment.w [], Segment.r 2#16]) [refuse]).reply.rx = .fail .timeout ∧
    1 + 1 = (Segment.r 2#16).len.toNat := by decide
/-- A busy engine at the last byte of a write. -/
theorem engineBusy_wdata (replies : List Reply) : EngineBusy (busy (engineAt .wdata 0 0 [Segment.w [0x00#8]]) replies).eng where
  active := show EngPhase.wdata ≠ EngPhase.idle by decide
  segs := show [Segment.w [0x00#8]] ≠ [] ∧ [Segment.w [0x00#8]].all segLegal = true by decide
  cursor := ⟨Segment.w [0x00#8], rfl, rfl, Nat.zero_lt_one⟩
  status := rfl
  okYet := fun _ => rfl
/-- AFaultIsFollowedByStopAndRelease: the last byte refused. -/
theorem witness_AFaultIsFollowedByStopAndRelease :
    (busy (engineAt .wdata 0 0 [Segment.w [0x00#8]]) [refuse]).lockOwner = some (.client 0) ∧
    EngineBusy (busy (engineAt .wdata 0 0 [Segment.w [0x00#8]]) [refuse]).eng ∧
    (busy (engineAt .wdata 0 0 [Segment.w [0x00#8]]) [refuse]).eng.phase ≠ .stop ∧
    (engineStep (busy (engineAt .wdata 0 0 [Segment.w [0x00#8]]) [refuse])).eng.status ≠ .ok :=
  ⟨rfl, engineBusy_wdata _, by decide, by decide⟩
/-- EngineStepIsARowOfTheTable, EveryTransactionEndsInBoundedSteps. -/
theorem witness_EveryTransactionEndsInBoundedSteps :
    (busy (engineAt .wdata 0 0 [Segment.w [0x00#8]]) []).lockOwner ≠ none ∧
    EngineBusy (busy (engineAt .wdata 0 0 [Segment.w [0x00#8]]) []).eng := ⟨by decide, engineBusy_wdata _⟩
/-- EveryTransactionEndsInBoundedSteps, its second clause: an execution in which the engine moves. -/
theorem witness_EveryTransactionEndsInBoundedSteps_fair :
    ∃ x : Execution, x.weaklyFair .engine ∧ (x.state 0).lockOwner ≠ none ∧ EngineBusy (x.state 0).eng :=
  ⟨.always .engine engineStep (fun _ => rfl) (busy (engineAt .wdata 0 0 [Segment.w [0x00#8]]) []),
    Execution.always_fair (a := .engine) (fun _ => rfl) _, by decide, engineBusy_wdata _⟩
/-- AcceptedTransactionSendsItsSegmentsAndDelivers: a write and a read with every byte accepted. -/
theorem witness_AcceptedTransactionSendsItsSegmentsAndDelivers :
    let segs := [Segment.w [0x06#8], Segment.r 1#16]
    let s := busy (Engine.load segs 0x40#7) [accept 0#8, accept 0#8, accept 0#8, accept 0x0A#8]
    s.lockOwner = some (.client 0) ∧ (segs ≠ [] ∧ segs.all segLegal = true) ∧ segsDraws segs ≤ s.env.replies.length ∧
    (s.env.replies.take (segsDraws segs)).all Reply.accepts = true ∧ s.tx (.client 0) = .running := by decide
/-- OpenTakesTheLowestClosedEntry: a closed entry behind an open one, and a full table. -/
theorem witness_OpenTakesTheLowestClosedEntry :
    ({ base with desc := [⟨true, 0x40#7⟩, ⟨false, 0#7⟩] } : State).desc = [⟨true, 0x40#7⟩] ++ ⟨false, 0#7⟩ :: [] ∧
    (∀ e ∈ ([⟨true, 0x40#7⟩] : List Desc), e.isOpen = true) ∧ (∀ e ∈ bound.desc, e.isOpen = true) := by decide
/-- CloseUnbindsAnOpenDescriptor, BindStoresASevenBitAddress: an open id, the largest 7-bit address, the smallest value that is
none, an id beyond the table and a closed one. -/
theorem witness_descriptorIds :
    bound.desc[(0#8).toNat]? = some ⟨true, 0x40#7⟩ ∧ (0x7F#8).toNat ≤ 0x7F ∧ 0x7F < (0x80#8).toNat ∧
    bound.desc[(2#8).toNat]? = none ∧ base.desc[(0#8).toNat]? = some ⟨false, 0#7⟩ := by decide
/-- OnEdgesAreStaggeredBy256, DutyOfEncodeLedIsTheDuty, LedFrameCarriesTheDuty, DecodeLedInvertsLedBytes: the ranges are not
empty at their ends. -/
theorem witness_ledRanges :
    0 < 16 ∧ 15 < 16 ∧ (0 : Nat) ≠ 15 ∧ 0 < 1 ∧ 1 < 4096 ∧ 0 < 4095 ∧ 4095 < 4096 ∧ 4 ≤ 4 ∧ 7 ≤ 7 := by decide
/-- DutyOfEncodeLedIsTheDuty: fields for each case, both flags set among them, and counts that wrap. -/
theorem witness_DutyOfEncodeLedIsTheDuty :
    ((⟨0#12, true, 0#12, true⟩ : LedFields).fullOff = true) ∧
    ((⟨1#12, true, 0#12, false⟩ : LedFields).fullOff = false ∧ (⟨1#12, true, 0#12, false⟩ : LedFields).fullOn = true) ∧
    dutyOf ⟨0xF00#12, false, 0x100#12, false⟩ = 512 := by decide
/-- EngineOpensAndStops, SetDutyStoresThenPostsAndTriggerPosts, GetDutyAnswersTheCache: the lock FREE, and a state before READY
with the command at its first step. -/
theorem witness_noStep :
    base.lockOwner = none ∧ (issued base 0x11030064#32 .none).phase ≠ .post ∧
    (issued base 0x11030064#32 .none).pwmState ≠ .ready := by decide
/-- A client in the initialisation sequence. -/
def inInit (step : Nat) (lock : Option Requester) (t : Transact) (replies : List Reply) : State :=
  driven { withClient (pwmBase .initializing) (some ⟨0x1003E840#32, .none⟩) .sequence .idle with
    initStep := step
    initTx := t
    lockOwner := lock } [] replies
/-- PwmInitChecksThenStartsTheSequence: every refusal, and the accepted ends of the frequency range. -/
theorem witness_PwmInitChecksThenStartsTheSequence :
    (issued (pwmBase .uninit) 0x1003E840#32 .none).phase ≠ .sequence ∧ (pwmBase .failed).pwmState ≠ .uninit ∧
    (base.pwmState = .uninit ∧ base.busInit = false) ∧
    ((pwmBase .uninit).pwmState = .uninit ∧ (pwmBase .uninit).busInit = true) ∧ (23#16).toNat < 24 ∧ 1743 < (1744#16).toNat ∧
    computePrescaler 25000000 (24#16).toNat = some 253#8 ∧ computePrescaler 25000000 (1743#16).toNat = some 3#8 := by decide
/-- PwmInitWaitsForTheLock. -/
theorem witness_PwmInitWaitsForTheLock :
    ((inInit 1 none (.waiting [Segment.w []] 0x40#7) []).phase = .sequence ∧
      (inInit 1 none (.waiting [Segment.w []] 0x40#7) []).initTx = .waiting [Segment.w []] 0x40#7 ∧
      (inInit 1 none (.waiting [Segment.w []] 0x40#7) []).lockOwner = none) ∧
    ((inInit 1 (some .worker) (.waiting [Segment.w []] 0x40#7) [refuse]).lockOwner ≠ none ∧
      (inInit 1 (some .worker) (.waiting [Segment.w []] 0x40#7) [refuse]).reply.lock = .timeout) ∧
    (inInit 1 (some .worker) (.waiting [Segment.w []] 0x40#7) [accept 0#8]).reply.lock = .goOn ∧
    (inInit 1 (some .init) .running []).initTx = .running := by decide
/-- PwmInitSequenceGoesOn: every step, the lock free, and held. -/
theorem witness_PwmInitSequenceGoesOn :
    [1, 2, 3, 4, 5, 6].all (fun k => decide ((inInit k none (.returned .ok (some [])) []).phase = .sequence) &&
      decide ((inInit k none (.returned .ok (some [])) []).initTx = .returned .ok (some [])) &&
      decide ((inInit k none (.returned .ok (some [])) []).initStep = k) &&
      decide ((inInit k none (.returned .ok (some [])) []).lockOwner = none)) = true ∧
    (inInit 2 (some .worker) (.returned .ok (some [])) []).lockOwner ≠ none ∧
    ((inInit 7 none .idle []).initTx = .idle ∧ (inInit 7 none .idle []).initStep = 7) := by decide
/-- PwmInitFailureIsFinal: at step 1 and at a later one. -/
theorem witness_PwmInitFailureIsFinal :
    ((inInit 1 none (.returned .busNackAddr none) []).phase = .sequence ∧
      (inInit 1 none (.returned .busNackAddr none) []).initTx = .returned .busNackAddr none ∧ Status.busNackAddr ≠ .ok) ∧
    (inInit 6 none (.returned .busTimeout none) []).initTx = .returned .busTimeout none := by decide
/-- SetDutyStoresThenPostsAndTriggerPosts, GetDutyAnswersTheCache, ThePeriodIsFixedAt4096,
PwmCommandsBeforeReadyAreRefused: the last channel, the first that is none, READY and not READY, both steps of SET_DUTY. -/
theorem witness_duties :
    (15#8).toNat < 16 ∧ 16 ≤ (16#8).toNat ∧ (issued (pwmBase .ready) 0x110F0200#32 .none).phase ≠ .post ∧
    (issued (pwmBase .ready) 0x110F0200#32 .none).pwmState = .ready ∧
    (withClient (pwmBase .ready) (some ⟨0x110F0200#32, .none⟩) .post .idle).phase = .post ∧
    4095#16 ≠ 4096#16 ∧ Instr.needsReady (.getDuty 15#8) = true ∧ (pwmBase .failed).pwmState ≠ .ready ∧
    (issued (pwmBase .failed) 0x120F0000#32 .none).phase ≠ .post ∧ Instr.isChannelQuery (.getDuty 15#8) = true := by decide
/-- A worker with these registers. -/
def working (w : Worker) (lock : Option Requester) (replies : List Reply) : State :=
  driven { pwmBase .ready with wk := w, lockOwner := lock } [] replies
/-- WorkerWakesAndCaptures: a wake, none, an empty mask, a mask with its lowest bit at 0 and at 15. -/
theorem witness_WorkerWakesAndCaptures :
    ((pwmBase .ready).wk.phase = .idle ∧ 0 < ({ pwmBase .ready with wake := 1 } : State).wake ∧ (pwmBase .ready).wake = 0) ∧
    ((working ⟨.capture, 0#16, 0, .idle⟩ none []).wk.phase = .capture ∧ (working ⟨.capture, 0#16, 0, .idle⟩ none []).dirty = 0#16) ∧
    ((0x8001#16).getLsbD 0 = true ∧ ∀ k < 0, (0x8001#16).getLsbD k = false) ∧
    ((0x8000#16).getLsbD 15 = true ∧ ∀ k < 15, (0x8000#16).getLsbD k = false) := by decide
/-- WorkerWakesAndCaptures, its first clause: an execution in which the worker moves. -/
theorem witness_WorkerWakesAndCaptures_fair :
    ∃ x : Execution, x.weaklyFair .worker ∧ (x.state 0).wk.phase = .idle ∧ 0 < (x.state 0).wake :=
  ⟨.always .worker workerStep (fun _ => rfl) { pwmBase .ready with wake := 1 },
    Execution.always_fair (a := .worker) (fun _ => rfl) _, rfl, by decide⟩
/-- A block at rest has executions fair to every agent (R350). -/
theorem witness_fair : ∃ x : Execution, x.fair ∧ x.state 0 = base :=
  ⟨.always .engine engineStep (fun _ => rfl) base, fun a n => ⟨n, Nat.le_refl n, .inl (by
    show State.enabled (engineStep^[n] base) a = false
    rw [Function.iterate_fixed (rfl : engineStep base = base)]
    cases a with
    | client j => cases j <;> rfl
    | engine => rfl
    | worker => rfl)⟩, rfl⟩
/-- WorkerWritesItsPassInAscendingOrder: a channel to write, the next one, and the end of the pass. -/
theorem witness_WorkerWritesItsPassInAscendingOrder :
    ((working ⟨.flushing, 0x8001#16, 15, .idle⟩ none []).wk.phase = .flushing ∧
      (working ⟨.flushing, 0x8001#16, 15, .idle⟩ none []).wk.ch = (15 : Fin 16).val) ∧
    ((working ⟨.flushing, 0x8001#16, 0, .returned .ok (some [])⟩ none []).wk.ch < 16 ∧ (0x8001#16).getLsbD 15 = true ∧
      ∀ k < 15, 0 < k → (0x8001#16).getLsbD k = false) ∧
    (working ⟨.flushing, 0x8001#16, 16, .idle⟩ none []).wk.ch = 16 := by decide
/-- WorkerWaitsForTheLock. -/
theorem witness_WorkerWaitsForTheLock :
    ((working ⟨.flushing, 0x0001#16, 0, .waiting [Segment.w []] 0x40#7⟩ none []).wk.phase = .flushing ∧
      (working ⟨.flushing, 0x0001#16, 0, .waiting [Segment.w []] 0x40#7⟩ none []).lockOwner = none) ∧
    ((working ⟨.flushing, 0x0001#16, 0, .waiting [Segment.w []] 0x40#7⟩ (some .init) [refuse]).lockOwner ≠ none ∧
      (working ⟨.flushing, 0x0001#16, 0, .waiting [Segment.w []] 0x40#7⟩ (some .init) [refuse]).reply.lock = .timeout) ∧
    (working ⟨.flushing, 0x0001#16, 0, .running⟩ (some .worker) []).wk.tx = .running := by decide
/-- The four frame statements: for every command some state in which it answers a next state. -/
theorem witness_frames (i : Instr) : ∃ t, exec i base = .next t := by cases i <;> exact ⟨_, rfl⟩

end Sys2Proof.Tests
end

section
/-! PROOFS. `Respond` as a step of its own, and what it changes (00_scope R9, 10_state R35). -/

namespace Sys2Proof.Machine

/-! ## Where the response is due -/

/-- Where a command's response is due, `respondOr` gives it, whatever the command's first step is. -/
theorem State.respondOr_of_phase_respond {s : State} {r : Response} (hr : s.phase = .respond r) (first : State) :
    s.respondOr first = s.respond r.status r.result := by
  simp [State.respondOr, hr]

/-- PWM_INIT outside its sequence is its first step or `Respond`, as the other commands that respond later (R240, R248). -/
theorem execPwmInit_eq_respondOr {s : State} (hs : s.phase ≠ .sequence) (freq : BitVec 16) (addr : Addr7) :
    exec (.pwmInit freq addr) s = .next (s.respondOr (pwmInitStart freq addr s)) := by
  change execPwmInit freq addr s = _
  unfold execPwmInit
  split
  case h_1 hseq => exact absurd hseq hs
  case h_2 => rfl

/-- Every command that responds later is, outside PWM_INIT's sequence, one first step and then `Respond` (R9). -/
theorem exec_eq_respondOr {i : Instr} {s : State} (hi : Instr.respondsLater i = true) (hs : s.phase ≠ .sequence) :
    ∃ first, exec i s = .next (s.respondOr first) := by
  cases i with
  | busInit => exact ⟨busInitStart s, rfl⟩
  | pwmInit freq addr => exact ⟨_, execPwmInit_eq_respondOr hs freq addr⟩
  | getDuty ch => exact ⟨getDutyStart ch s, rfl⟩
  | flushTrigger => exact ⟨flushTriggerStart s, rfl⟩
  | openDesc => exact ⟨openStart s, rfl⟩
  | closeDesc fd => exact ⟨closeStart fd s, rfl⟩
  | bindAddress fd a8 => exact ⟨bindStart fd a8 s, rfl⟩
  | execute | setDuty | getPeriod | getPeriodMin | getPeriodMax | setPeriod | readDesc | writeDesc | atomicTransfer =>
    simp [Instr.respondsLater] at hi

/-- R9 for every command that responds later: with its response due, its next step is `Respond`. -/
theorem respondsNext_of_respondsLater {i : Instr} (hi : Instr.respondsLater i = true) : RespondsNext i := by
  intro s r hr
  obtain ⟨first, hexec⟩ := exec_eq_respondOr hi (s := s) (by simp [hr])
  rw [hexec, State.respondOr_of_phase_respond hr first]

/-! ## What making a response due and giving it change -/

/-- `thenRespond` changes the current client's phase only. -/
theorem State.thenRespond_eq (s : State) (st : Status) (res : Result) : s.thenRespond st res =
    { s with clients := (s.clients.modify s.env.cur (fun c => { c with phase := .respond ⟨st, res⟩ })) } := rfl

/-- `respond` replaces the current client's record, and changes nothing else. -/
theorem State.respond_eq (s : State) (st : Status) (res : Result) : s.respond st res =
    { s with clients := (s.clients.modify s.env.cur
        (fun _ => { cmd := none, phase := .start, tx := .idle, resp := some ⟨st, res⟩ })) } := rfl

/-- `raise` is `respond` without a result (60 R304). -/
theorem State.raise_eq_respond (s : State) (st : Status) : s.raise st = s.respond st .none := rfl

/-- Settles O6: the commands that respond later share `respondOr`, which gives the response due; the other three clauses are
the equations of `thenRespond`, `respond` and `raise`. -/
theorem respondEndsTheCommandOnly : Obligations.RespondEndsTheCommandOnly :=
  ⟨fun _ hi => respondsNext_of_respondsLater hi, State.thenRespond_eq, State.respond_eq, State.raise_eq_respond⟩

end Sys2Proof.Machine
end

section
/-! PROOFS. The invariant: every step of every agent keeps a legal state legal. The agents' own steps are Laws/Legal.lean's; the
commands are added here, group by group. -/

namespace Sys2Proof.Machine

/-! ## The groups of commands -/

/-- Every command may answer `OK` (60 R303). -/
theorem ok_mem_allowedStatuses (i : Instr) : .ok ∈ allowedStatuses i := by cases i <;> simp [allowedStatuses]

/-- A bus command answers its delivered result at once. -/
theorem Instr.respondsLater_of_usesBus {i : Instr} (h : usesBus i = true) : respondsLater i = false := by
  cases i <;> simp_all [usesBus, respondsLater]

/-- A query of the channel handle does not call `Transact`. -/
theorem Instr.usesBus_of_isChannelQuery {i : Instr} (h : isChannelQuery i = true) : usesBus i = false := by
  cases i <;> simp_all [usesBus, isChannelQuery]

/-- OPEN, CLOSE and BIND_ADDRESS do not call `Transact`. -/
theorem Instr.usesBus_of_writesDesc {i : Instr} (h : writesDesc i = true) : usesBus i = false := by
  cases i <;> simp_all [usesBus, writesDesc]

/-- OPEN, CLOSE and BIND_ADDRESS respond in a step of their own. -/
theorem Instr.respondsLater_of_writesDesc {i : Instr} (h : writesDesc i = true) : respondsLater i = true := by
  cases i <;> simp_all [respondsLater, writesDesc]

/-! ## How far a legal client's command can be -/

/-- The phases a legal client can be in, by its command. -/
theorem ClientLegal.phase_cases {c : Client} {i : Instr} (hcl : ClientLegal c) (hi : c.instr = some i) :
    (c.phase = .start ∧ c.tx = .idle) ∨
    (c.phase = .post ∧ c.tx = .idle ∧ ∃ ch val, i = .setDuty ch val) ∨
    (c.phase = .sequence ∧ c.tx = .idle ∧ ∃ freq addr, i = .pwmInit freq addr) ∨
    (c.phase = .bus ∧ Instr.usesBus i = true) ∨
    (∃ r, c.phase = .respond r ∧ c.tx = .idle ∧ Instr.respondsLater i = true) := by
  obtain ⟨-, hph⟩ := hcl
  rw [hi] at hph
  cases hp : c.phase <;> simp only [hp, Option.some.injEq] at hph
  case start => exact .inl ⟨rfl, hph⟩
  case post => exact .inr (.inl ⟨rfl, hph⟩)
  case sequence => exact .inr (.inr (.inl ⟨rfl, hph⟩))
  case bus =>
    obtain ⟨-, i', rfl, hu⟩ := hph
    exact .inr (.inr (.inr (.inl ⟨rfl, hu⟩)))
  case respond r =>
    obtain ⟨htx, i', rfl, hl, -⟩ := hph
    exact .inr (.inr (.inr (.inr ⟨r, rfl, htx, hl⟩)))

/-- A legal client without a legal word pending is not past the start. -/
theorem ClientLegal.start_of_no_instr {c : Client} (hcl : ClientLegal c) (hi : c.instr = none) :
    c.phase = .start ∧ c.tx = .idle := by
  obtain ⟨-, hph⟩ := hcl
  cases hp : c.phase with
  | start => exact ⟨rfl, by simpa [hp] using hph⟩
  | _ => simp [hp, hi] at hph

/-- A bus command that is not inside `Transact` is at its first step. -/
theorem ClientLegal.start_of_usesBus {c : Client} {i : Instr} (hcl : ClientLegal c) (hi : c.instr = some i)
    (hu : Instr.usesBus i = true) (hp : c.phase ≠ .bus) : c.phase = .start ∧ c.tx = .idle := by
  rcases hcl.phase_cases hi with h | ⟨-, -, ch, val, rfl⟩ | ⟨-, -, freq, addr, rfl⟩ | ⟨h, -⟩ | ⟨r, -, -, hl⟩
  · exact h
  · cases hu
  · cases hu
  · exact absurd h hp
  · rw [Instr.respondsLater_of_usesBus hu] at hl
    cases hl

/-- A command that never calls `Transact` as its client has no call in progress. -/
theorem ClientLegal.tx_idle {c : Client} {i : Instr} (hcl : ClientLegal c) (hi : c.instr = some i)
    (hu : Instr.usesBus i = false) : c.tx = .idle := by
  rcases hcl.phase_cases hi with ⟨-, h⟩ | ⟨-, h, -⟩ | ⟨-, h, -⟩ | ⟨-, hb⟩ | ⟨r, -, h, -⟩
  · exact h
  · exact h
  · exact h
  · rw [hb] at hu; cases hu
  · exact h

/-- Only PWM_INIT runs the sequence. -/
theorem ClientLegal.not_sequence {c : Client} {i : Instr} (hcl : ClientLegal c) (hi : c.instr = some i)
    (hne : ∀ freq addr, i ≠ .pwmInit freq addr) : c.phase ≠ .sequence := by
  intro hs
  rcases hcl.phase_cases hi with ⟨h, -⟩ | ⟨h, -⟩ | ⟨-, -, freq, addr, h⟩ | ⟨h, -⟩ | ⟨r, h, -⟩
  · simp [h] at hs
  · simp [h] at hs
  · exact hne freq addr h
  · simp [h] at hs
  · simp [h] at hs

/-- Only SET_DUTY posts. -/
theorem ClientLegal.not_post {c : Client} {i : Instr} (hcl : ClientLegal c) (hi : c.instr = some i)
    (hne : ∀ ch val, i ≠ .setDuty ch val) : c.phase ≠ .post := by
  intro hs
  rcases hcl.phase_cases hi with ⟨h, -⟩ | ⟨-, -, ch, val, h⟩ | ⟨h, -⟩ | ⟨h, -⟩ | ⟨r, h, -⟩
  · simp [h] at hs
  · exact hne ch val h
  · simp [h] at hs
  · simp [h] at hs
  · simp [h] at hs

/-! ## What the writes of the commands do to a legal state -/

/-- `Post()` keeps a state legal: one more wake is pending. -/
theorem Legal.post_keeps {s : State} (hL : Legal s) : Legal s.post := by
  obtain ⟨hcache, htr, hfree, hheld, hholder, hcl, hpwm, hwk, -⟩ := hL
  exact ⟨hcache, htr, hfree, hheld, fun r => by cases r <;> exact hholder _, hcl,
    PwmLegal.congr _ hpwm rfl rfl rfl rfl rfl rfl rfl, hwk, fun _ => .inl (Nat.succ_pos _)⟩

/-- The latch of BUS_INIT (R130) keeps a state legal. -/
theorem Legal.latch_keeps {s : State} (hL : Legal s) : Legal { s with cfg := BusConfig.parameters, busInit := true } := by
  obtain ⟨hcache, htr, hfree, hheld, hholder, hcl, hpwm, hwk, hdirty⟩ := hL
  obtain ⟨hlatch, hrange, hlast, hno, hrun, hone, htx⟩ := hpwm
  exact ⟨hcache, htr, hfree, hheld, fun r => by cases r <;> exact hholder _, hcl,
    ⟨fun h => ⟨rfl, (hlatch h).2⟩, hrange, hlast, hno, hrun, hone, htx⟩, hwk, hdirty⟩

/-- Writing the descriptor table keeps a state legal. -/
theorem Legal.setDesc_keeps {s : State} (hL : Legal s) (n : Nat) (d : Desc) : Legal (s.setDesc n d) := by
  apply Legal.congr hL <;> rfl

/-- A stored duty of at most `PWM_MAX` keeps a state legal while some client is about to post (R250, R251). -/
theorem Legal.storeDuty_keeps {s : State} (hL : Legal s) (c : Fin 16) {v : Nat} (hv : v ≤ Config.pwmMax)
    (hp : s.somePosting) : Legal (s.storeDuty c v) := by
  obtain ⟨hcache, htr, hfree, hheld, hholder, hcl, hpwm, hwk, -⟩ := hL
  refine ⟨fun k => ?_, htr, hfree, hheld, fun r => by cases r <;> exact hholder _, hcl,
    PwmLegal.congr _ hpwm rfl rfl rfl rfl rfl rfl rfl, hwk, fun _ => .inr (.inr hp)⟩
  have hk := hcache k
  simp only [State.storeDuty_cache, Fin.getElem_fin, Vector.getElem_set] at hk ⊢
  split
  · exact hv
  · exact hk

/-- A reading of `Legal` that the model's own inputs do not enter. -/
theorem Legal.env_keeps {s : State} (hL : Legal s) (e : Env) : Legal { s with env := e } := by
  apply Legal.congr hL <;> rfl

/-- Taking the move keeps a state legal. -/
theorem Legal.afterMove_keeps {s : State} (hL : Legal s) : Legal s.afterMove := by
  apply Legal.congr hL <;> simp

/-! ## What the shared endings do to a legal state -/

section
variable {s : State} {c : Client} {i : Instr}

/-- Answering keeps a state legal outside the sequence, outside a running call and, unless a wake is posted, outside the second
step of SET_DUTY. -/
theorem Legal.respond_keeps (hL : Legal s) (hc : s.clients[s.env.cur]? = some c) (htx : c.tx ≠ .running)
    (hseq : c.phase ≠ .sequence) (hpost : c.phase = .post → 0 < s.wake) (st : Status) (res : Result) :
    Legal (s.respond st res) := by
  refine Legal.answered_keeps hL ⟨st, res⟩ fun d hd => ?_
  rw [hc] at hd
  cases hd
  exact ⟨htx, hseq, fun hp => .inl (hpost hp)⟩

/-- Answering a command that neither calls `Transact` nor runs the sequence nor posts keeps a state legal. -/
theorem Legal.respond_keeps_of_plain (hL : Legal s) (hc : s.clients[s.env.cur]? = some c) (hi : c.instr = some i)
    (hu : Instr.usesBus i = false) (hinit : ∀ freq addr, i ≠ .pwmInit freq addr) (hduty : ∀ ch val, i ≠ .setDuty ch val)
    (st : Status) (res : Result) : Legal (s.respond st res) := by
  have hcl := (hL.clients _ c hc).1
  exact hL.respond_keeps hc (by rw [hcl.tx_idle hi hu]; simp) (hcl.not_sequence hi hinit)
    (fun hp => absurd hp (hcl.not_post hi hduty)) st res

/-- Calling `Transact` with a legal list, from a bus command's first step, keeps a state legal. -/
theorem Legal.callTransact_keeps (hL : Legal s) (hc : s.clients[s.env.cur]? = some c) (hi : c.instr = some i)
    (hu : Instr.usesBus i = true) (hp : c.phase ≠ .bus) {segs : List Segment} (hs : SegsLegal segs) (dflt : Addr7)
    (hrd : (∃ fd len, i = .readDesc fd len) → allReads segs) : Legal (s.callTransact segs dflt) := by
  obtain ⟨hcl, hread⟩ := hL.clients _ c hc
  obtain ⟨hst, htx⟩ := hcl.start_of_usesBus hi hu hp
  refine Legal.updClient hL hc (by simp [htx]) ⟨hs, by simp, i, hi, hu⟩ ?_ (by simp [hst]) (by simp [hst])
  rintro ⟨fd, len, he⟩
  have he' : c.instr = some (.readDesc fd len) := he
  obtain ⟨-, -, howner⟩ := hread ⟨fd, len, he'⟩
  refine ⟨fun segs' dflt' h => ?_, (by simp), howner⟩
  cases h
  exact hrd ⟨fd, len, Option.some.inj (hi.symm.trans he')⟩

/-- A step inside `Transact` that ends with a response keeps a state legal. -/
theorem Legal.clientTransactStep_keeps (hL : Legal s) (hc : s.clients[s.env.cur]? = some c) (hp : c.phase = .bus)
    (res : Status → Option (List Byte) → Result) :
    Legal (s.clientTransactStep (fun st rx => s.respond st (res st rx))) := by
  rcases State.clientTransactStep_cases s (fun st rx => s.respond st (res st rx)) with
    ⟨segs, dflt, hw, e⟩ | ⟨-, e⟩ | ⟨st, rx, ht, e⟩ | ⟨-, e⟩ <;> rw [e]
  · exact hL.lockStep_keeps hw
  · exact hL
  · rw [State.tx_client hc] at ht
    exact hL.respond_keeps hc (by simp [ht]) (by simp [hp]) (by simp [hp]) _ _
  · exact hL

/-! ## The commands, group by group -/

/-- EXECUTE, READ, WRITE and ATOMIC_TRANSFER. -/
theorem Legal.execBus_keeps {t : State} (hL : Legal s) (hc : s.clients[s.env.cur]? = some c) (hi : c.instr = some i)
    (hu : Instr.usesBus i = true) (h : exec i s = .next t) : Legal t := by
  have hphase := State.phase_eq hc
  by_cases hp : s.phase = .bus
  · obtain ⟨res, e⟩ := execBus_bus_eq hu hp
    rw [e] at h
    cases h
    exact hL.clientTransactStep_keeps hc (hphase.symm.trans hp) res
  · have hcp : c.phase ≠ .bus := hphase ▸ hp
    obtain ⟨hst, htx⟩ := (hL.clients _ c hc).1.start_of_usesBus hi hu hcp
    have answered := hL.respond_keeps hc (by simp [htx]) (by simp [hst]) (by simp [hst])
    rcases execBus_start_cases hu hp h with ⟨st, rfl, -⟩ | ⟨res, rfl⟩ | ⟨segs, dflt, hs, rfl, hrd⟩
    · exact answered _ _
    · exact answered _ _
    · exact hL.callTransact_keeps hc hi hu hcp hs dflt hrd

/-- GET_DUTY, the period queries and SET_PERIOD. -/
theorem Legal.execChannelQuery_keeps {t : State} (hL : Legal s) (hc : s.clients[s.env.cur]? = some c)
    (hi : c.instr = some i) (hq : Instr.isChannelQuery i = true) (h : exec i s = .next t) : Legal t := by
  have hinit : ∀ freq addr, i ≠ .pwmInit freq addr := by rintro freq addr rfl; cases hq
  have hduty : ∀ ch val, i ≠ .setDuty ch val := by rintro ch val rfl; cases hq
  have answered := hL.respond_keeps_of_plain hc hi (Instr.usesBus_of_isChannelQuery hq) hinit hduty
  rcases execChannelQuery_cases hq h with ⟨r, -, -, rfl⟩ | ⟨st, res, rfl, -⟩ | ⟨res, hn, hl, rfl⟩
  · exact answered _ _
  · exact answered _ _
  · rw [State.phase_eq hc] at hn
    exact hL.thenRespond_keeps _ _ hc hi hl ((hL.clients _ c hc).1.not_sequence hi hinit) hn
      (ok_mem_allowedStatuses i) rfl

/-- OPEN, CLOSE and BIND_ADDRESS. -/
theorem Legal.execDesc_keeps {t : State} (hL : Legal s) (hc : s.clients[s.env.cur]? = some c) (hi : c.instr = some i)
    (hw : Instr.writesDesc i = true) (h : exec i s = .next t) : Legal t := by
  have hinit : ∀ freq addr, i ≠ .pwmInit freq addr := by rintro freq addr rfl; cases hw
  have hduty : ∀ ch val, i ≠ .setDuty ch val := by rintro ch val rfl; cases hw
  have answered := hL.respond_keeps_of_plain hc hi (Instr.usesBus_of_writesDesc hw) hinit hduty
  rcases execDesc_cases hw h with ⟨r, -, rfl⟩ | ⟨st, rfl, -⟩ | ⟨n, d, res, hn, rfl⟩
  · exact answered _ _
  · exact answered _ _
  · rw [State.phase_eq hc] at hn
    exact (hL.setDesc_keeps n d).thenRespond_keeps _ _ hc hi (Instr.respondsLater_of_writesDesc hw)
      ((hL.clients _ c hc).1.not_sequence hi hinit) hn (ok_mem_allowedStatuses i) rfl

end

section
variable {s t : State} {c : Client}

/-- BUS_INIT. -/
theorem Legal.execBusInit_keeps (hL : Legal s) (hc : s.clients[s.env.cur]? = some c) (hi : c.instr = some .busInit)
    (h : exec .busInit s = .next t) : Legal t := by
  have answered := hL.respond_keeps_of_plain hc hi rfl (by simp) (by simp)
  rcases execBusInit_cases h with ⟨r, -, rfl⟩ | ⟨-, rfl⟩ | ⟨hn, -, rfl⟩
  · exact answered _ _
  · exact answered _ _
  · rw [State.phase_eq hc] at hn
    exact hL.latch_keeps.thenRespond_keeps _ _ hc hi rfl ((hL.clients _ c hc).1.not_sequence hi (by simp)) hn
      (ok_mem_allowedStatuses _) rfl

/-- FLUSH_TRIGGER. -/
theorem Legal.execFlushTrigger_keeps (hL : Legal s) (hc : s.clients[s.env.cur]? = some c)
    (hi : c.instr = some .flushTrigger) (h : exec .flushTrigger s = .next t) : Legal t := by
  have answered := hL.respond_keeps_of_plain hc hi rfl (by simp) (by simp)
  rcases execFlushTrigger_cases h with ⟨r, -, rfl⟩ | ⟨-, rfl⟩ | ⟨hn, -, rfl⟩
  · exact answered _ _
  · exact answered _ _
  · rw [State.phase_eq hc] at hn
    exact hL.post_keeps.thenRespond_keeps _ _ hc hi rfl ((hL.clients _ c hc).1.not_sequence hi (by simp)) hn
      (ok_mem_allowedStatuses _) rfl

/-- SET_DUTY: its client is about to post from the store on, so the new dirty bit is pending. -/
theorem Legal.execSetDuty_keeps {ch : BitVec 8} {val : BitVec 16} (hL : Legal s) (hc : s.clients[s.env.cur]? = some c)
    (hi : c.instr = some (.setDuty ch val)) (h : exec (.setDuty ch val) s = .next t) : Legal t := by
  have hcl := (hL.clients _ c hc).1
  have htx := hcl.tx_idle hi rfl
  have hseq := hcl.not_sequence hi (by simp)
  rcases execSetDuty_cases h with ⟨-, rfl⟩ | ⟨hp, st, rfl, -⟩ | ⟨hp, -, k, -, rfl⟩
  · exact hL.post_keeps.respond_keeps hc (by simp [htx]) hseq (fun _ => Nat.succ_pos _) _ _
  · rw [State.phase_eq hc] at hp
    exact hL.respond_keeps hc (by simp [htx]) hseq (fun h => absurd h hp) _ _
  · have hposting : Legal (s.setPhase .post) :=
      Legal.updClient hL hc Iff.rfl ⟨by simp [htx, TxLegal], htx, ch, val, hi⟩
        (fun ⟨fd, len, he⟩ => absurd (hi.symm.trans he) (by simp)) (by simpa using hseq) (fun _ => .inl rfl)
    exact hposting.storeDuty_keeps k (Nat.min_le_right _ _) ⟨s.env.cur, _, State.updClient_self _ hc, rfl⟩

/-- PWM_INIT. -/
theorem Legal.execPwmInit_keeps {freq : BitVec 16} {addr : Addr7} (hL : Legal s) (hc : s.clients[s.env.cur]? = some c)
    (hi : c.instr = some (.pwmInit freq addr)) (h : exec (.pwmInit freq addr) s = .next t) : Legal t := by
  have hcl := (hL.clients _ c hc).1
  have hphase := State.phase_eq hc
  have htx := hcl.tx_idle hi rfl
  have answered : c.phase ≠ .sequence → ∀ st res, Legal (s.respond st res) := fun hseq =>
    hL.respond_keeps hc (by simp [htx]) hseq (fun hp => absurd hp (hcl.not_post hi (by simp)))
  rcases execPwmInit_cases h with ⟨hp, rfl⟩ | ⟨r, hp, rfl⟩ | ⟨hp, st, rfl, -⟩ | ⟨hp, hn, hu, hb, ha, p, hpre, rfl⟩
  · exact hL.initSequenceStep_keeps hc (hphase.symm.trans hp)
  · exact answered (by rw [← hphase, hp]; simp) _ _
  · exact answered (hphase ▸ hp) _ _
  · exact hL.beginSequence_keeps hc hi (hphase ▸ hp) (hphase ▸ hn) hu hb ha hpre

end

/-! ## Every step -/

/-- Every step of a client's command keeps a state legal. -/
theorem Legal.exec_keeps {s t : State} {c : Client} {i : Instr} (hL : Legal s) (hc : s.clients[s.env.cur]? = some c)
    (hi : c.instr = some i) (h : exec i s = .next t) : Legal t := by
  cases i with
  | execute | readDesc | writeDesc | atomicTransfer => exact hL.execBus_keeps hc hi rfl h
  | getDuty | getPeriod | getPeriodMin | getPeriodMax | setPeriod => exact hL.execChannelQuery_keeps hc hi rfl h
  | openDesc | closeDesc | bindAddress => exact hL.execDesc_keeps hc hi rfl h
  | busInit => exact hL.execBusInit_keeps hc hi h
  | flushTrigger => exact hL.execFlushTrigger_keeps hc hi h
  | setDuty => exact hL.execSetDuty_keeps hc hi h
  | pwmInit => exact hL.execPwmInit_keeps hc hi h

/-- A pending word that the decoder rejects stands in an existing client's record. -/
theorem State.pending_illegal {s : State} {j : Nat} (h : s.pending j = .illegal) :
    ∃ c, s.clients[j]? = some c ∧ c.instr = none := by
  unfold State.pending at h
  cases hc : s.clients[j]? with
  | none => simp [hc] at h
  | some c =>
    refine ⟨c, rfl, ?_⟩
    unfold Client.instr
    cases hm : c.cmd with
    | none => rfl
    | some cmd =>
      cases hd : decode cmd with
      | ok i => simp [hc, hm, hd] at h
      | error e => simp [hd]

/-- Answering an illegal word keeps a state legal: its client is at the start. -/
theorem Legal.illegalCommand_keeps {s : State} {j : Nat} (hL : Legal s) (hp : s.pending j = .illegal) :
    Legal ((s.selectClient j).raise .illegalCommand) := by
  obtain ⟨c, hc, hi⟩ := State.pending_illegal hp
  obtain ⟨hst, htx⟩ := (hL.clients j c hc).1.start_of_no_instr hi
  exact (hL.env_keeps _).respond_keeps (s := s.selectClient j) hc (by simp [htx]) (by simp [hst]) (by simp [hst]) _ _

/-- Settles O11: by the kind of step, each of which keeps a state legal. -/
theorem stepKeepsLegal : Obligations.StepKeepsLegal := by
  intro s t hL h
  have hM := hL.afterMove_keeps
  rcases step_cases h with ⟨j, cmd, -, rfl⟩ | ⟨j, -, -, rfl⟩ | ⟨j, -, hp, rfl⟩ | ⟨j, i, -, hp, he⟩ | ⟨-, rfl⟩ | ⟨-, rfl⟩
  · exact hM.issue_keeps cmd
  · exact hM
  · exact hM.illegalCommand_keeps (by simpa using hp)
  · obtain ⟨c, hc, hi⟩ := State.pending_instr hp
    exact (hM.env_keeps _).exec_keeps (s := s.afterMove.selectClient j) (by simpa using hc) hi he
  · exact hM.engineStep_keeps
  · exact hM.workerStep_keeps

end Sys2Proof.Machine
end

section
/-! PROOFS. Which registers a step can write (10_state R22 to R42), said once as a whole-state equation per kind of step: every
register an equation does not name is as before. The claims about writers, latches and histories are read off it. -/

namespace Sys2Proof.Machine

/-! ## What the shared operations write -/

/-- Taking the move changes the model's own inputs only. -/
theorem State.afterMove_eq (s : State) : s.afterMove = { s with env := s.afterMove.env } := by
  unfold State.afterMove
  split <;> rfl

/-- Drawing a reply changes the model's own inputs only. -/
theorem State.afterReply_eq (s : State) : s.afterReply = { s with env := s.afterReply.env } := by
  unfold State.afterReply
  split <;> rfl

/-- A lock step writes the lock, the engine registers and its requester's progress. -/
theorem State.lockStep_writes (s : State) (r : Requester) (segs : List Segment) (dflt : Addr7) : ∃ o g e,
    s.lockStep r segs dflt = { s with lockOwner := o, eng := g, env := e } ∨
    ∃ x, s.lockStep r segs dflt = { s with lockOwner := o, eng := g, env := e }.setTx r x := by
  rcases State.lockStep_cases s r segs dflt with ⟨-, e⟩ | ⟨-, -, e⟩ | ⟨-, -, e⟩ <;> rw [e]
  · exact ⟨_, _, _, .inr ⟨_, rfl⟩⟩
  · rw [State.afterReply_eq]
    exact ⟨_, _, _, .inr ⟨_, rfl⟩⟩
  · rw [State.afterReply_eq]
    exact ⟨_, _, _, .inl rfl⟩

/-- A step of the engine before STOP writes the engine registers and the trace; STOP also frees the lock and delivers. -/
theorem engineStep_writes (s : State) :
    (∃ g tr e, s.trace <+: tr ∧ engineStep s = { s with eng := g, trace := tr, env := e }) ∨
    (∃ r g x, engineStep s = { s with lockOwner := none, eng := g, trace := s.trace ++ [Event.stop] }.setTx r x) := by
  rcases engineStep_cases s with e | ⟨r, -, ⟨-, e⟩ | ⟨seg, -, -, e⟩ | ⟨seg, d, -, -, -, e⟩ | ⟨seg, -, -, e⟩ | ⟨-, e⟩⟩ <;>
    rw [e]
  · exact .inl ⟨_, _, _, List.prefix_rfl, rfl⟩
  · exact .inl ⟨_, _, _, List.prefix_append _ _, rfl⟩
  · rw [engineAddr, State.afterReply_eq]
    exact .inl ⟨_, _, _, List.prefix_append _ _, rfl⟩
  · rw [engineWData, State.afterReply_eq]
    exact .inl ⟨_, _, _, List.prefix_append _ _, rfl⟩
  · rw [engineRData, State.afterReply_eq]
    exact .inl ⟨_, _, _, List.prefix_append _ _, rfl⟩
  · exact .inr ⟨_, _, _, rfl⟩

/-- Capturing a mask keeps it in `wk_mask` (R261). -/
@[simp] theorem Worker.captured_mask (w : Worker) (m : BitVec 16) : (w.captured m).mask = m := by
  unfold Worker.captured
  split <;> rfl

/-- A step of the worker writes the lock and the engine registers, the mask, the wake count, its own registers and the fault
log; the mask only by its capture. -/
theorem workerStep_writes (s : State) : ∃ o g d n w fl e,
    workerStep s = { s with lockOwner := o, eng := g, dirty := d, wake := n, wk := w, flog := fl, env := e } ∧
    s.flog <+: fl ∧ (d = s.dirty ∨ s.wk.phase = .capture ∧ w.mask = s.dirty ∧ d = 0#16) := by
  rcases workerStep_cases s with e | ⟨-, -, e⟩ | ⟨hp, e⟩ | ⟨-, -, -, e⟩ | ⟨segs, dflt, -, -, -, e⟩ | ⟨st, rx, -, -, -, e⟩ |
    ⟨-, -, e⟩ <;> rw [e]
  · exact ⟨_, _, _, _, _, _, _, rfl, List.prefix_rfl, .inl rfl⟩
  · exact ⟨_, _, _, _, _, _, _, rfl, List.prefix_rfl, .inl rfl⟩
  · exact ⟨_, _, _, _, _, _, _, rfl, List.prefix_rfl, .inr ⟨hp, Worker.captured_mask _ _, rfl⟩⟩
  · exact ⟨_, _, _, _, _, _, _, rfl, List.prefix_rfl, .inl rfl⟩
  · obtain ⟨o, g, e, hl | ⟨x, hl⟩⟩ := State.lockStep_writes s .worker segs dflt <;> rw [hl]
    · exact ⟨_, _, _, _, _, _, _, rfl, List.prefix_rfl, .inl rfl⟩
    · exact ⟨_, _, _, _, _, _, _, rfl, List.prefix_rfl, .inl rfl⟩
  · unfold workerNext
    by_cases hst : st = .ok
    · rw [if_pos hst]
      exact ⟨_, _, _, _, _, _, _, rfl, List.prefix_rfl, .inl rfl⟩
    · rw [if_neg hst]
      exact ⟨_, _, _, _, _, _, _, rfl, List.prefix_append _ _, .inl rfl⟩
  · exact ⟨_, _, _, _, _, _, _, rfl, List.prefix_rfl, .inl rfl⟩

/-- A step of the initialisation sequence writes the lock and the engine registers, `pwm_state`, its own progress and the
trace; it leaves the latches, and `pwm_state` goes nowhere but to READY or FAILED. -/
theorem initSequenceStep_writes (s : State) : ∃ o g p k x cl tr e,
    initSequenceStep s = { s with lockOwner := o, eng := g, pwmState := p, initStep := k, initTx := x, clients := cl,
                                  trace := tr, env := e } ∧
    s.trace <+: tr ∧ (p = s.pwmState ∨ p = .ready ∨ p = .failed) := by
  rcases initSequenceStep_cases s with e | ⟨segs, dflt, -, e⟩ | ⟨rx, -, -, e⟩ | ⟨rx, -, -, -, -, e⟩ | ⟨rx, -, -, -, e⟩ |
    ⟨st, rx, -, -, e⟩ | ⟨-, -, e⟩ <;> rw [e]
  · exact ⟨_, _, _, _, _, _, _, _, rfl, List.prefix_rfl, .inl rfl⟩
  · obtain ⟨o, g, e, hl | ⟨x, hl⟩⟩ := State.lockStep_writes s .init segs dflt <;> rw [hl]
    · exact ⟨_, _, _, _, _, _, _, _, rfl, List.prefix_rfl, .inl rfl⟩
    · exact ⟨_, _, _, _, _, _, _, _, rfl, List.prefix_rfl, .inl rfl⟩
  · exact ⟨_, _, _, _, _, _, _, _, rfl, List.prefix_rfl, .inl rfl⟩
  · exact ⟨_, _, _, _, _, _, _, _, rfl, List.prefix_append _ _, .inl rfl⟩
  · exact ⟨_, _, _, _, _, _, _, _, rfl, List.prefix_append _ _, .inl rfl⟩
  · exact ⟨_, _, _, _, _, _, _, _, rfl, List.prefix_rfl, .inr (.inr rfl)⟩
  · exact ⟨_, _, _, _, _, _, _, _, rfl, List.prefix_rfl, .inr (.inl rfl)⟩

/-! ## What a step writes -/

/-- The kinds of step, by the registers they write. `record` is a step that touches the clients' records at most; `latch`,
`table`, `post`, `store`, `bus`, `begin` and `sequence` are steps of the commands that write a register; `engine` and `stop` are
the engine's, `worker` the worker's. -/
inductive StepWrites (s : State) : State → Prop
  | record {cl : List Client} {e : Env} : StepWrites s { s with clients := cl, env := e }
  | latch {j : Nat} {cl : List Client} {e : Env} (hr : s.runs j .busInit) (hb : s.busInit = false) :
      StepWrites s { s with busInit := true, cfg := BusConfig.parameters, clients := cl, env := e }
  | table {j : Nat} {i : Instr} {ds : List Desc} {cl : List Client} {e : Env} (hr : s.runs j i)
      (hi : Instr.writesDesc i = true) : StepWrites s { s with desc := ds, clients := cl, env := e }
  | post {j : Nat} {i : Instr} {cl : List Client} {e : Env} (hr : s.runs j i)
      (hi : (∃ ch val, i = .setDuty ch val) ∨ i = .flushTrigger) :
      StepWrites s { s with wake := s.wake + 1, clients := cl, env := e }
  | store {j : Nat} {ch : BitVec 8} {val : BitVec 16} {c : Fin 16} {cl : List Client} {e : Env}
      (hr : s.runs j (.setDuty ch val)) (hc : c.val = ch.toNat) (hready : s.pwmState = .ready) :
      StepWrites s { s with cache := s.cache.set c (clampDuty val), dirty := s.dirty ||| channelBit c.val, clients := cl,
                            env := e }
  | bus {j : Nat} {i : Instr} {o : Option Requester} {g : Engine} {cl : List Client} {e : Env} (hr : s.runs j i)
      (hi : Instr.usesBus i = true) : StepWrites s { s with lockOwner := o, eng := g, clients := cl, env := e }
  | begin {j : Nat} {freq : BitVec 16} {addr : Addr7} {p : BitVec 8} {x : Transact} {cl : List Client} {e : Env}
      (hr : s.runs j (.pwmInit freq addr)) (hu : s.pwmState = .uninit) :
      StepWrites s { s with pwmState := .initializing, pwmAddr := addr, pwmPrescale := p, initStep := 1, initTx := x,
                            clients := cl, env := e }
  | sequence {j : Nat} {freq : BitVec 16} {addr : Addr7} {o : Option Requester} {g : Engine} {p : PwmState} {k : Nat}
      {x : Transact} {cl : List Client} {tr : List Event} {e : Env} (hr : s.runs j (.pwmInit freq addr))
      (hseq : s.inSequence j) (htr : s.trace <+: tr) (hp : p = s.pwmState ∨ p = .ready ∨ p = .failed) :
      StepWrites s { s with lockOwner := o, eng := g, pwmState := p, initStep := k, initTx := x, clients := cl, trace := tr,
                            env := e }
  | engine {g : Engine} {tr : List Event} {e : Env} (hm : s.nextMove = .engine) (htr : s.trace <+: tr) :
      StepWrites s { s with eng := g, trace := tr, env := e }
  | stop {r : Requester} {g : Engine} {x : Transact} {e : Env} (hm : s.nextMove = .engine) :
      StepWrites s ({ s with lockOwner := none, eng := g, trace := s.trace ++ [Event.stop], env := e }.setTx r x)
  | worker {o : Option Requester} {g : Engine} {d : BitVec 16} {n : Nat} {w : Worker} {fl : List FlushFault} {e : Env}
      (hm : s.nextMove = .worker) (hfl : s.flog <+: fl)
      (hd : d = s.dirty ∨ s.wk.phase = .capture ∧ w.mask = s.dirty ∧ d = 0#16) :
      StepWrites s { s with lockOwner := o, eng := g, dirty := d, wake := n, wk := w, flog := fl, env := e }

section
variable {s t : State} {e : Env} {i : Instr}

/-- The step of a bus command. -/
theorem StepWrites.ofBus (hr : s.runs e.cur i) (hu : Instr.usesBus i = true) (h : exec i { s with env := e } = .next t) :
    StepWrites s t := by
  by_cases hp : ({ s with env := e } : State).phase = .bus
  · obtain ⟨res, he⟩ := execBus_bus_eq hu hp
    rw [he] at h
    cases h
    rcases State.clientTransactStep_cases { s with env := e } _ with ⟨segs, dflt, -, e'⟩ | ⟨-, e'⟩ | ⟨st, rx, -, e'⟩ |
      ⟨-, e'⟩ <;> rw [e']
    · obtain ⟨o, g, e', hl | ⟨x, hl⟩⟩ := State.lockStep_writes { s with env := e } (.client e.cur) segs dflt <;> rw [hl]
      · exact .bus hr hu
      · exact .bus hr hu
    · exact .record
    · exact .record
    · exact .record
  · rcases execBus_start_cases hu hp h with ⟨st, rfl, -⟩ | ⟨res, rfl⟩ | ⟨segs, dflt, -, rfl, -⟩
    · exact .record
    · exact .record
    · exact .record

/-- The step of PWM_INIT. -/
theorem StepWrites.ofPwmInit {freq : BitVec 16} {addr : Addr7} (hr : s.runs e.cur (.pwmInit freq addr))
    (h : exec (.pwmInit freq addr) { s with env := e } = .next t) : StepWrites s t := by
  rcases execPwmInit_cases h with ⟨hp, rfl⟩ | ⟨r, -, rfl⟩ | ⟨-, st, rfl, -⟩ | ⟨-, -, hu, -, -, p, -, rfl⟩
  · obtain ⟨o, g, p, k, x, cl, tr, e', he, htr, hst⟩ := initSequenceStep_writes { s with env := e }
    obtain ⟨c, hc, -⟩ := State.pending_instr hr.2
    have hcp : c.phase = .sequence := (State.phase_eq (s := { s with env := e }) hc).symm.trans hp
    rw [he]
    exact .sequence hr ⟨c, hc, hcp⟩ htr hst
  · exact .record
  · exact .record
  · exact .begin hr hu

/-- A step of any command. -/
theorem StepWrites.ofExec (hr : s.runs e.cur i) (h : exec i { s with env := e } = .next t) : StepWrites s t := by
  have query : Instr.isChannelQuery i = true → StepWrites s t := by
    intro hq
    rcases execChannelQuery_cases hq h with ⟨r, -, -, rfl⟩ | ⟨st, res, rfl, -⟩ | ⟨res, -, -, rfl⟩
    · exact .record
    · exact .record
    · exact .record
  have table : Instr.writesDesc i = true → StepWrites s t := by
    intro hw
    rcases execDesc_cases hw h with ⟨r, -, rfl⟩ | ⟨st, rfl, -⟩ | ⟨n, d, res, -, rfl⟩
    · exact .record
    · exact .record
    · exact .table hr hw
  cases i with
  | execute | readDesc | writeDesc | atomicTransfer => exact .ofBus hr rfl h
  | getDuty | getPeriod | getPeriodMin | getPeriodMax | setPeriod => exact query rfl
  | openDesc | closeDesc | bindAddress => exact table rfl
  | busInit =>
    rcases execBusInit_cases h with ⟨r, -, rfl⟩ | ⟨-, rfl⟩ | ⟨-, hb, rfl⟩
    · exact .record
    · exact .record
    · exact .latch hr hb
  | flushTrigger =>
    rcases execFlushTrigger_cases h with ⟨r, -, rfl⟩ | ⟨-, rfl⟩ | ⟨-, -, rfl⟩
    · exact .record
    · exact .record
    · exact .post hr (.inr rfl)
  | setDuty ch val =>
    rcases execSetDuty_cases h with ⟨-, rfl⟩ | ⟨-, st, rfl, -⟩ | ⟨-, hready, c, hc, rfl⟩
    · exact .post hr (.inl ⟨ch, val, rfl⟩)
    · exact .record
    · exact .store hr hc hready
  | pwmInit freq addr => exact .ofPwmInit hr h

end

/-- Every step is of one of the kinds. -/
theorem step_writes {s t : State} (h : step s = .next t) : StepWrites s t := by
  rcases step_cases h with ⟨j, cmd, -, rfl⟩ | ⟨j, -, -, rfl⟩ | ⟨j, -, -, rfl⟩ | ⟨j, i, hm, hp, he⟩ | ⟨hm, rfl⟩ | ⟨hm, rfl⟩
  · rw [State.afterMove_eq]
    exact .record
  · rw [State.afterMove_eq]
    exact .record
  · rw [State.afterMove_eq]
    exact .record
  · rw [State.afterMove_eq] at he
    exact .ofExec (e := { s.afterMove.env with cur := j }) ⟨hm, hp⟩ he
  · rw [State.afterMove_eq]
    obtain ⟨g, tr, e, htr, he⟩ | ⟨r, g, x, he⟩ := engineStep_writes { s with env := s.afterMove.env } <;> rw [he]
    · exact .engine hm htr
    · exact .stop hm
  · rw [State.afterMove_eq]
    obtain ⟨o, g, d, n, w, fl, e, he, hfl, hd⟩ := workerStep_writes { s with env := s.afterMove.env }
    rw [he]
    exact .worker hm hfl hd

/-! ## What a step does to a client's record -/

/-- Everything a step can do to the record of client `k`: nothing, the client's own step, a command handed in, or the result
the engine delivers. -/
theorem step_client_record {s t : State} (h : step s = .next t) (k : Nat) :
    t.clients[k]? = s.clients[k]? ∨ s.nextMove = .client k ∨
    (∃ cmd, s.nextMove = .issue k cmd ∧ t.clients[k]? = s.clients[k]?.map (fun c => c.accept cmd)) ∨
    (s.nextMove = .engine ∧ ∃ x, t.clients[k]? = s.clients[k]?.map (fun c => { c with tx := x })) := by
  unfold step at h
  cases hm : s.nextMove with rw [hm] at h
  | issue j cmd =>
    cases h
    by_cases hk : j = k
    · subst hk
      exact .inr (.inr (.inl ⟨cmd, rfl, by simp [State.issue]⟩))
    · exact .inl (by simp [State.issue, hk])
  | client j =>
    by_cases hk : j = k
    · exact .inr (.inl (by rw [hk]))
    · exact .inl (by simpa using (clientStep_frame h).others k (by simpa using Ne.symm hk))
  | engine =>
    cases h
    rcases engineStep_writes s.afterMove with ⟨g, tr, e, -, he⟩ | ⟨r, g, x, he⟩ <;> rw [he]
    · exact .inl (by simp)
    · cases r with
      | init => exact .inl (by simp)
      | worker => exact .inl (by simp)
      | client j =>
        by_cases hk : j = k
        · subst hk
          exact .inr (.inr (.inr ⟨rfl, x, by simp⟩))
        · exact .inl (by simp [hk])
  | worker =>
    cases h
    obtain ⟨o, g, d, n, w, fl, e, he, -⟩ := workerStep_writes s.afterMove
    rw [he]
    exact .inl (by simp)

/-- Handing in a command leaves the response held (R35). -/
@[simp] theorem Client.accept_resp (c : Client) (cmd : Command) : (c.accept cmd).resp = c.resp := by
  unfold Client.accept
  split <;> rfl

/-! ## Histories -/

/-- Settles O13: every kind of step appends to the histories or leaves them. -/
theorem historiesOnlyGrow : Obligations.HistoriesOnlyGrow := by
  intro s t h
  cases step_writes h with
  | sequence hr hseq htr hp => exact ⟨htr, List.prefix_rfl⟩
  | engine hm htr => exact ⟨htr, List.prefix_rfl⟩
  | stop hm => simp
  | worker hm hfl hd => exact ⟨List.prefix_rfl, hfl⟩
  | _ => exact ⟨List.prefix_rfl, List.prefix_rfl⟩

/-! ## Latches and final states -/

section
variable {s t : State}

/-- The configuration latch is written once. -/
theorem StepWrites.cfg_stays (h : StepWrites s t) (hb : s.busInit = true) : t.busInit = true ∧ t.cfg = s.cfg := by
  cases h with
  | latch hr hf => rw [hb] at hf; cases hf
  | stop hm => exact ⟨by simpa using hb, by simp⟩
  | _ => exact ⟨hb, rfl⟩

/-- The PWM latches are written once, and UNINIT is left for good. -/
theorem StepWrites.pwm_stays (h : StepWrites s t) (hp : s.pwmState ≠ .uninit) :
    t.pwmState ≠ .uninit ∧ t.pwmAddr = s.pwmAddr ∧ t.pwmPrescale = s.pwmPrescale := by
  cases h with
  | begin hr hu => exact absurd hu hp
  | sequence hr hseq htr hst =>
    refine ⟨?_, rfl, rfl⟩
    rcases hst with rfl | rfl | rfl
    · exact hp
    · simp
    · simp
  | stop hm => exact ⟨by simpa using hp, by simp, by simp⟩
  | _ => exact ⟨hp, rfl, rfl⟩

/-- `pwm_state` changes by the start of the sequence in UNINIT, and in INITIALIZING; a legal state in which some client runs the
sequence is INITIALIZING. -/
theorem StepWrites.pwmState_cases (h : StepWrites s t) (hL : Legal s) :
    t.pwmState = s.pwmState ∨ (s.pwmState = .uninit ∧ t.pwmState = .initializing) ∨ s.pwmState = .initializing := by
  cases h with
  | begin hr hu => exact .inr (.inl ⟨hu, rfl⟩)
  | sequence hr hseq htr hp => exact .inr (.inr (hL.pwm.runner.mpr ⟨_, hseq⟩))
  | stop hm => exact .inl (by simp)
  | _ => exact .inl rfl

end

/-- Settles O14: from what each kind of step writes; READY and FAILED are final because a step of the sequence is taken in
INITIALIZING only. -/
theorem latchesAndFinalStatesStay : Obligations.LatchesAndFinalStatesStay := by
  intro s t h
  have hw := step_writes h
  refine ⟨hw.cfg_stays, hw.pwm_stays, fun hL => ?_⟩
  rcases hw.pwmState_cases hL with he | ⟨hu, hi⟩ | hi
  · rw [he]
    exact ⟨id, id, .inl⟩
  · rw [hu, hi]
    exact ⟨nofun, nofun, fun _ => .inr rfl⟩
  · rw [hi]
    exact ⟨nofun, nofun, nofun⟩

/-! ## The cache and the dirty mask -/

/-- Settles O16: the store is the only kind of step that writes the cache. -/
theorem cacheEntryIsTheLastStoredDuty : Obligations.CacheEntryIsTheLastStoredDuty := by
  intro s t c h hne
  cases step_writes h with
  | @store j ch val k _ _ hr hk hready =>
    have hkc : k = c := by
      by_contra hx
      exact hne (Vector.getElem_set_ne k.isLt c.isLt (fun hv => hx (Fin.ext hv)))
    subst hkc
    exact ⟨j, ch, val, hr, hk.symm, hready, Vector.getElem_set_self _⟩
  | stop hm => simp at hne
  | _ => exact absurd rfl hne

/-- Settles O17: a store only sets bits, and the worker writes the mask by its capture only. -/
theorem onlyTheCaptureClearsADirtyBit : Obligations.OnlyTheCaptureClearsADirtyBit := by
  intro s t c h hc
  cases step_writes h with
  | store => exact .inl (by simp [hc])
  | stop hm => exact .inl (by simpa using hc)
  | worker hm hfl hd =>
    rcases hd with rfl | ⟨hp, hmask, hz⟩
    · exact .inl hc
    · exact .inr ⟨hm, hp, hmask, hz⟩
  | _ => exact .inl hc

/-! ## The writers of each register -/

section
variable {s t : State} (h : StepWrites s t)
include h

/-- The configuration latch: BUS_INIT. -/
theorem StepWrites.cfg_writer (hne : t.busInit ≠ s.busInit ∨ t.cfg ≠ s.cfg) : ∃ j, s.runs j .busInit := by
  cases h with
  | latch hr hb => exact ⟨_, hr⟩
  | _ => simp at hne

/-- The descriptor table: OPEN, CLOSE, BIND_ADDRESS. -/
theorem StepWrites.desc_writer (hne : t.desc ≠ s.desc) : ∃ j i, s.runs j i ∧ Instr.writesDesc i = true := by
  cases h with
  | table hr hi => exact ⟨_, _, hr, hi⟩
  | _ => simp at hne

/-- The PWM registers: PWM_INIT. -/
theorem StepWrites.pwm_writer (hne : t.pwmState ≠ s.pwmState ∨ t.pwmAddr ≠ s.pwmAddr ∨ t.pwmPrescale ≠ s.pwmPrescale ∨
    t.initStep ≠ s.initStep) : ∃ j freq addr, s.runs j (.pwmInit freq addr) := by
  cases h with
  | begin hr hu => exact ⟨_, _, _, hr⟩
  | sequence hr hseq htr hp => exact ⟨_, _, _, hr⟩
  | _ => simp at hne

/-- The dirty mask: SET_DUTY and the worker. -/
theorem StepWrites.dirty_writer (hne : t.dirty ≠ s.dirty) :
    (∃ j ch val, s.runs j (.setDuty ch val)) ∨ s.nextMove = .worker := by
  cases h with
  | store hr hc hready => exact .inl ⟨_, _, _, hr⟩
  | worker hm hfl hd => exact .inr hm
  | _ => simp at hne

/-- The wake count: SET_DUTY, FLUSH_TRIGGER and the worker. -/
theorem StepWrites.wake_writer (hne : t.wake ≠ s.wake) :
    (∃ j ch val, s.runs j (.setDuty ch val)) ∨ (∃ j, s.runs j .flushTrigger) ∨ s.nextMove = .worker := by
  cases h with
  | post hr hi =>
    rcases hi with ⟨ch, val, rfl⟩ | rfl
    · exact .inl ⟨_, ch, val, hr⟩
    · exact .inr (.inl ⟨_, hr⟩)
  | worker hm hfl hd => exact .inr (.inr hm)
  | _ => simp at hne

/-- The worker's registers and the flush fault log: the worker. -/
theorem StepWrites.wk_writer (hne : t.wk.phase ≠ s.wk.phase ∨ t.wk.mask ≠ s.wk.mask ∨ t.wk.ch ≠ s.wk.ch ∨ t.flog ≠ s.flog) :
    s.nextMove = .worker := by
  cases h with
  | worker hm hfl hd => exact hm
  | @stop r => cases r <;> simp at hne
  | _ => simp at hne

/-- The lock and the engine registers: the engine, the worker, PWM_INIT and the bus commands. -/
theorem StepWrites.lock_writer (hne : t.lockOwner ≠ s.lockOwner ∨ t.eng ≠ s.eng) :
    s.nextMove = .engine ∨ s.nextMove = .worker ∨
      ∃ j i, s.runs j i ∧ (Instr.usesBus i = true ∨ ∃ freq addr, i = .pwmInit freq addr) := by
  cases h with
  | bus hr hi => exact .inr (.inr ⟨_, _, hr, .inl hi⟩)
  | sequence hr hseq htr hp => exact .inr (.inr ⟨_, _, hr, .inr ⟨_, _, rfl⟩⟩)
  | engine hm htr => exact .inl hm
  | stop hm => exact .inl hm
  | worker hm hfl hd => exact .inr (.inl hm)
  | _ => simp at hne

/-- The cache: SET_DUTY. -/
theorem StepWrites.cache_writer (hne : t.cache ≠ s.cache) : ∃ j ch val, s.runs j (.setDuty ch val) := by
  cases h with
  | store hr hc hready => exact ⟨_, _, _, hr⟩
  | _ => simp at hne

/-- The trace: the engine and PWM_INIT. -/
theorem StepWrites.trace_writer (hne : t.trace ≠ s.trace) :
    s.nextMove = .engine ∨ ∃ j freq addr, s.runs j (.pwmInit freq addr) := by
  cases h with
  | sequence hr hseq htr hp => exact .inr ⟨_, _, _, hr⟩
  | engine hm htr => exact .inl hm
  | stop hm => exact .inl hm
  | _ => simp at hne

/-- The progress of the sequence's call: the engine and PWM_INIT. -/
theorem StepWrites.initTx_writer (hne : t.initTx ≠ s.initTx) :
    s.nextMove = .engine ∨ ∃ j freq addr, s.runs j (.pwmInit freq addr) := by
  cases h with
  | begin hr hu => exact .inr ⟨_, _, _, hr⟩
  | sequence hr hseq htr hp => exact .inr ⟨_, _, _, hr⟩
  | stop hm => exact .inl hm
  | _ => simp at hne

/-- The progress of the worker's call: the engine and the worker. -/
theorem StepWrites.wkTx_writer (hne : t.wk.tx ≠ s.wk.tx) : s.nextMove = .engine ∨ s.nextMove = .worker := by
  cases h with
  | stop hm => exact .inl hm
  | worker hm hfl hd => exact .inr hm
  | _ => simp at hne

end

section
variable {s t : State} (h : step s = .next t) (k : Nat)
include h

/-- A client's response: its own step. -/
theorem step_resp_writer (hne : t.clients[k]?.map Client.resp ≠ s.clients[k]?.map Client.resp) : s.nextMove = .client k := by
  rcases step_client_record h k with e | hm | ⟨cmd, -, e⟩ | ⟨-, x, e⟩
  · rw [e] at hne; exact absurd rfl hne
  · exact hm
  · simp [e, Function.comp_def] at hne
  · simp [e, Function.comp_def] at hne

/-- A client's command and phase: its own step and a command handed in. -/
theorem step_command_writer (hne : t.clients[k]?.map Client.cmd ≠ s.clients[k]?.map Client.cmd ∨
    t.clients[k]?.map Client.phase ≠ s.clients[k]?.map Client.phase) :
    s.nextMove = .client k ∨ ∃ cmd, s.nextMove = .issue k cmd := by
  rcases step_client_record h k with e | hm | ⟨cmd, hm, -⟩ | ⟨-, x, e⟩
  · simp [e] at hne
  · exact .inl hm
  · exact .inr ⟨cmd, hm⟩
  · simp [e, Function.comp_def] at hne

/-- The progress of a client's call: the engine, its own step and a command handed in. -/
theorem step_tx_writer (hne : t.clients[k]?.map Client.tx ≠ s.clients[k]?.map Client.tx) :
    s.nextMove = .engine ∨ s.nextMove = .client k ∨ ∃ cmd, s.nextMove = .issue k cmd := by
  rcases step_client_record h k with e | hm | ⟨cmd, hm, -⟩ | ⟨hm, -⟩
  · rw [e] at hne; exact absurd rfl hne
  · exact .inr (.inl hm)
  · exact .inr (.inr ⟨cmd, hm⟩)
  · exact .inl hm

end

/-- Settles O15: the writers of each register, read off the kinds of step. -/
theorem everyRegisterHasItsWritersOnly : Obligations.EveryRegisterHasItsWritersOnly := by
  intro s t h
  have hw := step_writes h
  exact ⟨hw.cfg_writer, hw.desc_writer, hw.pwm_writer, hw.dirty_writer, hw.wake_writer, hw.wk_writer, hw.lock_writer,
    hw.cache_writer, hw.trace_writer, step_resp_writer h, step_command_writer h, step_tx_writer h, hw.initTx_writer,
    hw.wkTx_writer⟩

end Sys2Proof.Machine
end

section
/-! PROOFS. The state after reset: the values of the table (10_state R43), and that it is legal (70_reset_and_hazards R340). -/

namespace Sys2Proof.Machine

/-- After reset every descriptor is closed. -/
theorem State.eq_closed_of_mem_resetFor {d n : Nat} {x : Desc} (h : x ∈ (State.resetFor d n).desc) : x = Desc.closed :=
  (List.mem_cons.mp h).elim id List.eq_of_mem_replicate

/-- After reset every client is fresh. -/
theorem State.eq_fresh_of_mem_resetFor {d n : Nat} {c : Client} (h : c ∈ (State.resetFor d n).clients) : c = Client.fresh :=
  (List.mem_cons.mp h).elim id List.eq_of_mem_replicate

/-- After reset the client of any index is fresh. -/
theorem State.resetFor_client {d n j : Nat} {c : Client} (h : (State.resetFor d n).clients[j]? = some c) :
    c = Client.fresh := State.eq_fresh_of_mem_resetFor (List.mem_of_getElem? h)

/-- After reset no requester has a call in progress. -/
theorem State.resetFor_tx (d n : Nat) (r : Requester) : (State.resetFor d n).tx r = .idle := by
  cases r with
  | init => rfl
  | worker => rfl
  | client j =>
    cases hc : (State.resetFor d n).clients[j]? with
    | none => exact State.tx_client_none hc
    | some c => rw [State.tx_client hc, State.resetFor_client hc]; rfl

/-- After reset no client runs the sequence. -/
theorem State.resetFor_not_inSequence (d n j : Nat) : ¬ (State.resetFor d n).inSequence j := by
  rintro ⟨c, hc, hp⟩
  rw [State.resetFor_client hc] at hp
  cases hp

/-- The PWM registers of a reset state are legal. -/
theorem State.resetFor_pwmLegal (d n : Nat) : PwmLegal (State.resetFor d n) where
  latched h := absurd rfl h
  stepRange := nofun
  lastStep := nofun
  noStep _ := ⟨rfl, rfl⟩
  runner := ⟨nofun, fun ⟨j, h⟩ => absurd h (State.resetFor_not_inSequence d n j)⟩
  oneRunner j _ h := absurd h (State.resetFor_not_inSequence d n j)
  initTx := trivial

/-- Every reset state is legal, whatever the sizes. -/
theorem State.resetFor_legal (d n : Nat) : Legal (State.resetFor d n) where
  cache c := by simp [State.resetFor]
  trace := rfl
  lockFree _ := rfl
  lockHeld h := absurd rfl h
  lockHolder r := by rw [State.resetFor_tx]; exact ⟨nofun, nofun⟩
  clients j c h := by
    rw [State.resetFor_client h]
    exact ⟨⟨trivial, rfl⟩, nofun⟩
  pwm := State.resetFor_pwmLegal d n
  worker := ⟨Nat.zero_le _, nofun, fun _ => rfl, fun _ => rfl, trivial⟩
  dirty h := absurd rfl h

/-- Settles O10: for every size, hence for the sizes of Config. -/
theorem resetIsLegal : Obligations.ResetIsLegal := ⟨State.resetFor_legal, State.resetFor_legal _ _⟩

/-- Settles O9: the scalar rows hold by the definition of the reset state, the rows of the lists because every entry is closed
or fresh. -/
theorem resetLeavesTheValuesOfTheTable : Obligations.ResetLeavesTheValuesOfTheTable := by
  refine ⟨?_, rfl⟩
  rintro d n s rfl
  have hdesc : ∀ x ∈ (State.resetFor d n).desc, x.isOpen = false ∧ x.addr = 0#7 := fun x hx => by
    rw [State.eq_closed_of_mem_resetFor hx]
    exact ⟨rfl, rfl⟩
  have hclients : ∀ c ∈ (State.resetFor d n).clients, c.cmd = none ∧ c.resp = none := fun c hc => by
    rw [State.eq_fresh_of_mem_resetFor hc]
    exact ⟨rfl, rfl⟩
  have hcache : ∀ c : Fin 16, (State.resetFor d n).cache[c] = 0 := fun c => by simp [State.resetFor]
  exact ⟨rfl, rfl, rfl, by simp [State.resetFor], hdesc, rfl, rfl, rfl, rfl, hcache, rfl, rfl, rfl, rfl, rfl,
    by simp [State.resetFor], hclients, rfl, rfl⟩

end Sys2Proof.Machine
end

section
/-! PROOFS. Which agent a step belongs to (20_memory R71), and what a client's move runs (10_state R35, 60_exceptions R322,
R323). -/

namespace Sys2Proof.Machine

/-- What is pending is the decoder's reading of the outstanding command. -/
theorem State.pending_of_hasCommand {s : State} {j : Nat} {cmd : Command} (h : s.hasCommand j cmd) :
    s.pending j = (decode cmd).toOption.elim .illegal .instr := by
  obtain ⟨c, hc, hm⟩ := h
  unfold State.pending
  rw [hc]
  simp only [hm]
  cases decode cmd <;> rfl

section
variable {s : State} {j : Nat} {cmd : Command}

/-- A client's move with a legal word outstanding is one step of the command it decodes to. -/
theorem step_of_decode_ok {i : Instr} (hm : s.nextMove = .client j) (hc : s.hasCommand j cmd) (hd : decode cmd = .ok i) :
    step s = exec i (s.afterMove.selectClient j) := by
  have hp : s.pending j = .instr i := by rw [State.pending_of_hasCommand hc, hd]; rfl
  rw [step_client hm, clientStep, State.pending_afterMove, hp]

/-- A client's move with an illegal word outstanding answers it. -/
theorem step_of_decode_error {e : DecodeError} (hm : s.nextMove = .client j) (hc : s.hasCommand j cmd)
    (hd : decode cmd = .error e) : step s = .next ((s.afterMove.selectClient j).raise .illegalCommand) := by
  have hp : s.pending j = .illegal := by rw [State.pending_of_hasCommand hc, hd]; rfl
  rw [step_client hm, clientStep, State.pending_afterMove, hp]

/-- A client's move with nothing pending changes nothing else. -/
theorem step_of_pending_nothing (hm : s.nextMove = .client j) (hp : s.pending j = .nothing) : step s = .next s.afterMove := by
  rw [step_client hm, clientStep, State.pending_afterMove, hp]

end

section
variable {s : State} {j : Nat} {c : Client}

/-- A command handed in to an existing client is that client's to accept. -/
theorem State.issue_eq_set (hc : s.clients[j]? = some c) (cmd : Command) :
    s.issue j cmd = { s with clients := s.clients.set j (c.accept cmd) } := by
  simp only [State.issue, State.updClient, List.modify_eq_set, hc, Option.getD_some]

/-- A command handed in to a client without one outstanding is taken (R35). -/
theorem State.issue_of_cmd_none (hc : s.clients[j]? = some c) (hn : c.cmd = none) (cmd : Command) : s.issue j cmd =
    { s with clients := s.clients.set j { c with cmd := some cmd, phase := .start, tx := .idle } } := by
  rw [State.issue_eq_set hc, Client.accept, hn]

/-- A command handed in to a client with one outstanding is not taken (R35). -/
theorem State.issue_of_cmd_some (hc : s.clients[j]? = some c) (hn : c.cmd ≠ none) (cmd : Command) : s.issue j cmd = s := by
  obtain ⟨old, ho⟩ := Option.ne_none_iff_exists'.mp hn
  have ha : c.accept cmd = c := by rw [Client.accept, ho]
  obtain ⟨hj, rfl⟩ := List.getElem?_eq_some_iff.mp hc
  rw [State.issue_eq_set hc, ha, List.set_getElem_self]

end

/-- Settles O7: one clause per kind of move, and the head of the schedule. -/
theorem stepRunsTheDecodedCommand : Obligations.StepRunsTheDecodedCommand := by
  refine ⟨fun s j cmd i => step_of_decode_ok, fun s j cmd e => step_of_decode_error, fun s j => step_of_pending_nothing,
    fun s hm => ?_, fun s hm => ?_, fun s j cmd c hm hc => ?_, fun s m rest hs => ?_⟩
  · rw [step, hm]; rfl
  · rw [step, hm]; rfl
  · have hstep : step s = .next (s.afterMove.issue j cmd) := by rw [step, hm]; rfl
    have hc' : s.afterMove.clients[j]? = some c := by simpa using hc
    rw [hstep]
    refine ⟨fun hn => ?_, fun hn => ?_⟩
    · rw [State.issue_of_cmd_none hc' hn, State.afterMove_clients]
    · rw [State.issue_of_cmd_some hc' hn]
  · simp only [State.nextMove, State.afterMove, hs, and_self]

end Sys2Proof.Machine
end

section
/-! PROOFS. What a stored duty changes (43_pwm_cache_flush R250, R266). -/

namespace Sys2Proof.Machine

/-- A stored duty sets the dirty bit of its channel and no other. -/
theorem State.storeDuty_dirty_getLsbD (s : State) (c : Fin 16) (v k : Nat) :
    (s.storeDuty c v).dirty.getLsbD k = (s.dirty.getLsbD k || decide (k = c.val)) := by
  rw [State.storeDuty_dirty, BitVec.getLsbD_or, channelBit_getLsbD c.isLt]

/-- Of two stores on one channel the second alone counts. -/
theorem State.storeDuty_storeDuty (s : State) (c : Fin 16) (v w : Nat) :
    (s.storeDuty c v).storeDuty c w = s.storeDuty c w := by
  simp [State.storeDuty, BitVec.or_assoc]

/-- Settles O50: the mask bit by bit, the cache entry by entry, and the idempotence of the store. -/
theorem storedDutyMarksItsChannelOnly : Obligations.StoredDutyMarksItsChannelOnly := by
  intro s c v w
  refine ⟨State.storeDuty_dirty_getLsbD s c v, Vector.getElem_set_self c.isLt, fun k hk => ?_,
    State.storeDuty_storeDuty s c v w⟩
  exact Vector.getElem_set_ne c.isLt k.isLt (fun h => hk (Fin.ext h.symm))

end Sys2Proof.Machine
end

section
/-! PROOFS. What the decoder accepts and rejects (30_encoding R97, R98), and the segment descriptors read and written (R92). -/

namespace Sys2Proof

/-! ## What the decoder accepts and rejects -/

section
variable {c : Command} {o : Opcode}

/-- A word of a row of the map is read by the row's format, unless a reserved bit is set. -/
theorem decode_of_op (h : Word.op c.cw = o.code) :
    decode c = if c.cw &&& o.format.reserved = 0#32 then o.operands c else .error .reservedBits := by
  unfold decode
  rw [h, Opcode.ofCode_code]

/-- A word that decodes is of a row of the map, has no reserved bit set, and stands for what its operands give. -/
theorem decode_eq_ok_iff {i : Instr} : decode c = .ok i ↔
    ∃ o : Opcode, Word.op c.cw = o.code ∧ c.cw &&& o.format.reserved = 0#32 ∧ o.operands c = .ok i := by
  constructor
  · intro h
    cases ho : Opcode.ofCode (Word.op c.cw) with
    | none => simp [decode, ho] at h
    | some o =>
      have hop : Word.op c.cw = o.code := (Opcode.code_of_ofCode ho).symm
      rw [decode_of_op hop] at h
      split at h
      · next hr => exact ⟨o, hop, hr, h⟩
      · cases h
  · rintro ⟨o, hop, hr, hi⟩
    rw [decode_of_op hop, if_pos hr, hi]

/-- A reserved bit of CW is rejected whatever the opcode (R97). -/
theorem decode_of_reserved (hop : Word.op c.cw = o.code) (hr : c.cw &&& o.format.reserved ≠ 0#32) :
    decode c = .error .reservedBits := by
  rw [decode_of_op hop, if_neg hr]

end

/-- The bytes that no row of the map has name no command (R98). -/
theorem Opcode.ofCode_eq_none {b : BitVec 8} (h : b.toNat = 0x00 ∨ (0x03 ≤ b.toNat ∧ b.toNat ≤ 0x0F) ∨
    (0x18 ≤ b.toNat ∧ b.toNat ≤ 0x1F) ∨ 0x26 ≤ b.toNat) : Opcode.ofCode b = none := by
  cases ho : Opcode.ofCode b with
  | none => rfl
  | some o =>
    have hb : b = o.code := (Opcode.code_of_ofCode ho).symm
    subst hb
    revert h
    cases o <;> decide

/-- A word whose opcode is in no row of the map is rejected by name (R98). -/
theorem decode_of_illegal_op {c : Command} (h : (Word.op c.cw).toNat = 0x00 ∨
    (0x03 ≤ (Word.op c.cw).toNat ∧ (Word.op c.cw).toNat ≤ 0x0F) ∨
    (0x18 ≤ (Word.op c.cw).toNat ∧ (Word.op c.cw).toNat ≤ 0x1F) ∨ 0x26 ≤ (Word.op c.cw).toNat) :
    decode c = .error (.illegalOpcode (Word.op c.cw)) := by
  rw [decode, Opcode.ofCode_eq_none h]

/-! ## Segment descriptors (R92) -/

section
variable (seg : Segment)

/-- The direction read from a segment's descriptor. -/
@[simp] theorem Segment.sdDir_encode : Word.sdDir seg.encode.sd = seg.dir := by
  unfold Word.sdDir
  rw [Segment.encode_sd_getLsbD]
  cases seg.dir <;> rfl

/-- The override bit read from a segment's descriptor. -/
@[simp] theorem Segment.sdOvr_encode : Word.sdOvr seg.encode.sd = seg.ovr := Segment.encode_sd_getLsbD seg 30

/-- The descriptor of a segment has no bit of SD[29:23] set. -/
@[simp] theorem Segment.sdReserved_encode : Word.sdReserved seg.encode.sd = 0#7 :=
  calc Word.sdReserved seg.encode.sd
    _ = (seg.dir.bit ++ BitVec.ofBool seg.ovr ++ 0#7 ++ seg.oaddr).extractLsb' 7 7 :=
      BitVec.extractLsb'_append_eq_of_le (by decide)
    _ = (seg.dir.bit ++ BitVec.ofBool seg.ovr ++ 0#7).extractLsb' 0 7 := BitVec.extractLsb'_append_eq_of_le (by decide)
    _ = 0#7 := BitVec.extractLsb'_append_eq_right

/-- The override address read from a segment's descriptor. -/
@[simp] theorem Segment.sdOaddr_encode : Word.sdOaddr seg.encode.sd = seg.oaddr :=
  calc Word.sdOaddr seg.encode.sd
    _ = (seg.dir.bit ++ BitVec.ofBool seg.ovr ++ 0#7 ++ seg.oaddr).extractLsb' 0 7 :=
      BitVec.extractLsb'_append_eq_of_le (by decide)
    _ = seg.oaddr := BitVec.extractLsb'_append_eq_right

/-- The length read from a segment's descriptor. -/
@[simp] theorem Segment.sdLen_encode : Word.sdLen seg.encode.sd = seg.len := BitVec.extractLsb'_append_eq_right

end

/-- A segment that R92 can encode is read back from its descriptor. -/
theorem Segment.decode_encode {seg : Segment} (h : seg.wellFormed = true) : seg.encode.decode = some seg := by
  have hov : seg.ovr = true ∨ seg.oaddr = 0#7 := by
    obtain ⟨ho, -⟩ := Bool.and_eq_true_iff.mp h
    simpa [Segment.overrideOk] using ho
  unfold SegDesc.decode
  simp only [sdReserved_encode, sdOvr_encode, sdOaddr_encode, sdDir_encode, sdLen_encode, hov, and_self, if_true]
  rfl

/-- A field of one bit is that bit. -/
theorem Word.extractLsb'_one (w : Word) (k : Nat) : w.extractLsb' k 1 = BitVec.ofBool (w.getLsbD k) := by
  apply BitVec.eq_of_getLsbD_eq
  intro n hn
  obtain rfl : n = 0 := by omega
  simp

/-- A descriptor word is put together from its fields (R92). -/
theorem Word.sd_eq_append (w : Word) :
    (Word.sdDir w).bit ++ BitVec.ofBool (Word.sdOvr w) ++ Word.sdReserved w ++ Word.sdOaddr w ++ Word.sdLen w = w := by
  have hdir : (Word.sdDir w).bit = w.extractLsb' 31 1 := by
    rw [Word.extractLsb'_one, Word.sdDir]
    cases w.getLsbD 31 <;> rfl
  rw [hdir, Word.sdOvr, ← Word.extractLsb'_one, Word.sdReserved, Word.sdOaddr, Word.sdLen]
  iterate 4 rw [BitVec.extractLsb'_append_extractLsb'_eq_extractLsb']
  · exact BitVec.extractLsb'_eq_self
  all_goals rfl

/-- The segment read from a descriptor is encoded as that descriptor. -/
theorem SegDesc.encode_of_decode {d : SegDesc} {seg : Segment} (h : d.decode = some seg) : seg.encode = d := by
  unfold SegDesc.decode at h
  split at h
  · next hd =>
    obtain ⟨hr, -⟩ := hd
    cases h
    have hsd := Word.sd_eq_append d.sd
    rw [hr] at hsd
    exact congrArg (SegDesc.mk · d.data) hsd
  · cases h

/-- Well-formed segments are read back from their descriptors. -/
theorem decodeSegs_map_encode {segs : List Segment} (h : segs.all Segment.wellFormed = true) :
    decodeSegs (segs.map Segment.encode) = some segs := by
  induction segs with
  | nil => rfl
  | cons seg rest ih =>
    obtain ⟨hseg, hrest⟩ := Bool.and_eq_true_iff.mp h
    simp only [List.map_cons, decodeSegs, Segment.decode_encode hseg, ih hrest]

/-- The segments read from descriptors are encoded as those descriptors. -/
theorem map_encode_of_decodeSegs {ds : List SegDesc} {segs : List Segment} (h : decodeSegs ds = some segs) :
    segs.map Segment.encode = ds := by
  induction ds generalizing segs with
  | nil => cases h; rfl
  | cons d rest ih =>
    cases hd : d.decode with
    | none => simp [decodeSegs, hd] at h
    | some seg =>
      cases hr : decodeSegs rest with
      | none => simp [decodeSegs, hd, hr] at h
      | some segs' =>
        obtain rfl : seg :: segs' = segs := by simpa [decodeSegs, hd, hr] using h
        rw [List.map_cons, SegDesc.encode_of_decode hd, ih hr]

/-- A descriptor with a reserved bit set is no segment (R97). -/
theorem SegDesc.decode_eq_none {d : SegDesc}
    (h : Word.sdReserved d.sd ≠ 0#7 ∨ (Word.sdOvr d.sd = false ∧ Word.sdOaddr d.sd ≠ 0#7)) : d.decode = none := by
  refine if_neg ?_
  rintro ⟨hr, ho⟩
  obtain h | ⟨hv, ha⟩ := h
  · exact h hr
  · simp [hv, ha] at ho

/-- One descriptor with a reserved bit set rejects the whole payload (R97). -/
theorem decodeSegs_eq_none {ds : List SegDesc} {d : SegDesc} (hd : d ∈ ds) (h : d.decode = none) : decodeSegs ds = none := by
  induction hd with
  | head rest => simp only [decodeSegs, h]
  | tail e _ ih => cases he : e.decode <;> simp only [decodeSegs, he, ih]

/-- A descriptor with a reserved bit set rejects the word of a row whose payload holds descriptors (R97). -/
theorem decode_of_reserved_segment {c : Command} {o : Opcode} {d : SegDesc} (hop : Word.op c.cw = o.code)
    (hr : c.cw &&& o.format.reserved = 0#32) (ho : o = .execute ∨ o = .atomicTransfer) (hd : d ∈ c.payload.descs)
    (h : Word.sdReserved d.sd ≠ 0#7 ∨ (Word.sdOvr d.sd = false ∧ Word.sdOaddr d.sd ≠ 0#7)) :
    decode c = .error .reservedSegBits := by
  have hs : decodeSegs c.payload.descs = none := decodeSegs_eq_none hd (SegDesc.decode_eq_none h)
  rw [decode_of_op hop, if_pos hr]
  rcases ho with rfl | rfl <;> simp only [Opcode.operands, withSegs, hs]

end Sys2Proof
end

section
/-! PROOFS. The decoder and the encoder are each other's inverse (30_encoding R90, R91, R96): the operand fields of an encoded
word, and the word of decoded operands. -/

namespace Sys2Proof

/-! ## The operand fields (R91) -/

/-- An operand field of an encoded word is the field of the operand bits. -/
theorem encode_cw_extractLsb' (i : Instr) {start len : Nat} (h : start + len ≤ 24) :
    (encode i).cw.extractLsb' start len = i.operandBits.extractLsb' start len :=
  BitVec.extractLsb'_append_eq_of_add_le h

/-- The outer two of three fields put together. -/
theorem extractLsb'_outer {m n k : Nat} (a : BitVec m) (z : BitVec n) (b : BitVec k) :
    (a ++ z ++ b).extractLsb' (n + k) m = a ∧ (a ++ z ++ b).extractLsb' 0 k = b := by
  constructor
  · rw [BitVec.extractLsb'_append_eq_of_le (by omega), Nat.add_sub_cancel, BitVec.extractLsb'_append_eq_left]
  · exact BitVec.extractLsb'_append_eq_right

section
variable {i : Instr}

/-- FC, FH, FV, FF, FL: a byte above 16 bits. -/
theorem byte2_low16_encode {a : BitVec 8} {b : BitVec 16} (h : i.operandBits = a ++ b) :
    Word.byte2 (encode i).cw = a ∧ Word.low16 (encode i).cw = b := by
  rw [Word.byte2, Word.low16, encode_cw_extractLsb' i (by decide), encode_cw_extractLsb' i (by decide), h]
  exact ⟨BitVec.extractLsb'_append_eq_left, BitVec.extractLsb'_append_eq_right⟩

/-- FX: NSEG and ADDR7. -/
theorem byte2_addr7_encode {a : BitVec 8} {z : BitVec 9} {b : Addr7} (h : i.operandBits = a ++ z ++ b) :
    Word.byte2 (encode i).cw = a ∧ Word.addr7 (encode i).cw = b := by
  rw [Word.byte2, Word.addr7, encode_cw_extractLsb' i (by decide), encode_cw_extractLsb' i (by decide), h]
  exact extractLsb'_outer a z b

/-- FP: FREQ16 and ADDR7. -/
theorem freq16_addr7_encode {a : BitVec 16} {z : BitVec 1} {b : Addr7} (h : i.operandBits = a ++ z ++ b) :
    Word.freq16 (encode i).cw = a ∧ Word.addr7 (encode i).cw = b := by
  rw [Word.freq16, Word.addr7, encode_cw_extractLsb' i (by decide), encode_cw_extractLsb' i (by decide), h]
  exact extractLsb'_outer a z b

/-- FB: FD8 and A8. -/
theorem byte2_a8_encode {a z b : BitVec 8} (h : i.operandBits = a ++ z ++ b) :
    Word.byte2 (encode i).cw = a ∧ Word.a8 (encode i).cw = b := by
  rw [Word.byte2, Word.a8, encode_cw_extractLsb' i (by decide), encode_cw_extractLsb' i (by decide), h]
  exact extractLsb'_outer a z b

end

/-- The operands of an encoded well-formed command are the command's. -/
theorem Instr.operands_encode {i : Instr} (h : i.wellFormed = true) : i.opcode.operands (encode i) = .ok i := by
  cases i with
  | busInit | getPeriod | getPeriodMin | getPeriodMax | flushTrigger | openDesc => rfl
  | execute nseg addr segs =>
    obtain ⟨hn, ha⟩ := byte2_addr7_encode (i := .execute nseg addr segs) rfl
    have hs : decodeSegs (encode (.execute nseg addr segs)).payload.descs = some segs := decodeSegs_map_encode h
    simp only [Instr.opcode, Opcode.operands, withSegs, hn, ha, hs]
  | pwmInit freq addr =>
    obtain ⟨hf, ha⟩ := freq16_addr7_encode (i := .pwmInit freq addr) rfl
    simp only [Instr.opcode, Opcode.operands, hf, ha]
  | setDuty ch val =>
    obtain ⟨hc, hv⟩ := byte2_low16_encode (i := .setDuty ch val) rfl
    simp only [Instr.opcode, Opcode.operands, hc, hv]
  | getDuty ch =>
    obtain ⟨hc, -⟩ := byte2_low16_encode (i := .getDuty ch) rfl
    simp only [Instr.opcode, Opcode.operands, hc]
  | setPeriod val =>
    obtain ⟨-, hv⟩ := byte2_low16_encode (i := .setPeriod val) rfl
    simp only [Instr.opcode, Opcode.operands, hv]
  | closeDesc fd =>
    obtain ⟨hf, -⟩ := byte2_low16_encode (i := .closeDesc fd) rfl
    simp only [Instr.opcode, Opcode.operands, hf]
  | readDesc fd len =>
    obtain ⟨hf, hl⟩ := byte2_low16_encode (i := .readDesc fd len) rfl
    simp only [Instr.opcode, Opcode.operands, hf, hl]
  | writeDesc fd len data =>
    obtain ⟨hf, hl⟩ := byte2_low16_encode (i := .writeDesc fd len data) rfl
    simp only [Instr.opcode, Opcode.operands, hf, hl]
    rfl
  | bindAddress fd a8 =>
    obtain ⟨hf, ha⟩ := byte2_a8_encode (i := .bindAddress fd a8) rfl
    simp only [Instr.opcode, Opcode.operands, hf, ha]
  | atomicTransfer fd len segs =>
    obtain ⟨hf, hl⟩ := byte2_low16_encode (i := .atomicTransfer fd len segs) rfl
    have hs : decodeSegs (encode (.atomicTransfer fd len segs)).payload.descs = some segs := decodeSegs_map_encode h
    simp only [Instr.opcode, Opcode.operands, withSegs, hf, hl, hs]

/-- Settles O1: an encoded word has its row's opcode and no reserved bit set, and its fields are the operands it was made of. -/
theorem decodeOfEncodeIsTheCommand : Obligations.DecodeOfEncodeIsTheCommand := fun i h =>
  decode_eq_ok_iff.mpr ⟨i.opcode, op_encode i, encode_reserved_zero i, i.operands_encode h⟩

/-! ## The word of the operands (R91) -/

/-- A field that lies in the mask of bits that are all 0 is 0. -/
theorem Word.extractLsb'_eq_zero {w m : Word} {start len : Nat} (h : w &&& m = 0#32)
    (hm : m.extractLsb' start len = BitVec.allOnes len) : w.extractLsb' start len = 0#len := by
  rw [← BitVec.and_allOnes (x := w.extractLsb' start len), ← hm, ← BitVec.extractLsb'_and, h]
  exact BitVec.extractLsb'_zero

/-- Three adjacent fields make one. -/
theorem Word.extractLsb'_append_append (w : Word) (start k l m : Nat) :
    w.extractLsb' (start + k + l) m ++ w.extractLsb' (start + k) l ++ w.extractLsb' start k =
      w.extractLsb' start (m + l + k) := by
  rw [BitVec.extractLsb'_append_extractLsb'_eq_extractLsb' rfl, BitVec.extractLsb'_append_extractLsb'_eq_extractLsb' rfl]

section
variable {c : Command} {i : Instr} {o : Opcode}

/-- A command whose operands include the payload's segments has those segments. -/
theorem withSegs_eq_ok_iff {p : Payload} {k : List Segment → Instr} :
    withSegs p k = .ok i ↔ ∃ segs, decodeSegs p.descs = some segs ∧ k segs = i := by
  unfold withSegs
  cases decodeSegs p.descs <;> simp

/-- The operands of a row's format are those of the row's command. -/
theorem Opcode.opcode_of_operands (h : o.operands c = .ok i) : i.opcode = o := by
  cases o
  case execute => obtain ⟨segs, -, rfl⟩ := withSegs_eq_ok_iff.mp h; rfl
  case atomicTransfer => obtain ⟨segs, -, rfl⟩ := withSegs_eq_ok_iff.mp h; rfl
  all_goals cases h; rfl

/-- Encoding the segments read from a payload gives its descriptors. -/
theorem Opcode.descs_of_operands (h : o.operands c = .ok i) (ho : o = .execute ∨ o = .atomicTransfer) :
    i.payload.descs = c.payload.descs := by
  rcases ho with rfl | rfl
  all_goals
    obtain ⟨segs, hs, rfl⟩ := withSegs_eq_ok_iff.mp h
    exact map_encode_of_decodeSegs hs

/-- A word without a reserved bit has the operand bits of its command in CW[23:0]. -/
theorem Opcode.operandBits_of_operands (h : o.operands c = .ok i) (hr : c.cw &&& o.format.reserved = 0#32) :
    i.operandBits = c.cw.extractLsb' 0 24 := by
  cases o with
  | busInit | getPeriod | getPeriodMin | getPeriodMax | flushTrigger | openDesc =>
    cases h
    exact (Word.extractLsb'_eq_zero hr (by decide)).symm
  | setDuty | readDesc | writeDesc =>
    cases h
    exact BitVec.extractLsb'_append_extractLsb'_eq_extractLsb' rfl
  | atomicTransfer =>
    obtain ⟨segs, -, rfl⟩ := withSegs_eq_ok_iff.mp h
    exact BitVec.extractLsb'_append_extractLsb'_eq_extractLsb' rfl
  | getDuty | closeDesc =>
    cases h
    have hz : c.cw.extractLsb' 0 16 = 0#16 := Word.extractLsb'_eq_zero hr (by decide)
    rw [Instr.operandBits, ← hz]
    exact BitVec.extractLsb'_append_extractLsb'_eq_extractLsb' rfl
  | setPeriod =>
    cases h
    have hz : c.cw.extractLsb' 16 8 = 0#8 := Word.extractLsb'_eq_zero hr (by decide)
    rw [Instr.operandBits, ← hz]
    exact BitVec.extractLsb'_append_extractLsb'_eq_extractLsb' rfl
  | execute =>
    obtain ⟨segs, -, rfl⟩ := withSegs_eq_ok_iff.mp h
    have hz : c.cw.extractLsb' 7 9 = 0#9 := Word.extractLsb'_eq_zero hr (by decide)
    rw [Instr.operandBits, ← hz]
    exact Word.extractLsb'_append_append c.cw 0 7 9 8
  | pwmInit =>
    cases h
    have hz : c.cw.extractLsb' 7 1 = 0#1 := Word.extractLsb'_eq_zero hr (by decide)
    rw [Instr.operandBits, ← hz]
    exact Word.extractLsb'_append_append c.cw 0 7 1 16
  | bindAddress =>
    cases h
    have hz : c.cw.extractLsb' 8 8 = 0#8 := Word.extractLsb'_eq_zero hr (by decide)
    rw [Instr.operandBits, ← hz]
    exact Word.extractLsb'_append_append c.cw 0 8 8 8

end

/-- Settles O2: the word is its opcode byte above the operand bits, and the segments of a payload encode to its descriptors. -/
theorem encodeOfDecodeIsTheWord : Obligations.EncodeOfDecodeIsTheWord := by
  intro c i h
  obtain ⟨o, hop, hr, hi⟩ := decode_eq_ok_iff.mp h
  obtain rfl : i.opcode = o := o.opcode_of_operands hi
  refine ⟨?_, Opcode.descs_of_operands hi, fun hw => ?_⟩
  · calc (encode i).cw
      _ = Word.op c.cw ++ c.cw.extractLsb' 0 24 := by rw [hop, ← Opcode.operandBits_of_operands hi hr]; rfl
      _ = c.cw.extractLsb' 0 32 := BitVec.extractLsb'_append_extractLsb'_eq_extractLsb' rfl
      _ = c.cw := BitVec.extractLsb'_eq_self
  · rw [hw] at hi
    cases hi
    rfl

end Sys2Proof
end

section
/-! PROOFS. Words the decoder rejects are answered ILLEGAL_COMMAND (30_encoding R97, R98). -/

namespace Sys2Proof.Machine

/-- A client whose outstanding word the decoder rejects answers it. -/
theorem clientStep_of_decode_error {s : State} {j : Nat} {cmd : Command} {e : DecodeError} (hc : s.hasCommand j cmd)
    (hd : decode cmd = .error e) : clientStep j s = .next ((s.selectClient j).raise .illegalCommand) := by
  have hp : s.pending j = .illegal := by rw [State.pending_of_hasCommand hc, hd]; rfl
  rw [clientStep, hp]

/-- Settles O3: no row of the map has such an opcode. -/
theorem illegalOpcodesAreAnsweredIllegalCommand : Obligations.IllegalOpcodesAreAnsweredIllegalCommand := by
  intro s j cmd hc hop
  have hd := decode_of_illegal_op hop
  exact ⟨hd, clientStep_of_decode_error hc hd⟩

/-- Settles O4: either ground makes the decoder reject the word. -/
theorem reservedBitsAreAnsweredIllegalCommand : Obligations.ReservedBitsAreAnsweredIllegalCommand := by
  intro o s j cmd hc hop h
  by_cases hr : cmd.cw &&& o.format.reserved = 0#32
  · obtain hr' | ⟨ho, d, hd, hbits⟩ := h
    · exact absurd hr hr'
    · exact clientStep_of_decode_error hc (decode_of_reserved_segment hop hr ho hd hbits)
  · exact clientStep_of_decode_error hc (decode_of_reserved hop hr)

/-- Settles O5: the words are closed, so running the decoder on each decides it. -/
theorem decodesTheSpecsExampleWords : Obligations.DecodesTheSpecsExampleWords := by
  unfold Obligations.DecodesTheSpecsExampleWords
  decide

end Sys2Proof.Machine
end

section
/-! PROOFS. The engine's steps, one equation per phase, and what a step does to the phase and the status (40_bus_engine R137 to
R145, table R152). -/

namespace Sys2Proof.Machine

/-! ## The step of each phase -/

/-- With the lock FREE the engine has no step (R137). -/
theorem engineStep_of_free {s : State} (h : s.lockOwner = none) : engineStep s = s := by simp [engineStep, h]

section
variable {s : State} {r : Requester} {seg : Segment}

/-- The BEGIN step. -/
theorem engineStep_of_begin (ho : s.lockOwner = some r) (hp : s.eng.phase = .begin) : engineStep s = engineBegin s := by
  simp [engineStep, ho, hp]

/-- The ADDR step. -/
theorem engineStep_of_addr (ho : s.lockOwner = some r) (hp : s.eng.phase = .addr) (hs : s.eng.segs[s.eng.k]? = some seg) :
    engineStep s = engineAddr s seg := by
  simp [engineStep, ho, hp, State.curSeg, hs]

/-- The WDATA step. -/
theorem engineStep_of_wdata {d : Byte} (ho : s.lockOwner = some r) (hp : s.eng.phase = .wdata)
    (hs : s.eng.segs[s.eng.k]? = some seg) (hd : seg.data[s.eng.i]? = some d) : engineStep s = engineWData s seg d := by
  simp [engineStep, ho, hp, State.curSeg, hs, hd]

/-- The RDATA step. -/
theorem engineStep_of_rdata (ho : s.lockOwner = some r) (hp : s.eng.phase = .rdata) (hs : s.eng.segs[s.eng.k]? = some seg) :
    engineStep s = engineRData s seg := by
  simp [engineStep, ho, hp, State.curSeg, hs]

/-- The STOP step. -/
theorem engineStep_of_stop (ho : s.lockOwner = some r) (hp : s.eng.phase = .stop) : engineStep s = engineStop s r := by
  simp [engineStep, ho, hp]

end

/-- Settles O24: the equations of the BEGIN and STOP steps are the clauses. -/
theorem engineOpensAndStops : Obligations.EngineOpensAndStops :=
  ⟨fun _ => engineStep_of_free, fun _ => rfl,
    fun _ _ ho => ⟨fun hp => engineStep_of_begin ho hp, fun hp => engineStep_of_stop ho hp⟩⟩

/-! ## What an answer makes of the engine registers -/

section
variable {e : Engine} {seg : Segment}

/-- `Next()` with a segment left. -/
theorem Engine.next_of_lt (hk : e.k + 1 < e.segs.length) : e.next = { e with k := e.k + 1, phase := .begin } := if_pos hk

/-- `Next()` at the last segment. -/
theorem Engine.next_of_not_lt (hk : ¬ e.k + 1 < e.segs.length) : e.next = { e with phase := .stop } := if_neg hk

/-- An acknowledged address byte of a read. -/
theorem Engine.afterAddr_read (hd : seg.dir = .read) : e.afterAddr seg .ack = { e with phase := .rdata } := by
  simp [Engine.afterAddr, addrFailure, hd]

/-- An acknowledged address byte of a write that has data. -/
theorem Engine.afterAddr_write (hd : seg.dir = .write) (hl : seg.len ≠ 0#16) :
    e.afterAddr seg .ack = { e with phase := .wdata } := by
  simp [Engine.afterAddr, addrFailure, hd, hl]

/-- An acknowledged address byte of an empty write (R139). -/
theorem Engine.afterAddr_emptyWrite (hd : seg.dir = .write) (hl : seg.len = 0#16) : e.afterAddr seg .ack = e.next := by
  simp [Engine.afterAddr, addrFailure, hd, hl]

/-- A byte that is not the last of its segment. -/
theorem Engine.byteDone_of_ne (hi : e.i + 1 ≠ seg.len.toNat) : e.byteDone seg = { e with i := e.i + 1 } := if_neg hi

/-- The last byte of a segment. -/
theorem Engine.byteDone_of_eq (hi : e.i + 1 = seg.len.toNat) : e.byteDone seg = { e with i := e.i + 1 }.next := if_pos hi

/-- The last byte of a segment with another one to come. -/
theorem Engine.byteDone_of_eq_of_lt (hi : e.i + 1 = seg.len.toNat) (hk : e.k + 1 < e.segs.length) :
    e.byteDone seg = { e with i := e.i + 1, k := e.k + 1, phase := .begin } :=
  (Engine.byteDone_of_eq hi).trans (Engine.next_of_lt hk)

/-- The last byte of the last segment. -/
theorem Engine.byteDone_of_eq_of_not_lt (hi : e.i + 1 = seg.len.toNat) (hk : ¬ e.k + 1 < e.segs.length) :
    e.byteDone seg = { e with i := e.i + 1, phase := .stop } :=
  (Engine.byteDone_of_eq hi).trans (Engine.next_of_not_lt hk)

end

/-- Settles O25: the ADDR step's equation; its clauses are the answers, and after `ACK` the kinds of segment. -/
theorem engineSendsTheAddressByte : Obligations.EngineSendsTheAddressByte := by
  intro s r seg ho hp hs
  have hstep := engineStep_of_addr ho hp hs
  have heng : (engineStep s).eng = s.eng.afterAddr seg s.reply.target := by rw [hstep]; rfl
  have hfail : ∀ q st, addrFailure q = some st → s.reply.target = q →
      (engineStep s).eng = { s.eng with status := st, phase := .stop } := by
    rintro q st hq rfl
    rw [heng, Engine.afterAddr, hq]
    rfl
  refine ⟨?_, fun hr hd => ?_, fun hr hd hl => ?_, fun hr hd hl hk => ?_, fun hr hd hl hk => ?_, hfail _ _ rfl, hfail _ _ rfl,
    hfail _ _ rfl, ?_⟩
  · rw [hstep]
    cases hd : seg.dir <;> simp [engineAddr, State.emit, addressByte, segAddr, hd, Dir.bit]
  · rw [heng, hr, Engine.afterAddr_read hd]
  · rw [heng, hr, Engine.afterAddr_write hd hl]
  · rw [heng, hr, Engine.afterAddr_emptyWrite hd hl, Engine.next_of_lt hk]
  · rw [heng, hr, Engine.afterAddr_emptyWrite hd hl, Engine.next_of_not_lt hk]
  · rw [hstep]
    rfl

/-- Settles O26: the WDATA step's equation; its clauses are the answers, and after `ACK` whether the byte was the last. -/
theorem engineSendsADataByte : Obligations.EngineSendsADataByte := by
  intro s r seg d ho hp hs hd
  have hstep := engineStep_of_wdata ho hp hs hd
  have heng : (engineStep s).eng = s.eng.afterTx seg s.reply.target := by rw [hstep]; rfl
  have hack : s.reply.target = .ack → (engineStep s).eng = s.eng.byteDone seg := by
    intro hr
    rw [heng, hr]
    rfl
  have hfail : ∀ q st, dataFailure q = some st → s.reply.target = q →
      (engineStep s).eng = { s.eng with status := st, phase := .stop } := by
    rintro q st hq rfl
    rw [heng, Engine.afterTx, hq]
    rfl
  refine ⟨?_, fun hr hi => ?_, fun hr hi hk => ?_, fun hr hi hk => ?_, hfail _ _ rfl, hfail _ _ rfl, hfail _ _ rfl, ?_⟩
  · rw [hstep]
    simp [engineWData, State.emit]
  · rw [hack hr, Engine.byteDone_of_ne hi]
  · rw [hack hr, Engine.byteDone_of_eq_of_lt hi hk]
  · rw [hack hr, Engine.byteDone_of_eq_of_not_lt hi hk]
  · rw [hstep]
    rfl

/-- Settles O27: the RDATA step's equation; its clauses are the answers, and after a byte whether it was the last. -/
theorem engineReceivesADataByte : Obligations.EngineReceivesADataByte := by
  intro s r seg ho hp hs
  have hstep := engineStep_of_rdata ho hp hs
  have htrace : (engineStep s).trace = s.trace ++ [rxEvent s.eng.i seg.len.toNat s.reply.rx] := by
    rw [hstep]
    simp [engineRData, State.emit]
  have heng : (engineStep s).eng = s.eng.afterRx seg s.reply.rx := by rw [hstep]; rfl
  refine ⟨fun v hv => ?_, fun f hf => ?_, ?_⟩
  · have hbyte : (engineStep s).eng = { s.eng with rx := s.eng.rx ++ [v] }.byteDone seg := by rw [heng, hv]; rfl
    exact ⟨by rw [htrace, hv]; rfl, fun hi => hbyte.trans (Engine.byteDone_of_ne hi),
      fun hi hk => hbyte.trans (Engine.byteDone_of_eq_of_lt hi hk),
      fun hi hk => hbyte.trans (Engine.byteDone_of_eq_of_not_lt hi hk)⟩
  · refine ⟨by rw [htrace, hf]; rfl, ?_⟩
    rw [heng, hf]
    cases f <;> rfl
  · rw [hstep]
    rfl

/-! ## The busy engine -/

/-- A busy engine has a step, and its phase says which (R152). -/
theorem EngineBusy.engineStep_cases {s : State} {r : Requester} (ho : s.lockOwner = some r) (hb : EngineBusy s.eng) :
    (s.eng.phase = .begin ∧ engineStep s = engineBegin s) ∨
    (∃ seg, s.eng.phase = .addr ∧ engineStep s = engineAddr s seg) ∨
    (∃ seg d, s.eng.phase = .wdata ∧ engineStep s = engineWData s seg d) ∨
    (∃ seg, s.eng.phase = .rdata ∧ engineStep s = engineRData s seg) ∨
    (s.eng.phase = .stop ∧ engineStep s = engineStop s r) := by
  obtain ⟨seg, hseg, hfit⟩ := hb.cursor
  cases hp : s.eng.phase with
  | idle => exact absurd hp hb.active
  | begin => exact .inl ⟨rfl, engineStep_of_begin ho hp⟩
  | addr => exact .inr (.inl ⟨seg, rfl, engineStep_of_addr ho hp hseg⟩)
  | wdata =>
    simp only [cursorFits, hp] at hfit
    obtain ⟨hd, hi⟩ := hfit
    obtain ⟨hcount, -⟩ : segCountOk seg = true ∧ segLenOk seg = true := by
      simpa [segLegal] using List.all_eq_true.mp hb.segs.2 seg (List.mem_of_getElem? hseg)
    have hlen : seg.len.toNat = seg.data.length := by simpa [segCountOk, hd] using hcount
    exact .inr (.inr (.inl ⟨seg, _, rfl,
      engineStep_of_wdata ho hp hseg (List.getElem?_eq_getElem (hlen ▸ hi))⟩))
  | rdata => exact .inr (.inr (.inr (.inl ⟨seg, rfl, engineStep_of_rdata ho hp hseg⟩)))
  | stop => exact .inr (.inr (.inr (.inr ⟨rfl, engineStep_of_stop ho hp⟩)))

/-! ### Where a step goes -/

/-- `Next()` goes to BEGIN or to STOP. -/
theorem Engine.next_phase (e : Engine) : e.next.phase = .begin ∨ e.next.phase = .stop := by
  rcases e.next_cases with ⟨-, he⟩ | ⟨-, he⟩ <;> simp [he]

/-- The ADDR step goes to a data phase, to the next segment or to STOP. -/
theorem Engine.afterAddr_phase (e : Engine) (seg : Segment) (q : TargetAnswer) :
    (e.afterAddr seg q).phase = .wdata ∨ (e.afterAddr seg q).phase = .rdata ∨ (e.afterAddr seg q).phase = .begin ∨
    (e.afterAddr seg q).phase = .stop := by
  rcases e.afterAddr_cases seg q with ⟨st, -, he⟩ | ⟨-, -, he⟩ | ⟨-, -, -, he⟩ | ⟨-, -, -, he⟩ <;> rw [he]
  · simp [Engine.fail]
  · simp
  · rcases e.next_phase with h | h <;> simp [h]
  · simp

/-- A byte done leaves the phase, or goes to the next segment or to STOP. -/
theorem Engine.byteDone_phase (e : Engine) (seg : Segment) :
    (e.byteDone seg).phase = e.phase ∨ (e.byteDone seg).phase = .begin ∨ (e.byteDone seg).phase = .stop := by
  rcases e.byteDone_cases seg with ⟨-, he⟩ | ⟨-, -, he⟩ | ⟨-, -, he⟩ <;> simp [he]

/-- The WDATA step stays, or goes to the next segment or to STOP. -/
theorem Engine.afterTx_phase (e : Engine) (seg : Segment) (q : TargetAnswer) :
    (e.afterTx seg q).phase = e.phase ∨ (e.afterTx seg q).phase = .begin ∨ (e.afterTx seg q).phase = .stop := by
  cases q with
  | ack => exact e.byteDone_phase seg
  | nack | stretchTo | timeout => exact .inr (.inr rfl)

/-- The RDATA step stays, or goes to the next segment or to STOP. -/
theorem Engine.afterRx_phase (e : Engine) (seg : Segment) (x : RxAnswer) :
    (e.afterRx seg x).phase = e.phase ∨ (e.afterRx seg x).phase = .begin ∨ (e.afterRx seg x).phase = .stop := by
  cases x with
  | byte v => exact Engine.byteDone_phase _ seg
  | fail f => exact .inr (.inr rfl)

/-- The RDATA step and its event are a row of the table. -/
theorem Engine.afterRx_phaseStep {e : Engine} (hp : e.phase = .rdata) (seg : Segment) (k len : Nat) (x : RxAnswer) :
    phaseStep .rdata k (rxEvent e.i len x) (e.afterRx seg x).phase = true := by
  cases x with
  | fail f => rfl
  | byte v => rcases e.afterRx_phase seg (.byte v) with h | h | h <;> simp [phaseStep, rxEvent, h, hp]

/-- Settles O29: phase by phase, the event emitted and the phase gone to. -/
theorem engineStepIsARowOfTheTable : Obligations.EngineStepIsARowOfTheTable := by
  intro s hl hb
  obtain ⟨r, ho⟩ := Option.ne_none_iff_exists'.mp hl
  rcases hb.engineStep_cases ho with ⟨hp, he⟩ | ⟨seg, hp, he⟩ | ⟨seg, d, hp, he⟩ | ⟨seg, hp, he⟩ | ⟨hp, he⟩ <;> rw [he, hp]
  · refine ⟨if s.eng.k = 0 then .start else .rstart, rfl, ?_, by simp [engineBegin, ho]⟩
    by_cases hk : s.eng.k = 0 <;> simp [hk, phaseStep, engineBegin]
  · refine ⟨.addr (addressByte (segAddr seg s.eng.dflt) seg.dir) s.reply.target, by simp [engineAddr, State.emit], ?_,
      by simp [engineAddr, ho]⟩
    rcases s.eng.afterAddr_phase seg s.reply.target with h | h | h | h <;> simp [phaseStep, engineAddr, h]
  · refine ⟨.tx d s.reply.target, by simp [engineWData, State.emit], ?_, by simp [engineWData, ho]⟩
    rcases s.eng.afterTx_phase seg s.reply.target with h | h | h <;> simp [phaseStep, engineWData, h, hp]
  · exact ⟨rxEvent s.eng.i seg.len.toNat s.reply.rx, by simp [engineRData, State.emit],
      Engine.afterRx_phaseStep hp seg _ _ _, by simp [engineRData, ho]⟩
  · exact ⟨.stop, by simp [engineStop, State.emit], by simp [engineStop, phaseStep], by simp [engineStop]⟩

/-! ### A fault -/

/-- Registers that hold a fault are at STOP (R144). -/
def Engine.faultStops (e : Engine) : Prop := e.status ≠ .ok → e.phase = .stop

/-- Registers without a fault have nothing to stop for. -/
theorem Engine.faultStops_of_ok {e : Engine} (h : e.status = .ok) : e.faultStops := fun hn => absurd h hn

/-- The status after a byte done is the one before. -/
theorem Engine.byteDone_status (e : Engine) (seg : Segment) : (e.byteDone seg).status = e.status := by
  rcases e.byteDone_cases seg with ⟨-, he⟩ | ⟨-, -, he⟩ | ⟨-, -, he⟩ <;> rw [he]

/-- A step of a busy engine before STOP keeps the lock, and a fault it sets takes it to STOP (R144). -/
theorem EngineBusy.fault_stops {s : State} {r : Requester} (ho : s.lockOwner = some r) (hb : EngineBusy s.eng)
    (hp : s.eng.phase ≠ .stop) : (engineStep s).lockOwner = some r ∧ (engineStep s).eng.faultStops := by
  have hok : s.eng.status = .ok := hb.okYet hp
  rcases hb.engineStep_cases ho with ⟨-, he⟩ | ⟨seg, -, he⟩ | ⟨seg, d, -, he⟩ | ⟨seg, -, he⟩ | ⟨hs, -⟩
  · rw [he]
    exact ⟨ho, Engine.faultStops_of_ok hok⟩
  · rw [he]
    refine ⟨by simp [engineAddr, ho], ?_⟩
    change (s.eng.afterAddr seg s.reply.target).faultStops
    rcases s.eng.afterAddr_cases seg s.reply.target with ⟨st, -, ha⟩ | ⟨-, -, ha⟩ | ⟨-, -, -, ha⟩ | ⟨-, -, -, ha⟩ <;> rw [ha]
    · exact fun _ => rfl
    · exact Engine.faultStops_of_ok hok
    · exact Engine.faultStops_of_ok (s.eng.next_keeps.2.trans hok)
    · exact Engine.faultStops_of_ok hok
  · rw [he]
    refine ⟨by simp [engineWData, ho], ?_⟩
    change (s.eng.afterTx seg s.reply.target).faultStops
    cases s.reply.target with
    | ack => exact Engine.faultStops_of_ok ((s.eng.byteDone_status seg).trans hok)
    | nack | stretchTo | timeout => exact fun _ => rfl
  · rw [he]
    refine ⟨by simp [engineRData, ho], ?_⟩
    change (s.eng.afterRx seg s.reply.rx).faultStops
    cases s.reply.rx with
    | byte v => exact Engine.faultStops_of_ok ((Engine.byteDone_status _ seg).trans hok)
    | fail f => exact fun _ => rfl
  · exact absurd hs hp

/-- Settles O28: the fault takes the engine to STOP, and the STOP step delivers a status that is not OK without bytes. -/
theorem aFaultIsFollowedByStopAndRelease : Obligations.AFaultIsFollowedByStopAndRelease := by
  rintro s t r ho hb hp rfl hst
  obtain ⟨hlock, hfault⟩ := hb.fault_stops ho hp
  have hstop := hfault hst
  refine ⟨hstop, ?_⟩
  rw [engineStep_of_stop hlock hstop, engineStop, Engine.result, if_neg hst]
  rfl

end Sys2Proof.Machine
end

section
/-! PROOFS. What the engine sends when the targets accept every byte: runs of engine steps, put together from single steps to
bytes, segments and the whole transaction (40_bus_engine R146, R147, R152). -/

namespace Sys2Proof.Machine

/-! ## Runs of engine steps -/

/-- `s` with these engine registers, `evs` emitted, and these replies still to come. -/
def State.engineAt (s : State) (g : Engine) (evs : List Event) (qs : List Reply) : State :=
  { s with eng := g, trace := s.trace ++ evs, env := { s.env with replies := qs } }

/-- A state is where its own engine is. -/
theorem State.engineAt_self (s : State) : s.engineAt s.eng [] s.env.replies = s := by simp [State.engineAt]

/-- As many engine steps as `evs` has events take the registers from `g` to `g'`, emit `evs`, and draw from `qs` what it has
before `qs'`. -/
def EngineRuns (s : State) (g : Engine) (qs : List Reply) (evs : List Event) (g' : Engine) (qs' : List Reply) : Prop :=
  ∀ tr, engineStep^[evs.length] (s.engineAt g tr qs) = s.engineAt g' (tr ++ evs) qs'

section
variable {s : State} {r : Requester} {g g₁ g₂ : Engine} {q : Reply} {qs qs₁ qs₂ : List Reply} {evs evs' : List Event}
  {seg : Segment}

/-- No step. -/
theorem EngineRuns.refl : EngineRuns s g qs [] g qs := fun tr => by simp

/-- Runs put one after the other. -/
theorem EngineRuns.trans (h : EngineRuns s g qs evs g₁ qs₁) (h' : EngineRuns s g₁ qs₁ evs' g₂ qs₂) :
    EngineRuns s g qs (evs ++ evs') g₂ qs₂ := by
  intro tr
  rw [List.length_append, Nat.add_comm, Function.iterate_add_apply, h, h', List.append_assoc]

/-- One step and a run. -/
theorem EngineRuns.cons {e : Event} (h : EngineRuns s g qs [e] g₁ qs₁) (h' : EngineRuns s g₁ qs₁ evs g₂ qs₂) :
    EngineRuns s g qs (e :: evs) g₂ qs₂ := h.trans h'

/-! ## Single steps -/

/-- A reply that accepts acknowledges a byte sent, and delivers a byte read. -/
theorem Reply.accepts_iff : Reply.accepts q = true ↔ q.target = .ack ∧ q.rx = .byte (Reply.byte q) := by
  rcases q with ⟨_ | _ | _ | _, _ | _, lock⟩ <;> simp [Reply.accepts, Reply.byte]

/-- The BEGIN step. -/
theorem EngineRuns.begin (ho : s.lockOwner = some r) (hp : g.phase = .begin) (qs : List Reply) :
    EngineRuns s g qs [if g.k = 0 then .start else .rstart] { g with i := 0, phase := .addr } qs := by
  intro tr
  change engineStep _ = _
  rw [engineStep_of_begin (s := s.engineAt g tr qs) ho hp]
  by_cases hk : g.k = 0 <;> simp [engineBegin, State.emit, State.engineAt, hk]

/-- The ADDR step of an acknowledged address byte. -/
theorem EngineRuns.addr (ho : s.lockOwner = some r) (hp : g.phase = .addr) (hs : g.segs[g.k]? = some seg)
    (hq : Reply.accepts q = true) (qs : List Reply) :
    EngineRuns s g (q :: qs) [.addr (addressByte (segAddr seg g.dflt) seg.dir) .ack] (g.afterAddr seg .ack) qs := by
  obtain ⟨ht, -⟩ := Reply.accepts_iff.mp hq
  intro tr
  change engineStep _ = _
  rw [engineStep_of_addr (s := s.engineAt g tr (q :: qs)) ho hp hs]
  simp [engineAddr, State.emit, State.engineAt, State.afterReply, State.reply, ht]

/-- The WDATA step of an acknowledged byte. -/
theorem EngineRuns.tx {d : Byte} (ho : s.lockOwner = some r) (hp : g.phase = .wdata) (hs : g.segs[g.k]? = some seg)
    (hd : seg.data[g.i]? = some d) (hq : Reply.accepts q = true) (qs : List Reply) :
    EngineRuns s g (q :: qs) [.tx d .ack] (g.byteDone seg) qs := by
  obtain ⟨ht, -⟩ := Reply.accepts_iff.mp hq
  intro tr
  change engineStep _ = _
  rw [engineStep_of_wdata (s := s.engineAt g tr (q :: qs)) ho hp hs hd]
  simp [engineWData, State.emit, State.engineAt, State.afterReply, State.reply, ht, Engine.afterTx, dataFailure]

/-- The RDATA step of a delivered byte. -/
theorem EngineRuns.rx (ho : s.lockOwner = some r) (hp : g.phase = .rdata) (hs : g.segs[g.k]? = some seg)
    (hq : Reply.accepts q = true) (qs : List Reply) : EngineRuns s g (q :: qs) [.rx (Reply.byte q) (readAck g.i seg.len.toNat)]
      ({ g with rx := g.rx ++ [Reply.byte q] }.byteDone seg) qs := by
  obtain ⟨-, hx⟩ := Reply.accepts_iff.mp hq
  intro tr
  change engineStep _ = _
  rw [engineStep_of_rdata (s := s.engineAt g tr (q :: qs)) ho hp hs]
  simp [engineRData, State.emit, State.engineAt, State.afterReply, State.reply, hx, Engine.afterRx, rxEvent]

/-! ## The bytes of a segment -/

/-- The rest of a write: the data bytes from `eng_i` on, one reply each. -/
theorem EngineRuns.writeBytes (ho : s.lockOwner = some r) (hlen : seg.data.length = seg.len.toNat) {bs : List Byte}
    (hp : g.phase = .wdata) (hs : g.segs[g.k]? = some seg) (hd : seg.data.drop g.i = bs) (hne : bs ≠ [])
    (hqs : qs.length = bs.length) (hacc : ∀ q ∈ qs, Reply.accepts q = true) (rest : List Reply) :
    EngineRuns s g (qs ++ rest) (bs.map (fun b => .tx b .ack)) { g with i := seg.len.toNat }.next rest := by
  induction bs generalizing g qs with
  | nil => exact absurd rfl hne
  | cons b bs ih =>
    obtain ⟨q, qs, rfl⟩ := List.exists_cons_of_length_eq_add_one hqs
    have hb : seg.data[g.i]? = some b := by
      have h := List.getElem?_drop (xs := seg.data) (i := g.i) (j := 0)
      simpa [hd] using h.symm
    have hrest : seg.data.drop (g.i + 1) = bs := by rw [← List.tail_drop, hd, List.tail_cons]
    have hcount : seg.len.toNat - g.i = bs.length + 1 := by rw [← hlen, ← List.length_drop, hd, List.length_cons]
    have hstep := EngineRuns.tx ho hp hs hb (hacc q (by simp)) (qs ++ rest)
    by_cases hbs : bs = []
    · subst hbs
      obtain rfl : qs = [] := by simpa using hqs
      have hi : g.i + 1 = seg.len.toNat := by simp at hcount; omega
      rw [Engine.byteDone_of_eq hi, hi] at hstep
      exact hstep
    · have hpos := List.length_pos_iff.mpr hbs
      rw [Engine.byteDone_of_ne (by omega)] at hstep
      exact hstep.cons (ih hp hs hrest hbs (by simpa using hqs) (fun q hq => hacc q (by simp [hq])))

/-- The rest of a read: one byte for each reply, the last of them not acknowledged. -/
theorem EngineRuns.readBytes {i : Nat} (ho : s.lockOwner = some r) (hp : g.phase = .rdata) (hs : g.segs[g.k]? = some seg)
    (hi : g.i = i) (hne : qs ≠ []) (hlen : i + qs.length = seg.len.toNat) (hacc : ∀ q ∈ qs, Reply.accepts q = true)
    (rest : List Reply) :
    EngineRuns s g (qs ++ rest) (rxEvents seg.len.toNat i (qs.map Reply.byte))
      { g with i := seg.len.toNat, rx := g.rx ++ qs.map Reply.byte }.next rest := by
  induction qs generalizing g i with
  | nil => exact absurd rfl hne
  | cons q qs ih =>
    have hack : readAck g.i seg.len.toNat = if i + 1 < seg.len.toNat then .ack else .nack := by
      simp only [readAck, Nat.lt_sub_iff_add_lt, hi]
    have hstep := EngineRuns.rx ho hp hs (hacc q (by simp)) (qs ++ rest)
    rw [hack] at hstep
    rw [List.length_cons] at hlen
    by_cases hqs : qs = []
    · subst hqs
      have hlast : g.i + 1 = seg.len.toNat := hi ▸ hlen
      rw [Engine.byteDone_of_eq (e := { g with rx := g.rx ++ [Reply.byte q] }) hlast] at hstep
      simpa [rxEvents, hlast] using hstep
    · have hpos := List.length_pos_iff.mpr hqs
      rw [Engine.byteDone_of_ne (by simp only; omega)] at hstep
      have hrest := ih (g := { g with rx := g.rx ++ [Reply.byte q], i := g.i + 1 }) (i := i + 1) hp hs (by rw [← hi]) hqs
        (by omega) (fun q hq => hacc q (by simp [hq]))
      exact hstep.cons (by simpa using hrest)

/-! ## A segment -/

/-- The data bytes of a segment whose address byte was acknowledged. -/
theorem EngineRuns.data (ho : s.lockOwner = some r) (hs : g.segs[g.k]? = some seg) (hi : g.i = 0)
    (hl : segLegal seg = true) (hqs : qs.length = seg.len.toNat) (hacc : ∀ q ∈ qs, Reply.accepts q = true)
    (rest : List Reply) :
    EngineRuns s (g.afterAddr seg .ack) (qs ++ rest) (segDataEvents seg (segReadBytes seg (qs ++ rest)))
      { g with i := seg.len.toNat, rx := g.rx ++ segReadBytes seg (qs ++ rest) }.next rest := by
  obtain ⟨hcount, hlen⟩ := Bool.and_eq_true_iff.mp hl
  cases hd : seg.dir with
  | read =>
    have hlen0 : seg.len ≠ 0#16 := by simpa [segLenOk, hd] using hlen
    have hne : qs ≠ [] := by
      rintro rfl
      exact hlen0 (BitVec.eq_of_toNat_eq hqs.symm)
    have hbytes : segReadBytes seg (qs ++ rest) = qs.map Reply.byte := by simp [segReadBytes, hd, ← hqs]
    have hevents : segDataEvents seg (qs.map Reply.byte) = rxEvents seg.len.toNat 0 (qs.map Reply.byte) := by
      simp [segDataEvents, hd]
    rw [Engine.afterAddr_read hd, hbytes, hevents]
    exact EngineRuns.readBytes (g := { g with phase := .rdata }) ho rfl hs hi hne (by omega) hacc rest
  | write =>
    have hdata : seg.len.toNat = seg.data.length := by simpa [segCountOk, hd] using hcount
    have hbytes : segReadBytes seg (qs ++ rest) = [] := by simp [segReadBytes, hd]
    have hevents : segDataEvents seg [] = seg.data.map (fun b => .tx b .ack) := by simp [segDataEvents, hd]
    rw [hbytes, hevents, List.append_nil]
    by_cases hlen0 : seg.len = 0#16
    · have hz : seg.len.toNat = 0 := by rw [hlen0]; rfl
      obtain rfl : qs = [] := List.eq_nil_of_length_eq_zero (hqs.trans hz)
      have hnil : seg.data = [] := List.eq_nil_of_length_eq_zero (hdata.symm.trans hz)
      rw [Engine.afterAddr_emptyWrite hd hlen0, hnil, hz, ← hi]
      exact EngineRuns.refl
    · have hne : seg.data ≠ [] := by
        intro hnil
        rw [hnil] at hdata
        exact hlen0 (BitVec.eq_of_toNat_eq hdata)
      rw [Engine.afterAddr_write hd hlen0]
      exact EngineRuns.writeBytes (g := { g with phase := .wdata }) ho hdata.symm rfl hs (by simp [hi]) hne
        (hqs.trans hdata) hacc rest

/-- A segment: its opening, its address byte, its data. -/
theorem EngineRuns.segment (ho : s.lockOwner = some r) (hp : g.phase = .begin) (hs : g.segs[g.k]? = some seg)
    (hl : segLegal seg = true) (hq : Reply.accepts q = true) (hqs : qs.length = seg.len.toNat)
    (hacc : ∀ q ∈ qs, Reply.accepts q = true) (rest : List Reply) :
    EngineRuns s g (q :: (qs ++ rest))
      ((if g.k = 0 then .start else .rstart) :: .addr (addressByte (segAddr seg g.dflt) seg.dir) .ack ::
        segDataEvents seg (segReadBytes seg (qs ++ rest)))
      { g with i := seg.len.toNat, rx := g.rx ++ segReadBytes seg (qs ++ rest) }.next rest :=
  (EngineRuns.begin ho hp _).cons <|
    (EngineRuns.addr (g := { g with i := 0, phase := .addr }) ho rfl hs hq _).cons <|
      EngineRuns.data (g := { g with i := 0, phase := .addr }) ho hs rfl hl hqs hacc rest

/-! ## The transaction -/

/-- The first `n` replies are there, and accept. -/
def AcceptsFirst (n : Nat) (qs : List Reply) : Prop := n ≤ qs.length ∧ ∀ q ∈ qs.take n, Reply.accepts q = true

/-- The replies of a segment of `n` bytes, and those of the segments after it. -/
theorem AcceptsFirst.split {n m : Nat} (h : AcceptsFirst (1 + n + m) qs) : ∃ q ds rest, qs = q :: (ds ++ rest) ∧
    Reply.accepts q = true ∧ ds.length = n ∧ (∀ d ∈ ds, Reply.accepts d = true) ∧ AcceptsFirst m rest := by
  obtain ⟨hlen, hacc⟩ := h
  cases qs with
  | nil =>
    rw [List.length_nil] at hlen
    omega
  | cons q qs =>
    rw [List.length_cons] at hlen
    have htake : (q :: qs).take (1 + n + m) = q :: (qs.take n ++ (qs.drop n).take m) := by
      rw [show 1 + n + m = (n + m) + 1 by omega, List.take_succ_cons, List.take_add]
    simp only [htake, List.mem_cons, List.mem_append] at hacc
    exact ⟨q, qs.take n, qs.drop n, by simp, hacc q (.inl rfl), by simp; omega, fun d hd => hacc d (.inr (.inl hd)),
      by simp; omega, fun d hd => hacc d (.inr (.inr hd))⟩

/-- The segments from `eng_k` on, up to STOP. -/
theorem EngineRuns.segments (ho : s.lockOwner = some r) {segs : List Segment} (hp : g.phase = .begin)
    (hd : g.segs.drop g.k = segs) (hne : segs ≠ []) (hl : segs.all segLegal = true)
    (hacc : AcceptsFirst (segsDraws segs) qs) :
    ∃ g' qs', EngineRuns s g qs (segsEvents (decide (g.k = 0)) segs g.dflt qs) g' qs' ∧
      g'.phase = .stop ∧ g'.status = g.status ∧ g'.rx = g.rx ++ segsBytes segs qs := by
  induction segs generalizing g qs with
  | nil => exact absurd rfl hne
  | cons seg rest ih =>
    have hs : g.segs[g.k]? = some seg := by
      have h := List.getElem?_drop (xs := g.segs) (i := g.k) (j := 0)
      simpa [hd] using h.symm
    have hrest : g.segs.drop (g.k + 1) = rest := by rw [← List.tail_drop, hd, List.tail_cons]
    have hcount : g.segs.length - g.k = rest.length + 1 := by rw [← List.length_drop, hd, List.length_cons]
    obtain ⟨hseg, hlegal⟩ := Bool.and_eq_true_iff.mp hl
    obtain ⟨q, ds, qs, rfl, hq, hds, hdacc, hqacc⟩ := AcceptsFirst.split (n := seg.len.toNat) (m := segsDraws rest) hacc
    have hafter : (ds ++ qs).drop seg.len.toNat = qs := by rw [← hds, List.drop_left]
    have hrun := EngineRuns.segment ho hp hs hseg hq hds hdacc qs
    simp only [segsEvents, segsBytes, Nat.add_comm 1, List.drop_succ_cons, List.drop_zero, hafter, decide_eq_true_eq]
    by_cases hr : rest = []
    · subst hr
      rw [Engine.next_of_not_lt (by simp at hcount ⊢; omega)] at hrun
      simp only [segsEvents, segsBytes, List.append_nil]
      exact ⟨_, _, hrun, rfl, rfl, rfl⟩
    · have hpos := List.length_pos_iff.mpr hr
      rw [Engine.next_of_lt (by simp only; omega)] at hrun
      obtain ⟨g', qs', hrec, hstop, hstatus, hrx⟩ := ih
        (g := { g with i := seg.len.toNat, rx := g.rx ++ segReadBytes seg (ds ++ qs), k := g.k + 1, phase := .begin })
        rfl hrest hr hlegal hqacc
      exact ⟨g', qs', hrun.trans (by simpa using hrec), hstop, hstatus, by rw [hrx, List.append_assoc]⟩

/-- A requester that has a call when its transaction begins gets the result (R145). -/
theorem State.tx_engineStop (h : s.tx r ≠ .idle) (g : Engine) (evs : List Event) (qs : List Reply) :
    (engineStop (s.engineAt g evs qs) r).tx r = g.result := by
  refine State.tx_setTx_self _ ?_
  have hreq := State.hasRequester_of_tx h
  cases r <;> exact hreq

end

/-! ## How many events there are -/

/-- One event for each byte read. -/
theorem rxEvents_length (len i : Nat) (bytes : List Byte) : (rxEvents len i bytes).length = bytes.length := by
  induction bytes generalizing i with
  | nil => rfl
  | cons v rest ih => simp [rxEvents, ih]

/-- As many data events as the segment has bytes. -/
theorem segDataEvents_length {seg : Segment} (hl : segLegal seg = true) {qs : List Reply} (hqs : seg.len.toNat ≤ qs.length) :
    (segDataEvents seg (segReadBytes seg qs)).length = seg.len.toNat := by
  obtain ⟨hcount, -⟩ := Bool.and_eq_true_iff.mp hl
  cases hd : seg.dir with
  | write =>
    have hlen : seg.len.toNat = seg.data.length := by simpa [segCountOk, hd] using hcount
    simp [segDataEvents, hd, hlen]
  | read => simpa [segDataEvents, hd, segReadBytes, rxEvents_length] using hqs

/-- R152: the events of a successful transaction, STOP among them. -/
theorem segsEvents_length {segs : List Segment} (hl : segs.all segLegal = true) (first : Bool) (dflt : Addr7)
    {qs : List Reply} (hqs : segsDraws segs ≤ qs.length) :
    (segsEvents first segs dflt qs).length + 1 = transactionEvents segs := by
  induction segs generalizing first qs with
  | nil => rfl
  | cons seg rest ih =>
    obtain ⟨hseg, hrest⟩ := Bool.and_eq_true_iff.mp hl
    have hdraws : segsDraws (seg :: rest) = 1 + seg.len.toNat + segsDraws rest := rfl
    have htotal : transactionEvents (seg :: rest) = 2 + seg.len.toNat + transactionEvents rest :=
      Nat.add_left_comm 1 _ _
    have hdata := segDataEvents_length hseg (qs := qs.drop 1) (by rw [List.length_drop]; omega)
    have hih := ih hrest false (qs := qs.drop (1 + seg.len.toNat)) (by rw [List.length_drop]; omega)
    rw [segsEvents, List.length_cons, List.length_cons, List.length_append, hdata, htotal]
    omega

/-- Settles O31: the segments' run from the loaded registers, and then the STOP step. -/
theorem acceptedTransactionSendsItsSegmentsAndDelivers : Obligations.AcceptedTransactionSendsItsSegmentsAndDelivers := by
  rintro s t r segs dflt ho heng ⟨hne, hl⟩ hdraws hacc rfl
  have hlen := segsEvents_length hl true dflt hdraws
  obtain ⟨g, qs, hrun, hstop, hstatus, hrx⟩ := EngineRuns.segments (g := Engine.load segs dflt) ho rfl rfl hne hl ⟨hdraws, hacc⟩
  have hload : s.engineAt (Engine.load segs dflt) [] s.env.replies = s := by
    conv_rhs => rw [← s.engineAt_self, heng]
    rfl
  have hsegs := hrun []
  rw [hload] at hsegs
  have hend : engineStep^[transactionEvents segs] s =
      engineStop (s.engineAt g (segsEvents true segs dflt s.env.replies) qs) r := by
    calc engineStep^[transactionEvents segs] s
      _ = engineStep (engineStep^[(segsEvents true segs dflt s.env.replies).length] s) := by
        rw [← hlen, Function.iterate_succ_apply']
      _ = engineStep (s.engineAt g (segsEvents true segs dflt s.env.replies) qs) := congrArg engineStep hsegs
      _ = engineStop (s.engineAt g (segsEvents true segs dflt s.env.replies) qs) r := engineStep_of_stop ho hstop
  rw [hend]
  refine ⟨by simp [engineStop, State.emit, State.engineAt], hlen, by simp [engineStop], by simp [engineStop], fun hr => ?_⟩
  rw [State.tx_engineStop (by simp [hr]), Engine.result, hstatus, hrx]
  rfl

end Sys2Proof.Machine
end

section
/-! PROOFS. Requesters inside `Transact`: the wait for the lock, the delivered result, and the response that follows it
(40_bus_engine R133, R136, R145, 70_reset_and_hazards R350). -/

namespace Sys2Proof.Machine

section
variable {s : State} {r : Requester} {segs : List Segment} {dflt : Addr7}

/-! ## The lock step (R136) -/

/-- A FREE lock is taken. -/
theorem State.lockStep_of_free (hl : s.lockOwner = none) :
    s.lockStep r segs dflt = { s with lockOwner := some r, eng := Engine.load segs dflt }.setTx r .running := by
  rcases s.lockStep_cases r segs dflt with ⟨-, e⟩ | ⟨hn, -⟩ | ⟨hn, -⟩
  · exact e
  · exact absurd hl hn
  · exact absurd hl hn

/-- The deadline passes while the lock is held. -/
theorem State.lockStep_of_timeout (hl : s.lockOwner ≠ none) (ht : s.reply.lock = .timeout) :
    s.lockStep r segs dflt = s.afterReply.setTx r (.returned .busTimeout none) := by
  rcases s.lockStep_cases r segs dflt with ⟨hn, -⟩ | ⟨-, -, e⟩ | ⟨-, hg, -⟩
  · exact absurd hn hl
  · exact e
  · rw [ht] at hg
    cases hg

/-- The wait goes on while the lock is held. -/
theorem State.lockStep_of_goOn (hl : s.lockOwner ≠ none) (hg : s.reply.lock = .goOn) :
    s.lockStep r segs dflt = s.afterReply := by
  rcases s.lockStep_cases r segs dflt with ⟨hn, -⟩ | ⟨-, ht, -⟩ | ⟨-, -, e⟩
  · exact absurd hn hl
  · rw [hg] at ht
    cases ht
  · exact e

/-! ## A client inside `Transact` -/

/-- Once the result is delivered, the client's step uses it. -/
theorem State.clientTransactStep_of_returned {finish : Status → Option (List Byte) → State} {st : Status}
    {rx : Option (List Byte)} (ht : s.tx (.client s.env.cur) = .returned st rx) : s.clientTransactStep finish = finish st rx := by
  simp only [State.clientTransactStep, ht]

/-- A bus command that waits takes a lock step. -/
theorem execBus_of_waiting {i : Instr} (hu : Instr.usesBus i = true) (hp : s.phase = .bus)
    (ht : s.tx (.client s.env.cur) = .waiting segs dflt) : exec i s = .next (s.lockStep (.client s.env.cur) segs dflt) := by
  obtain ⟨res, he⟩ := execBus_bus_eq hu hp
  simp only [he, State.clientTransactStep, ht]

/-- A bus command whose transaction is in the engine has no step. -/
theorem execBus_of_running {i : Instr} (hu : Instr.usesBus i = true) (hp : s.phase = .bus)
    (ht : s.tx (.client s.env.cur) = .running) : exec i s = .next s := by
  obtain ⟨res, he⟩ := execBus_bus_eq hu hp
  simp only [he, State.clientTransactStep, ht]

/-- A bus command whose result is delivered responds with its status. -/
theorem execBus_of_returned {i : Instr} (hu : Instr.usesBus i = true) (hp : s.phase = .bus) {st : Status}
    {rx : Option (List Byte)} (ht : s.tx (.client s.env.cur) = .returned st rx) :
    ∃ res, exec i s = .next (s.respond st res) := by
  obtain ⟨res, he⟩ := execBus_bus_eq hu hp
  exact ⟨res st rx, by rw [he, State.clientTransactStep_of_returned ht]⟩

end

/-- Settles O22: the client's step is the lock step, or none. -/
theorem busCommandWaitsForTheLock : Obligations.BusCommandWaitsForTheLock := by
  intro s i hu hp
  refine ⟨fun segs dflt ht => ?_, execBus_of_running hu hp⟩
  rw [execBus_of_waiting hu hp ht]
  exact ⟨fun hl => congrArg _ (State.lockStep_of_free hl), fun hl hr => congrArg _ (State.lockStep_of_timeout hl hr),
    fun hl hr => congrArg _ (State.lockStep_of_goOn hl hr)⟩

/-! ## The initialisation sequence and the worker inside `Transact` -/

/-- PWM_INIT inside its sequence takes a step of the sequence (R241). -/
theorem exec_pwmInit_of_sequence {s : State} (hp : s.phase = .sequence) (freq : BitVec 16) (addr : Addr7) :
    exec (.pwmInit freq addr) s = .next (initSequenceStep s) := by
  simp only [exec, execPwmInit, hp]

/-- Settles O46: the step of the sequence is the lock step of requester INIT, or none. -/
theorem pwmInitWaitsForTheLock : Obligations.PwmInitWaitsForTheLock := by
  intro s freq addr hp
  rw [exec_pwmInit_of_sequence hp]
  refine ⟨fun segs dflt ht => ?_, fun ht => by simp only [initSequenceStep, ht]⟩
  have hstep : initSequenceStep s = s.lockStep .init segs dflt := by simp only [initSequenceStep, ht]
  rw [hstep]
  exact ⟨fun hl => congrArg _ (State.lockStep_of_free hl), fun hl hr => congrArg _ (State.lockStep_of_timeout hl hr),
    fun hl hr => congrArg _ (State.lockStep_of_goOn hl hr)⟩

/-- Settles O56: the step of a channel write is the lock step of requester WORKER, or none. -/
theorem workerWaitsForTheLock : Obligations.WorkerWaitsForTheLock := by
  intro s hp hc
  have hwrite : workerStep s = workerWrite s := by simp only [workerStep, hp, hc, if_true]
  rw [hwrite]
  refine ⟨fun segs dflt ht => ?_, fun ht => by simp only [workerWrite, ht]⟩
  have hstep : workerWrite s = s.lockStep .worker segs dflt := by simp only [workerWrite, ht]
  rw [hstep]
  refine ⟨State.lockStep_of_free, fun hl hr => ?_, State.lockStep_of_goOn⟩
  rw [State.lockStep_of_timeout hl hr]
  simp [State.setTx]

/-! ## The response (R350) -/

/-- A client whose command is an instruction has that word outstanding. -/
theorem Client.instr_eq_some {c : Client} {i : Instr} (hi : c.instr = some i) :
    ∃ cmd, c.cmd = some cmd ∧ decode cmd = .ok i := by
  unfold Client.instr at hi
  cases hm : c.cmd with
  | none => simp [hm] at hi
  | some cmd =>
    cases hd : decode cmd with
    | error e => simp [hm, hd] at hi
    | ok i' =>
      obtain rfl : i' = i := by simpa [hm, hd] using hi
      exact ⟨cmd, rfl, hd⟩

/-- A client's move with a legal word outstanding is one step of its instruction. -/
theorem clientStep_of_instr {s : State} {j : Nat} {c : Client} {i : Instr} (hc : s.clients[j]? = some c)
    (hi : c.instr = some i) : clientStep j s = exec i (s.selectClient j) := by
  obtain ⟨cmd, hm, hd⟩ := Client.instr_eq_some hi
  have hp : s.pending j = .instr i := by rw [State.pending_of_hasCommand ⟨c, hc, hm⟩, hd]; rfl
  rw [clientStep, hp]

/-- Client `j` has this record and does not hold the lock. -/
def State.hasFreeClient (s : State) (j : Nat) (c : Client) : Prop :=
  s.clients[j]? = some c ∧ s.lockOwner ≠ some (.client j)

section
variable {x : Execution} {j n : Nat} {c : Client} {st : Status} {rx : Option (List Byte)}

/-- A client with a command outstanding that does not hold the lock keeps its record until its own step. -/
theorem Execution.hasFreeClient_succ (hcmd : c.cmd ≠ none) (h : (x.state n).hasFreeClient j c) (hm : x.move n ≠ .client j) :
    (x.state (n + 1)).hasFreeClient j c := by
  obtain ⟨hc, hl⟩ := h
  obtain ⟨e, he⟩ := x.steps n
  exact runMove_client_kept he hm hc hcmd hl

/-- A client with its result delivered takes its step on an execution that is weakly fair to it. -/
theorem Execution.client_moves_of_returned (hf : x.weaklyFair (.client j)) (hcmd : c.cmd ≠ none) (hp : c.phase = .bus)
    (ht : c.tx = .returned st rx) (h : (x.state n).hasFreeClient j c) :
    ∃ m, n ≤ m ∧ (x.state m).clients[j]? = some c ∧ x.move m = .client j := by
  by_contra hno
  have hwaits : ∀ m, n ≤ m → (x.state m).clients[j]? = some c → x.move m ≠ .client j :=
    fun m hm hc hmove => hno ⟨m, hm, hc, hmove⟩
  have hkept : ∀ m, n ≤ m → (x.state m).hasFreeClient j c := by
    intro m hm
    induction m, hm using Nat.le_induction with
    | base => exact h
    | succ m hm ih => exact Execution.hasFreeClient_succ hcmd ih (hwaits m hm ih.1)
  obtain ⟨m, hm, hdis | hmove⟩ := hf n
  · obtain ⟨hc, -⟩ := hkept m hm
    have hen : (x.state m).enabled (.client j) = true := by
      simp [State.enabled, hc, Option.isSome_iff_ne_none, hcmd, State.clientHasStep, hp, ht, Transact.hasStep]
    rw [hen] at hdis
    cases hdis
  · exact hwaits m hm (hkept m hm).1 hmove

/-- The step of a bus command with its result delivered answers that status. -/
theorem clientStep_of_returned {s t : State} {i : Instr} (hc : s.clients[j]? = some c) (hi : c.instr = some i)
    (hu : Instr.usesBus i = true) (hp : c.phase = .bus) (ht : c.tx = .returned st rx) (h : clientStep j s = .next t) :
    ∃ d, t.clients[j]? = some d ∧ d.cmd = none ∧ d.resp.map Response.status = some st := by
  have hc' : (s.selectClient j).clients[(s.selectClient j).env.cur]? = some c := hc
  obtain ⟨res, he⟩ := execBus_of_returned hu ((State.phase_eq hc').trans hp) ((State.tx_client hc').trans ht)
  rw [clientStep_of_instr hc hi, he] at h
  cases h
  exact ⟨Client.answered ⟨st, res⟩, State.updClient_self _ hc', rfl, rfl⟩

end

/-- Settles O23: a step with the delivered result is the response, and fairness makes the client take it. -/
theorem busCommandAnswersItsResult : Obligations.BusCommandAnswersItsResult := by
  refine ⟨fun s st rx hp ht => ⟨fun _ _ _ => ?_, fun _ _ => ?_, fun _ _ _ => ?_, fun _ _ _ => ?_⟩, ?_⟩
  · simp only [exec, execExecute, hp, State.clientTransactStep_of_returned ht, State.respondRead, readResult]
  · simp only [exec, execReadDesc, hp, State.clientTransactStep_of_returned ht, State.respondRead, readResult]
  · simp only [exec, execAtomicTransfer, hp, State.clientTransactStep_of_returned ht, State.respondRead, readResult]
  · simp only [exec, execWriteDesc, hp, State.clientTransactStep_of_returned ht, State.respondStatus]
  · intro x j n c i st rx hf hc hi hu hp ht hl
    obtain ⟨cmd, hm, -⟩ := Client.instr_eq_some hi
    obtain ⟨m, hnm, hcm, hmove⟩ := Execution.client_moves_of_returned hf (by simp [hm]) hp ht ⟨hc, hl⟩
    obtain ⟨e, he⟩ := x.steps m
    rw [hmove] at he
    obtain ⟨d, hd⟩ := clientStep_of_returned (s := { x.state m with env := e }) hcm hi hu hp ht he
    exact ⟨m + 1, d, by omega, hd⟩

end Sys2Proof.Machine
end

section
/-! PROOFS. The first steps of BUS_INIT and EXECUTE, and the frames of the commands that set up the bus, write the descriptor
table or call `Transact` (40_bus_engine R130 to R136, 41_bus_front_end R170 to R175, 43_pwm_cache_flush R240, R241). -/

namespace Sys2Proof.Machine

/-! ## BUS_INIT (R130) -/

/-- Where no response is due, `respondOr` is the first step. -/
theorem State.respondOr_of_phase_ne {s : State} (h : ∀ r, s.phase ≠ .respond r) (first : State) : s.respondOr first = first := by
  rcases s.respondOr_cases first with ⟨r, hr, -⟩ | ⟨-, e⟩
  · exact absurd hr (h r)
  · exact e

/-- Settles O20: the first step of BUS_INIT, by the latch. -/
theorem busInitConfiguresOnce : Obligations.BusInitConfiguresOnce := by
  have hstart : ∀ s : State, (∀ r, s.phase ≠ .respond r) → exec .busInit s = .next (busInitStart s) :=
    fun s hp => congrArg _ (State.respondOr_of_phase_ne hp _)
  refine ⟨reservedBitsAreAnsweredIllegalCommand .busInit, respondsNext_of_respondsLater rfl, fun s hp hb => ?_,
    fun s hp hb => ?_⟩
  · rw [hstart s hp, busInitStart, hb]
    rfl
  · rw [hstart s hp, busInitStart, hb]
    rfl

/-! ## EXECUTE (R131, R134, R135) -/

/-- EXECUTE outside `Transact` takes its first step. -/
theorem exec_execute_of_phase_ne {s : State} (hp : s.phase ≠ .bus) (nseg : BitVec 8) (addr : Addr7) (segs : List Segment) :
    exec (.execute nseg addr segs) s = .next (executeStart nseg addr segs s) := by
  change execExecute nseg addr segs s = _
  unfold execExecute
  split
  case h_1 hbus => exact absurd hbus hp
  case h_2 => rfl

/-- The checks of R94 and R135 say that the count is right and every segment legal. -/
theorem checks_iff {count : Nat} {segs : List Segment} :
    (countsAgree count segs = true ∧ checkSegments segs = true) ↔ (count = segs.length ∧ segs.all segLegal = true) := by
  simp only [countsAgree, checkSegments, segLegal, Bool.and_eq_true, List.all_eq_true, beq_iff_eq, forall_and, and_assoc]

section
variable {s : State} {nseg : BitVec 8} {addr : Addr7} {segs : List Segment}

/-- A failed check is answered INVALID_ARGUMENT. -/
theorem executeStart_of_not_checks (hb : s.busInit = true)
    (hc : ¬ (nseg.toNat = segs.length ∧ segs.all segLegal = true)) :
    executeStart nseg addr segs s = s.raise .invalidArgument := by
  rw [← checks_iff, not_and_or, Bool.not_eq_true, Bool.not_eq_true] at hc
  rcases hc with hc | hc <;> simp [executeStart, hb, hc]

/-- Past the checks an empty list is answered at once, and every other one goes to `Transact`. -/
theorem executeStart_of_checks (hb : s.busInit = true) (hn : nseg.toNat = segs.length) (hl : segs.all segLegal = true) :
    executeStart nseg addr segs s = if segs = [] then s.respond .ok (.bytes []) else s.callTransact segs addr := by
  obtain ⟨hcount, hcheck⟩ := checks_iff.mpr ⟨hn, hl⟩
  simp [executeStart, hb, hcount, hcheck, State.respondRead, readResult]

end

/-- Settles O21: the checks decide the first step; the response is O23's. -/
theorem executeChecksThenCallsTransact : Obligations.ExecuteChecksThenCallsTransact := by
  obtain ⟨hanswer, -⟩ := busCommandAnswersItsResult
  refine ⟨reservedBitsAreAnsweredIllegalCommand .execute, fun s nseg addr segs st rx hp ht => (hanswer s st rx hp ht).1 _ _ _,
    fun s nseg addr segs hp => ?_⟩
  rw [exec_execute_of_phase_ne hp]
  refine ⟨fun hb => ?_, fun hb hbad => ?_, fun hb hn hnil => ?_, fun hb hn ⟨hne, hl⟩ => ?_⟩
  · simp [executeStart, hb]
  · refine congrArg _ (executeStart_of_not_checks hb fun ⟨hn, hl⟩ => ?_)
    rcases hbad with hbad | ⟨seg, hseg, hbad⟩
    · exact hbad hn
    · rw [List.all_eq_true.mp hl seg hseg] at hbad
      cases hbad
  · subst hn hnil
    exact congrArg _ (executeStart_of_checks hb rfl rfl)
  · rw [executeStart_of_checks hb hn hl, if_neg hne]
    rfl

/-! ## Frames -/

/-- A change of the current client's record is a change of no other. -/
theorem sameOtherClients_of_modify {s t : State} (f : Client → Client) (h : t.clients = s.clients.modify s.env.cur f) :
    sameOtherClients s t := ⟨by simp [h], fun j hj => by simp [h, Ne.symm hj]⟩

/-- A step that leaves every record is a change of no other. -/
theorem sameOtherClients_of_eq {s t : State} (h : t.clients = s.clients) : sameOtherClients s t :=
  ⟨by rw [h], fun _ _ => by rw [h]⟩

/-! ### The descriptor table -/

/-- The entry OPEN takes is closed, and every entry below it is open (R170). -/
theorem lowestClosed_spec {table : List Desc} {n : Nat} (h : lowestClosed table = some n) :
    (∃ d, table[n]? = some d ∧ d.isOpen = false) ∧ ∀ m d, m < n → table[m]? = some d → d.isOpen = true := by
  obtain ⟨hn, hclosed, hbelow⟩ := List.findIdx?_eq_some_iff_getElem.mp h
  refine ⟨⟨_, List.getElem?_eq_getElem hn, by simpa using hclosed⟩, fun m d hm hd => ?_⟩
  obtain ⟨hlt, rfl⟩ := List.getElem?_eq_some_iff.mp hd
  simpa using hbelow m hm

/-- A command that responds later leaves the table as it is, or as its first step leaves it. -/
theorem State.respondOr_desc (s first : State) : (s.respondOr first).desc = s.desc ∨ (s.respondOr first).desc = first.desc := by
  rcases s.respondOr_cases first with ⟨r, -, e⟩ | ⟨-, e⟩ <;> rw [e]
  · exact .inl rfl
  · exact .inr rfl

/-- CLOSE writes the named entry or none. -/
theorem closeStart_desc (fd : BitVec 8) (s : State) :
    (closeStart fd s).desc = s.desc ∨ ∃ d, (closeStart fd s).desc = s.desc.set fd.toNat d := by
  unfold closeStart
  split
  · exact .inl rfl
  · exact .inr ⟨_, rfl⟩

/-- BIND_ADDRESS writes the named entry or none. -/
theorem bindStart_desc (fd a8 : BitVec 8) (s : State) :
    (bindStart fd a8 s).desc = s.desc ∨ ∃ d, (bindStart fd a8 s).desc = s.desc.set fd.toNat d := by
  unfold bindStart
  split
  · exact .inl rfl
  · split
    · exact .inl rfl
    · exact .inr ⟨_, rfl⟩

/-- OPEN writes the lowest closed entry or none. -/
theorem openStart_desc (s : State) :
    (openStart s).desc = s.desc ∨ ∃ n d, lowestClosed s.desc = some n ∧ (openStart s).desc = s.desc.set n d := by
  unfold openStart
  split
  · exact .inl rfl
  · next n hn => exact .inr ⟨n, _, hn, rfl⟩

/-- CLOSE and BIND_ADDRESS write the named entry or none. -/
theorem exec_desc_of_named {s t : State} {fd a8 : BitVec 8} {i : Instr} (hi : i = .closeDesc fd ∨ i = .bindAddress fd a8)
    (h : exec i s = .next t) : t.desc = s.desc ∨ ∃ d, t.desc = s.desc.set fd.toNat d := by
  rcases hi with rfl | rfl <;> cases h
  · rcases s.respondOr_desc (closeStart fd s) with e | e <;> rw [e]
    · exact .inl rfl
    · exact closeStart_desc fd s
  · rcases s.respondOr_desc (bindStart fd a8 s) with e | e <;> rw [e]
    · exact .inl rfl
    · exact bindStart_desc fd a8 s

/-- OPEN leaves every entry that is open or above a closed one. -/
theorem exec_openDesc_desc {s t : State} (h : exec .openDesc s = .next t) {n : Nat} {d : Desc} (hd : s.desc[n]? = some d)
    (hkeep : d.isOpen = true ∨ ∃ m < n, ∃ e, s.desc[m]? = some e ∧ e.isOpen = false) : t.desc[n]? = some d := by
  cases h
  rcases s.respondOr_desc (openStart s) with e | e <;> rw [e]
  · exact hd
  · rcases openStart_desc s with e | ⟨k, d', hk, e⟩ <;> rw [e]
    · exact hd
    · obtain ⟨⟨dk, hdk, hclosed⟩, hbelow⟩ := lowestClosed_spec hk
      have hne : k ≠ n := by
        rintro rfl
        rw [hd] at hdk
        cases hdk
        rcases hkeep with ho | ⟨m, hm, em, hem, hc⟩
        · rw [ho] at hclosed
          cases hclosed
        · rw [hbelow m em hm hem] at hc
          cases hc
      rw [List.getElem?_set_ne hne, hd]

/-- Settles O58: each case of a command's step names what it writes. -/
theorem setupCommandsWriteTheirRegistersOnly : Obligations.SetupCommandsWriteTheirRegistersOnly := by
  refine ⟨fun s t h => ?_, fun s t i hi h => ?_, fun s t fd a8 i hi h n hn => ?_, fun s t n d h hd => exec_openDesc_desc h hd⟩
  · rcases execBusInit_cases h with ⟨r, -, rfl⟩ | ⟨-, rfl⟩ | ⟨-, -, rfl⟩
    · exact ⟨rfl, sameOtherClients_of_modify _ rfl⟩
    · exact ⟨rfl, sameOtherClients_of_modify _ rfl⟩
    · exact ⟨rfl, sameOtherClients_of_modify _ rfl⟩
  · rcases execDesc_cases hi h with ⟨r, -, rfl⟩ | ⟨st, rfl, -⟩ | ⟨n, d, res, -, rfl⟩
    · exact ⟨rfl, sameOtherClients_of_modify _ rfl, rfl⟩
    · exact ⟨rfl, sameOtherClients_of_modify _ rfl, rfl⟩
    · exact ⟨rfl, sameOtherClients_of_modify _ rfl, List.length_set⟩
  · rcases exec_desc_of_named hi h with e | ⟨d, e⟩ <;> rw [e]
    exact List.getElem?_set_ne (Ne.symm hn)

/-! ### The commands that call `Transact` -/

/-- `t` differs from `s` at most in the lock, the engine registers, the model's inputs and the current client's record. -/
def BusFrame (s t : State) : Prop :=
  t = { s with lockOwner := t.lockOwner, eng := t.eng, env := t.env, clients := t.clients } ∧ sameOtherClients s t

/-- `t` differs from `s` at most in these and in the PWM registers, and in one DELAY emitted. -/
def PwmFrame (s t : State) : Prop :=
  t = { s with
    pwmState := t.pwmState, pwmAddr := t.pwmAddr, pwmPrescale := t.pwmPrescale, initStep := t.initStep
    initTx := t.initTx, lockOwner := t.lockOwner, eng := t.eng, env := t.env, clients := t.clients, trace := t.trace } ∧
  sameOtherClients s t ∧ (t.trace = s.trace ∨ t.trace = s.trace ++ [.delay Config.tSettle])

/-- A lock step of the current client. -/
theorem BusFrame.lockStep (s : State) (segs : List Segment) (dflt : Addr7) :
    BusFrame s (s.lockStep (.client s.env.cur) segs dflt) := by
  obtain ⟨o, g, e, h | ⟨x, h⟩⟩ := s.lockStep_writes (.client s.env.cur) segs dflt <;> rw [h]
  · exact ⟨rfl, sameOtherClients_of_eq rfl⟩
  · exact ⟨rfl, sameOtherClients_of_modify _ rfl⟩

/-- Every step of a bus command. -/
theorem BusFrame.exec {s t : State} {i : Instr} (hu : Instr.usesBus i = true) (h : exec i s = .next t) : BusFrame s t := by
  by_cases hp : s.phase = .bus
  · obtain ⟨res, he⟩ := execBus_bus_eq hu hp
    rw [he] at h
    cases h
    rcases s.clientTransactStep_cases (fun st rx => s.respond st (res st rx)) with ⟨segs, dflt, -, e⟩ | ⟨-, e⟩ |
      ⟨st, rx, -, e⟩ | ⟨-, e⟩ <;> rw [e]
    · exact BusFrame.lockStep s segs dflt
    · exact ⟨rfl, sameOtherClients_of_eq rfl⟩
    · exact ⟨rfl, sameOtherClients_of_modify _ rfl⟩
    · exact ⟨rfl, sameOtherClients_of_eq rfl⟩
  · rcases execBus_start_cases hu hp h with ⟨st, rfl, -⟩ | ⟨res, rfl⟩ | ⟨segs, dflt, -, rfl, -⟩
    · exact ⟨rfl, sameOtherClients_of_modify _ rfl⟩
    · exact ⟨rfl, sameOtherClients_of_modify _ rfl⟩
    · exact ⟨rfl, sameOtherClients_of_modify _ rfl⟩

/-- A step of the initialisation sequence. -/
theorem PwmFrame.initSequenceStep (s : State) : PwmFrame s (initSequenceStep s) := by
  rcases initSequenceStep_cases s with e | ⟨segs, dflt, -, e⟩ | ⟨rx, -, -, e⟩ | ⟨rx, -, -, -, -, e⟩ | ⟨rx, -, -, -, e⟩ |
    ⟨st, rx, -, -, e⟩ | ⟨-, -, e⟩ <;> rw [e]
  · exact ⟨rfl, sameOtherClients_of_eq rfl, .inl rfl⟩
  · obtain ⟨o, g, e, h | ⟨x, h⟩⟩ := s.lockStep_writes .init segs dflt <;> rw [h]
    · exact ⟨rfl, sameOtherClients_of_eq rfl, .inl rfl⟩
    · exact ⟨rfl, sameOtherClients_of_eq rfl, .inl rfl⟩
  · exact ⟨rfl, sameOtherClients_of_eq rfl, .inl rfl⟩
  · exact ⟨rfl, sameOtherClients_of_eq rfl, .inr rfl⟩
  · exact ⟨rfl, sameOtherClients_of_eq rfl, .inr rfl⟩
  · exact ⟨rfl, sameOtherClients_of_modify _ rfl, .inl rfl⟩
  · exact ⟨rfl, sameOtherClients_of_modify _ rfl, .inl rfl⟩

/-- Every step of PWM_INIT. -/
theorem PwmFrame.exec {s t : State} {freq : BitVec 16} {addr : Addr7} (h : exec (.pwmInit freq addr) s = .next t) :
    PwmFrame s t := by
  rcases execPwmInit_cases h with ⟨-, rfl⟩ | ⟨r, -, rfl⟩ | ⟨-, st, rfl, -⟩ | ⟨-, -, -, -, -, p, -, rfl⟩
  · exact PwmFrame.initSequenceStep s
  · exact ⟨rfl, sameOtherClients_of_modify _ rfl, .inl rfl⟩
  · exact ⟨rfl, sameOtherClients_of_modify _ rfl, .inl rfl⟩
  · exact ⟨rfl, sameOtherClients_of_modify _ rfl, .inl rfl⟩

/-- Settles O60: the two frames; that a held lock and its engine registers stay is in the frame of every client's step. -/
theorem busCommandsWriteTheirRegistersOnly : Obligations.BusCommandsWriteTheirRegistersOnly := by
  refine ⟨fun s t i hu h => ?_, fun s t freq addr h => ?_⟩
  · obtain ⟨hframe, hothers⟩ := BusFrame.exec hu h
    exact ⟨hframe, hothers, (exec_clientFrame h).held⟩
  · obtain ⟨hframe, hothers, htrace⟩ := PwmFrame.exec h
    exact ⟨hframe, hothers, (exec_clientFrame h).held, htrace⟩

end Sys2Proof.Machine
end

section
/-! PROOFS. The descriptor front end: the first steps of OPEN, CLOSE, BIND_ADDRESS, READ, WRITE and ATOMIC_TRANSFER
(41_bus_front_end R170 to R177). -/

namespace Sys2Proof.Machine

/-! ## The descriptor table (R170, R171) -/

section
variable {table : List Desc} {fd : BitVec 8}

/-- An open entry is the one its id names. -/
theorem openEntry_of_open {a : Addr7} (h : table[fd.toNat]? = some ⟨true, a⟩) : openEntry table fd = some ⟨true, a⟩ := by
  simp [openEntry, h]

/-- An id that names no open entry is not valid: it is out of range, or the entry is closed. -/
theorem openEntry_of_not_open (h : ∀ a : Addr7, table[fd.toNat]? ≠ some ⟨true, a⟩) : openEntry table fd = none := by
  rcases hd : table[fd.toNat]? with _ | ⟨_ | _, a⟩
  · simp [openEntry, hd]
  · simp [openEntry, hd]
  · exact absurd hd (h a)

/-- A closed entry above open ones is the lowest closed one. -/
theorem lowestClosed_append_cons {below above : List Desc} {d : Desc} (hb : ∀ e ∈ below, e.isOpen = true)
    (hd : d.isOpen = false) : lowestClosed (below ++ d :: above) = some below.length := by
  have hbelow : below.findIdx? (fun e => !e.isOpen) = none := by simpa using hb
  simp [lowestClosed, List.findIdx?_append, hbelow, List.findIdx?_cons, hd]

/-- A table of open entries has no closed one. -/
theorem lowestClosed_of_all_open (h : ∀ e ∈ table, e.isOpen = true) : lowestClosed table = none := by
  simpa [lowestClosed] using h

end

/-! ## OPEN, CLOSE and BIND_ADDRESS (R170 to R172) -/

/-- Settles O32: the entry OPEN takes is the lowest closed one. -/
theorem openTakesTheLowestClosedEntry : Obligations.OpenTakesTheLowestClosedEntry := by
  have hstart : ∀ s : State, (∀ r, s.phase ≠ .respond r) → exec .openDesc s = .next (openStart s) :=
    fun s hp => congrArg _ (State.respondOr_of_phase_ne hp _)
  refine ⟨reservedBitsAreAnsweredIllegalCommand .openDesc, respondsNext_of_respondsLater rfl,
    fun s below above d hp hs hbelow hd => ?_, fun s hp hopen => ?_⟩
  · have hlow : lowestClosed s.desc = some below.length := by rw [hs, lowestClosed_append_cons hbelow hd]
    have hset : s.desc.set below.length ⟨true, 0#7⟩ = below ++ ⟨true, 0#7⟩ :: above := by simp [hs]
    rw [hstart s hp, ← hset]
    simp only [openStart, hlow, State.setDesc]
  · simp only [hstart s hp, openStart, lowestClosed_of_all_open hopen]

/-- Settles O33: whether the id names an open entry decides the first step of CLOSE. -/
theorem closeUnbindsAnOpenDescriptor : Obligations.CloseUnbindsAnOpenDescriptor := by
  have hstart : ∀ (s : State) (fd : BitVec 8), (∀ r, s.phase ≠ .respond r) →
      exec (.closeDesc fd) s = .next (closeStart fd s) := fun s fd hp => congrArg _ (State.respondOr_of_phase_ne hp _)
  refine ⟨reservedBitsAreAnsweredIllegalCommand .closeDesc, fun _ => respondsNext_of_respondsLater rfl,
    fun s fd a hp ho => ?_, fun s fd hp hno => ?_⟩
  · rw [hstart s fd hp, closeStart, openEntry_of_open ho]
    rfl
  · rw [hstart s fd hp, closeStart, openEntry_of_not_open hno]

/-- Settles O34: the entry, and then the address, decide the first step of BIND_ADDRESS. -/
theorem bindStoresASevenBitAddress : Obligations.BindStoresASevenBitAddress := by
  refine ⟨reservedBitsAreAnsweredIllegalCommand .bindAddress, fun _ _ => respondsNext_of_respondsLater rfl,
    fun s fd a8 hp => ?_⟩
  have hstart : exec (.bindAddress fd a8) s = .next (bindStart fd a8 s) := congrArg _ (State.respondOr_of_phase_ne hp _)
  rw [hstart]
  refine ⟨fun a ho hle => ?_, fun a ho hlt => ?_, fun hno => ?_⟩
  · simp [bindStart, openEntry_of_open ho, Nat.not_lt.mpr hle, State.setDesc]
  · simp [bindStart, openEntry_of_open ho, hlt]
  · simp [bindStart, openEntry_of_not_open hno]

/-! ## The first step of READ, WRITE and ATOMIC_TRANSFER (R173 to R176) -/

/-- Outside `Transact` the three commands take their first step. -/
theorem exec_frontEnd_of_phase_ne {s : State} (hp : s.phase ≠ .bus) (fd : BitVec 8) (len : BitVec 16) :
    (∀ data, exec (.writeDesc fd len data) s = .next (writeStart fd len data s)) ∧
    exec (.readDesc fd len) s = .next (readStart fd len s) ∧
    (∀ segs, exec (.atomicTransfer fd len segs) s = .next (atomicStart fd len segs s)) := by
  have hstart : ∀ bus start : State, (match s.phase with | .bus => bus | _ => start) = start := by
    intro bus start
    split
    case h_1 hbus => exact absurd hbus hp
    case h_2 => rfl
  exact ⟨fun _ => congrArg _ (hstart _ _), congrArg _ (hstart _ _), fun _ => congrArg _ (hstart _ _)⟩

/-- Settles O35: the checks decide the first step; the response is O23's. -/
theorem writeChecksThenCallsTransact : Obligations.WriteChecksThenCallsTransact := by
  obtain ⟨hanswer, -⟩ := busCommandAnswersItsResult
  refine ⟨fun s fd len data st rx hp ht => ?_, fun s fd len data hp => ?_⟩
  · obtain ⟨-, -, -, hwrite⟩ := hanswer s st rx hp ht
    exact hwrite fd len data
  · obtain ⟨hstart, -, -⟩ := exec_frontEnd_of_phase_ne hp fd len
    rw [hstart]
    refine ⟨fun hb => ?_, fun hb hno => ?_, fun a hb ho => ⟨fun hn => ?_, fun hn ha => ?_, fun hl hd ha => ?_,
      fun hn hl ha => ?_⟩⟩
    · simp [writeStart, hb]
    · simp [writeStart, hb, openEntry_of_not_open hno]
    · simp [writeStart, hb, openEntry_of_open ho, hn]
    · simp [writeStart, hb, openEntry_of_open ho, hn, ha]
    · simp [writeStart, hb, openEntry_of_open ho, hl, hd, ha, State.respondStatus]
    · simp [writeStart, hb, openEntry_of_open ho, hn, hl, ha, State.callTransact, State.updClient, writeSegs]

/-- Settles O36: the checks decide the first step; the response is O23's. -/
theorem readChecksThenCallsTransact : Obligations.ReadChecksThenCallsTransact := by
  obtain ⟨hanswer, -⟩ := busCommandAnswersItsResult
  refine ⟨fun s fd len st rx hp ht => ?_, fun s fd len hp => ?_⟩
  · obtain ⟨-, hread, -, -⟩ := hanswer s st rx hp ht
    exact hread fd len
  · obtain ⟨-, hstart, -⟩ := exec_frontEnd_of_phase_ne hp fd len
    rw [hstart]
    refine ⟨fun hb => ?_, fun hb hunbound => ?_, fun a hb ho ha => ⟨fun hl => ?_, fun hl => ?_⟩⟩
    · simp [readStart, hb]
    · by_cases hopen : ∃ a : Addr7, s.desc[fd.toNat]? = some ⟨true, a⟩
      · obtain ⟨a, ho⟩ := hopen
        simp [readStart, hb, openEntry_of_open ho, hunbound a ho]
      · simp [readStart, hb, openEntry_of_not_open (not_exists.mp hopen)]
    · simp [readStart, hb, openEntry_of_open ho, ha, hl, State.respondRead, readResult]
    · simp [readStart, hb, openEntry_of_open ho, ha, hl, State.callTransact, State.updClient, readSegs]

/-! ## The checks of ATOMIC_TRANSFER (R175) -/

/-- R175: some segment's address resolves to 0. -/
theorem anyUnbound_iff {segs : List Segment} {a : Addr7} :
    anyUnbound segs a = true ↔ ∃ seg ∈ segs, (if seg.ovr then seg.oaddr else a) = 0#7 := by
  simp only [anyUnbound, segAddr, List.any_eq_true, beq_iff_eq]

/-- The checks fail when the count is wrong or some segment is not legal. -/
theorem not_checks_iff {count : Nat} {segs : List Segment} : ¬ (count = segs.length ∧ segs.all segLegal = true) ↔
    (count ≠ segs.length ∨ ∃ seg ∈ segs, segLegal seg = false) := by
  simp [imp_iff_not_or]

section
variable {s : State} {fd : BitVec 8} {len : BitVec 16} {segs : List Segment} {a : Addr7}

/-- A failed check of the counts or the lengths is answered INVALID_ARGUMENT. -/
theorem atomicStart_of_not_checks (hb : s.busInit = true) (ho : s.desc[fd.toNat]? = some ⟨true, a⟩)
    (hc : ¬ (len.toNat = segs.length ∧ segs.all segLegal = true)) :
    atomicStart fd len segs s = s.raise .invalidArgument := by
  rw [← checks_iff, not_and_or, Bool.not_eq_true, Bool.not_eq_true] at hc
  rcases hc with hc | hc <;> simp [atomicStart, hb, openEntry_of_open ho, hc]

/-- Past those checks an unbound address is refused, an empty list answered at once, and every other list goes to
`Transact`. -/
theorem atomicStart_of_checks (hb : s.busInit = true) (ho : s.desc[fd.toNat]? = some ⟨true, a⟩)
    (hn : len.toNat = segs.length) (hl : segs.all segLegal = true) :
    atomicStart fd len segs s =
      if anyUnbound segs a then s.raise .invalidDescriptor
      else if segs = [] then s.respond .ok (.bytes []) else s.callTransact segs a := by
  obtain ⟨hcount, hcheck⟩ := checks_iff.mpr ⟨hn, hl⟩
  simp [atomicStart, hb, openEntry_of_open ho, hcount, hcheck, State.respondRead, readResult]

end

/-- Settles O37: the checks decide the first step; the response is O23's. -/
theorem atomicTransferChecksThenCallsTransact : Obligations.AtomicTransferChecksThenCallsTransact := by
  obtain ⟨hanswer, -⟩ := busCommandAnswersItsResult
  refine ⟨reservedBitsAreAnsweredIllegalCommand .atomicTransfer, fun s fd len segs st rx hp ht => ?_,
    fun s fd len segs hp => ?_⟩
  · obtain ⟨-, -, hatomic, -⟩ := hanswer s st rx hp ht
    exact hatomic fd len segs
  · obtain ⟨-, -, hstart⟩ := exec_frontEnd_of_phase_ne hp fd len
    rw [hstart]
    refine ⟨fun hb => ?_, fun hb hno => ?_, fun a hb ho => ⟨fun hbad => ?_, fun hn hl hunbound => ?_, fun hn hnil => ?_,
      fun hn ⟨hne, hl⟩ hbound => ?_⟩⟩
    · simp [atomicStart, hb]
    · simp [atomicStart, hb, openEntry_of_not_open hno]
    · exact congrArg _ (atomicStart_of_not_checks hb ho (not_checks_iff.mpr hbad))
    · rw [atomicStart_of_checks hb ho hn (List.all_eq_true.mpr hl), if_pos (anyUnbound_iff.mpr hunbound)]
    · subst hn hnil
      exact congrArg _ (atomicStart_of_checks hb ho rfl rfl)
    · have hnone : ¬ anyUnbound segs a = true := fun h => by
        obtain ⟨seg, hseg, hzero⟩ := anyUnbound_iff.mp h
        exact hbound seg hseg hzero
      rw [atomicStart_of_checks hb ho hn hl, if_neg hnone, if_neg hne]
      rfl

end Sys2Proof.Machine
end

section
/-! PROOFS. The PWM prescaler (42_pwm_register_protocol R201, R202): which frequencies are accepted, and that the prescaler is
the rounded quotient less one. -/

namespace Sys2Proof.Machine

/-- The quotient of R201: `osc / (4096 f)` rounded half up. -/
def roundedQuotient (osc f : Nat) : Nat := (osc + 2048 * f) / (4096 * f)

section
variable {osc f : Nat} (hf : f ≠ 0)
include hf

/-- The check of R201 is on the quotient: it is accepted from 4 to 256, and the prescaler is one less. -/
theorem computePrescaler_of_ne_zero : computePrescaler osc f =
    if 4 ≤ roundedQuotient osc f ∧ roundedQuotient osc f ≤ 256 then some (BitVec.ofNat 8 (roundedQuotient osc f - 1))
    else none := by
  rw [computePrescaler, if_neg hf, ← roundedQuotient]
  generalize roundedQuotient osc f = q
  have hrange : (q - 1 < Config.prescaleMin ∨ Config.prescaleMax < q - 1) ↔ (q - 1 < 3 ∨ 255 < q - 1) := Iff.rfl
  by_cases hq : 4 ≤ q ∧ q ≤ 256
  · rw [if_pos hq, if_neg (by omega), if_neg (by omega)]
  · rw [if_neg hq, ite_eq_left_iff]
    intro hzero
    exact if_pos (by omega)

/-- The rounded quotient without division: `p + 1` is within one half of `osc / (4096 f)`. -/
theorem roundedQuotient_eq_iff {p : Nat} : roundedQuotient osc f = p + 1 ↔
    4096 * f * (2 * p + 1) ≤ 2 * osc ∧ 2 * osc < 4096 * f * (2 * p + 3) := by
  have hlow : 2 * ((p + 1) * (4096 * f)) = 4096 * f * (2 * p + 1) + 4096 * f := by ring
  have hhigh : 4096 * f * (2 * p + 3) = 4096 * f * (2 * p + 1) + 2 * (4096 * f) := by ring
  rw [roundedQuotient, Nat.div_eq_iff (by omega)]
  omega

end

/-- Which frequencies are accepted, without division. -/
theorem computePrescaler_isSome_iff {osc f : Nat} : (computePrescaler osc f).isSome = true ↔
    f ≠ 0 ∧ 4 * (4096 * f) ≤ osc + 2048 * f ∧ osc + 2048 * f < 257 * (4096 * f) := by
  obtain rfl | hf := eq_or_ne f 0
  · simp [computePrescaler]
  · have hpos : 0 < 4096 * f := by omega
    rw [computePrescaler_of_ne_zero hf, Option.isSome_ite, ← Nat.le_div_iff_mul_le hpos, ← Nat.div_lt_iff_lt_mul hpos,
      Nat.lt_succ_iff]
    exact (and_iff_right hf).symm

/-- Settles O38: at 25 MHz the bounds on the quotient are bounds on the frequency. -/
theorem prescalerAcceptsExactly24To1743Hz : Obligations.PrescalerAcceptsExactly24To1743Hz := by
  refine ⟨fun f => ?_, by decide, by decide, by decide, by decide⟩
  rw [computePrescaler_isSome_iff]
  omega

/-- Settles O39: the accepted byte is the quotient less one, which as a quotient of at most 256 does not wrap. -/
theorem prescalerIsTheRoundedQuotient : Obligations.PrescalerIsTheRoundedQuotient := by
  intro osc f p
  obtain rfl | hf := eq_or_ne f 0
  · simp [computePrescaler]
  · have hp := p.isLt
    rw [computePrescaler_of_ne_zero hf, ← roundedQuotient_eq_iff hf, Option.ite_none_right_eq_some, Option.some_inj,
      ← BitVec.toNat_inj, BitVec.toNat_ofNat]
    omega

end Sys2Proof.Machine
end

section
/-! PROOFS. The on and off fields of a channel: the duty they stand for and the stagger of the on edges
(42_pwm_register_protocol R203, R207, R208), and their bytes on the wire (R204 to R206). -/

namespace Sys2Proof.Machine

/-! ## The duty of a channel's fields (R207) -/

section
variable {f : LedFields}

/-- A set full-off flag stands for 0, whatever the other fields. -/
theorem dutyOf_of_fullOff (hoff : f.fullOff = true) : dutyOf f = 0 := if_pos hoff

/-- A set full-on flag stands for 4096 where full-off is clear. -/
theorem dutyOf_of_fullOn (hoff : f.fullOff = false) (hon : f.fullOn = true) : dutyOf f = 4096 := by
  simp [dutyOf, hoff, hon, Config.pwmMax]

/-- Without a full flag the duty is how far the off edge is behind the on edge. -/
theorem dutyOf_of_counts (hoff : f.fullOff = false) (hon : f.fullOn = false) :
    dutyOf f = (f.off.toNat + 4096 - f.on.toNat) % 4096 := by
  simp [dutyOf, hoff, hon, Config.pwmMax]

end

/-! ## The fields of a duty (R203, R208) -/

/-- A duty from 4096 up is fully on. -/
theorem encodeLed_of_full (c : Nat) {d : Nat} (hd : 4096 ≤ d) :
    encodeLed c d = { on := 0#12, fullOn := true, off := 0#12, fullOff := false } := if_pos hd

/-- The duty 0 is fully off. -/
theorem encodeLed_zero (c : Nat) : encodeLed c 0 = { on := 0#12, fullOn := false, off := 0#12, fullOff := true } := rfl

section
variable {c d : Nat} (hc : c < 16) (h0 : 0 < d) (hd : d < 4096)
include hc h0 hd

/-- A duty strictly between off and full has no flag, the channel's on edge, and the off edge `d` counts later. -/
theorem encodeLed_of_between : encodeLed c d =
    { on := BitVec.ofNat 12 (c * 256), fullOn := false, off := BitVec.ofNat 12 ((c * 256 + d) % 4096), fullOff := false } := by
  have hedge : onEdge c = c * 256 := Nat.mod_eq_of_lt (show c * 256 < 4096 by omega)
  have hfull : ¬ Config.pwmMax ≤ d := Nat.not_le.mpr hd
  rw [encodeLed, hedge, if_neg hfull, if_neg h0.ne']
  rfl

/-- The on edge of a channel is at its index times 256. -/
theorem encodeLed_on_toNat : (encodeLed c d).on.toNat = c * 256 := by
  rw [encodeLed_of_between hc h0 hd]
  exact Nat.mod_eq_of_lt (by omega)

/-- The off edge is the duty after the on edge, around the period. -/
theorem encodeLed_off_toNat : (encodeLed c d).off.toNat = (c * 256 + d) % 4096 := by
  rw [encodeLed_of_between hc h0 hd]
  exact Nat.mod_mod _ _

end

/-- The fields of a duty stand for it, up to fully on. -/
theorem dutyOf_encodeLed {c : Nat} (hc : c < 16) (d : Nat) : dutyOf (encodeLed c d) = min d 4096 := by
  obtain rfl | h0 := Nat.eq_zero_or_pos d
  · rfl
  obtain hd | hd := Nat.lt_or_ge d 4096
  · have hfields := encodeLed_of_between hc h0 hd
    rw [dutyOf_of_counts (by rw [hfields]) (by rw [hfields]), encodeLed_on_toNat hc h0 hd, encodeLed_off_toNat hc h0 hd]
    omega
  · rw [encodeLed_of_full c hd, dutyOf_of_fullOn rfl rfl, Nat.min_eq_right hd]

/-- Settles O40: the three cases of the duty law, and the duty of a duty's fields. -/
theorem dutyOfEncodeLedIsTheDuty : Obligations.DutyOfEncodeLedIsTheDuty := by
  refine ⟨fun _ => dutyOf_of_fullOff, fun _ => dutyOf_of_fullOn, fun f hoff hon => ?_, fun _ d hc => dutyOf_encodeLed hc d⟩
  have hlt := f.on.isLt
  rw [dutyOf_of_counts hoff hon]
  omega

/-- Settles O41: the three cases of a duty's fields; the on edge gives back the channel, and the off edge is less than a
period behind it. -/
theorem onEdgesAreStaggeredBy256 : Obligations.OnEdgesAreStaggeredBy256 := by
  refine ⟨fun c _ => encodeLed_of_full c, encodeLed_zero, fun c d hc h0 hd => ?_, fun c c' d d' hc hc' hne h0 hd h0' hd' => ?_⟩
  · have hfields := encodeLed_of_between hc h0 hd
    have hon := encodeLed_on_toNat hc h0 hd
    have hoff := encodeLed_off_toNat hc h0 hd
    refine ⟨hon, hoff, by rw [hfields], by rw [hfields], ?_, ?_⟩
    · rw [← BitVec.toNat_ne_iff_ne, hon, hoff]
      omega
    · rw [hon, hoff]
      omega
  · rw [← BitVec.toNat_ne_iff_ne, encodeLed_on_toNat hc h0 hd, encodeLed_on_toNat hc' h0' hd']
    omega

/-! ## The bytes of a count and a flag (R204, R206) -/

/-- The count read from two bytes: the low four bits of the high byte above the low byte. -/
theorem count_toNat (high low : Byte) : (high.extractLsb' 0 4 ++ low).toNat = high.toNat % 16 * 256 + low.toNat := by
  rw [BitVec.toNat_append, ← Nat.shiftLeft_add_eq_or_of_lt low.isLt, Nat.shiftLeft_eq, BitVec.extractLsb'_toNat]
  rfl

section
variable (n : BitVec 12)

/-- The low byte of a count. -/
theorem lowByte_toNat : (n.extractLsb' 0 8).toNat = n.toNat % 256 := BitVec.extractLsb'_toNat 0 8 n

/-- The count's share of the high byte. -/
theorem highCount_toNat : ((n.extractLsb' 8 4).setWidth 8).toNat = n.toNat / 256 := by
  have hlt := n.isLt
  rw [BitVec.toNat_setWidth, BitVec.extractLsb'_toNat, Nat.shiftRight_eq_div_pow]
  omega

variable {k : Nat} (hlo : 4 ≤ k) (hhi : k ≤ 7) (full : Bool)
include hlo hhi

/-- The high byte, its flag above the count: the two do not overlap, so their `|||` is their sum. -/
theorem highByte_toNat : (highByte k n full).toNat = n.toNat / 256 + (if full then 2 ^ k else 0) := by
  rw [highByte, BitVec.toNat_or, highCount_toNat]
  cases full with
  | false => exact Nat.or_zero _
  | true =>
    have hcount : n.toNat / 256 < 2 ^ k :=
      calc n.toNat / 256
        _ < 2 ^ 4 := Nat.div_lt_of_lt_mul n.isLt
        _ ≤ 2 ^ k := Nat.pow_le_pow_right (by decide) hlo
    have hflag : 2 ^ k < 2 ^ 8 := Nat.pow_lt_pow_right (by decide) (by omega)
    have hor : 2 ^ k + n.toNat / 256 = 2 ^ k ||| n.toNat / 256 := by
      simpa using Nat.two_pow_add_eq_or_of_lt hcount 1
    rw [if_pos rfl, if_pos rfl, BitVec.toNat_ofNat, Nat.mod_eq_of_lt hflag, Nat.or_comm, ← hor, Nat.add_comm]

/-- The flag is above bit 3, so the low four bits of the high byte are the count's. -/
theorem highByte_toNat_mod_16 : (highByte k n full).toNat % 16 = n.toNat / 256 := by
  have hdvd : 16 ∣ if full then 2 ^ k else 0 := by
    split
    · exact Nat.pow_dvd_pow 2 hlo
    · exact Nat.dvd_zero _
  have hlt := n.isLt
  rw [highByte_toNat n hlo hhi]
  omega

/-- The flag's bit of the high byte is the flag: the count's four bits end below it. -/
theorem highByte_getLsbD_flag : (highByte k n full).getLsbD k = full := by
  have hcount : (n.extractLsb' 8 4).getLsbD k = false := BitVec.getLsbD_of_ge _ _ hlo
  have hflag : (BitVec.ofNat 8 (2 ^ k)).getLsbD k = true := by
    rw [BitVec.getLsbD_ofNat, Nat.testBit_two_pow_self, decide_eq_true (by omega), Bool.true_and]
  rw [highByte, BitVec.getLsbD_or, BitVec.getLsbD_setWidth, hcount, Bool.and_false, Bool.false_or]
  cases full with
  | false => exact BitVec.getLsbD_zero
  | true => exact hflag

/-- A count is read back from its two bytes. -/
theorem count_highByte_lowByte : (highByte k n full).extractLsb' 0 4 ++ n.extractLsb' 0 8 = n := by
  rw [← BitVec.toNat_inj, count_toNat, highByte_toNat_mod_16 n hlo hhi, lowByte_toNat]
  exact Nat.div_add_mod' _ _

/-- Decoding the bytes of a group gives its fields back (R206). -/
theorem decodeLed_ledBytes (f : LedFields) : decodeLed k (f.on.extractLsb' 0 8) (highByte k f.on f.fullOn)
    (f.off.extractLsb' 0 8) (highByte k f.off f.fullOff) = f := by
  simp only [decodeLed, count_highByte_lowByte _ hlo hhi, highByte_getLsbD_flag _ hlo hhi]

end

/-- With the flag at bit 4 a high byte has bits 7:5 clear (R111). -/
theorem highByte_lt_32 (n : BitVec 12) (full : Bool) : (highByte 4 n full).toNat < 32 := by
  have hlt := n.isLt
  rw [highByte_toNat n (by decide) (by decide)]
  split <;> omega

/-- Settles O42: the bytes of a group one by one, the fields they decode to, and the fields of any four bytes. -/
theorem decodeLedInvertsLedBytes : Obligations.DecodeLedInvertsLedBytes := by
  intro k hlo hhi
  refine ⟨fun f => ?_, fun b0 b1 b2 b3 => ⟨count_toNat b1 b0, rfl, count_toNat b3 b2, rfl⟩⟩
  exact ⟨_, _, _, _, rfl, lowByte_toNat f.on, highByte_toNat f.on hlo hhi f.fullOn, lowByte_toNat f.off,
    highByte_toNat f.off hlo hhi f.fullOff, decodeLed_ledBytes hlo hhi f⟩

/-- Settles O43: the frame's bytes decode to the fields of the duty, and those stand for it. -/
theorem ledFrameCarriesTheDuty : Obligations.LedFrameCarriesTheDuty := by
  intro c d hc
  refine ⟨_, _, _, _, rfl, highByte_lt_32 _ _, highByte_lt_32 _ _, ?_⟩
  calc dutyOf _
    _ = dutyOf (encodeLed c d) := congrArg dutyOf (decodeLed_ledBytes (by decide) (by decide) _)
    _ = min d 4096 := dutyOf_encodeLed hc d

end Sys2Proof.Machine
end

section
/-! PROOFS. The mode registers' bytes: packing and unpacking are each other's inverse, but for MODE2's reserved bits
(42_pwm_register_protocol R210 to R213). -/

namespace Sys2Proof.Machine

/-- One bit of a byte or word is the field of width one there; for every width, as `Word.extractLsb'_one` is for 32. -/
theorem ofBool_getLsbD {w : Nat} (b : BitVec w) (k : Nat) : BitVec.ofBool (b.getLsbD k) = b.extractLsb' k 1 := by
  ext i hi
  obtain rfl : i = 0 := by omega
  simp

/-! ## MODE1 (R210, R211) -/

/-- The fields of MODE1, appended bit by bit. -/
theorem packMode1_eq_concat (m : Mode1) : packMode1 m =
    (((((((BitVec.ofBool m.restart).concat m.extclk).concat m.ai).concat m.sleep).concat m.sub1).concat m.sub2).concat
      m.sub3).concat m.allcall := rfl

/-- The fields of MODE1 are read back from their byte. -/
theorem unpackMode1_packMode1 (m : Mode1) : unpackMode1 (packMode1 m) = m := by
  simp [unpackMode1, packMode1_eq_concat, BitVec.getElem_concat]

/-- The byte is its eight bits put together again. -/
theorem packMode1_unpackMode1 (b : Byte) : packMode1 (unpackMode1 b) = b := by
  simp only [packMode1, unpackMode1, ofBool_getLsbD]
  iterate 7 rw [BitVec.extractLsb'_append_extractLsb'_eq_extractLsb']
  · exact BitVec.extractLsb'_eq_self
  all_goals rfl

/-! ## MODE2 (R212, R213) -/

/-- Above OUTNE the byte of MODE2 holds the flags, appended bit by bit. -/
theorem packMode2_getLsbD_add_two (m : Mode2) (k : Nat) : (packMode2 m).getLsbD (k + 2) =
    ((((0#3).concat m.invrt).concat m.och).concat m.outdrv).getLsbD k := by
  refine (BitVec.getLsbD_append (y := m.outne)).trans ?_
  rw [if_neg (by omega)]
  rfl

/-- The fields of MODE2 are read back from their byte. -/
theorem unpackMode2_packMode2 (m : Mode2) : unpackMode2 (packMode2 m) = m := by
  have houtne : (packMode2 m).extractLsb' 0 2 = m.outne := BitVec.extractLsb'_append_eq_right
  simp only [unpackMode2, houtne, packMode2_getLsbD_add_two m 0, packMode2_getLsbD_add_two m 1,
    packMode2_getLsbD_add_two m 2]
  simp [BitVec.getElem_concat]

/-- Unpacking ignores bits 7:5. -/
theorem unpackMode2_and (b : Byte) : unpackMode2 (b &&& 0x1F#8) = unpackMode2 b := by
  have houtne : (b &&& 0x1F#8).extractLsb' 0 2 = b.extractLsb' 0 2 := by
    rw [BitVec.extractLsb'_and]
    exact BitVec.and_allOnes
  simp [unpackMode2, houtne]

/-- A byte with bits 7:5 clear is its fields put together again. -/
theorem packMode2_unpackMode2_of_reserved {b : Byte} (h : b.extractLsb' 5 3 = 0#3) : packMode2 (unpackMode2 b) = b := by
  simp only [packMode2, unpackMode2, ofBool_getLsbD, ← h]
  iterate 4 rw [BitVec.extractLsb'_append_extractLsb'_eq_extractLsb']
  · exact BitVec.extractLsb'_eq_self
  all_goals rfl

/-- Packing what was unpacked clears bits 7:5 and keeps the rest. -/
theorem packMode2_unpackMode2 (b : Byte) : packMode2 (unpackMode2 b) = b &&& 0x1F#8 := by
  have hreserved : (b &&& 0x1F#8).extractLsb' 5 3 = 0#3 := by
    rw [BitVec.extractLsb'_and]
    exact BitVec.and_zero
  rw [← unpackMode2_and, packMode2_unpackMode2_of_reserved hreserved]

/-- Settles O44: the bits are those the definitions read, and the round trips are the lemmas above. -/
theorem modeBytesRoundTrip : Obligations.ModeBytesRoundTrip := by
  refine ⟨fun _ => rfl, fun b => ⟨rfl, rfl, rfl, ?_⟩, packMode1_unpackMode1, unpackMode1_packMode1, packMode2_unpackMode2,
    unpackMode2_packMode2⟩
  exact BitVec.extractLsb'_toNat 0 2 b

end Sys2Proof.Machine
end

section
/-! PROOFS. PWM_INIT: its first step, and how its sequence goes on from a delivered result (43_pwm_cache_flush R240 to R248). -/

namespace Sys2Proof.Machine

/-! ## The first step (R240) -/

/-- PWM_INIT with no sequence running and no response due takes its first step. -/
theorem exec_pwmInit_of_start {s : State} (hs : s.phase ≠ .sequence) (hr : ∀ r, s.phase ≠ .respond r) (freq : BitVec 16)
    (addr : Addr7) : exec (.pwmInit freq addr) s = .next (pwmInitStart freq addr s) := by
  rw [execPwmInit_eq_respondOr hs, State.respondOr_of_phase_ne hr]

/-- The frequencies the oscillator's prescaler cannot give (R201, R202). -/
theorem computePrescaler_oscHz_eq_none_iff {f : Nat} : computePrescaler Config.oscHz f = none ↔ f < 24 ∨ 1743 < f := by
  obtain ⟨haccepts, -⟩ := prescalerAcceptsExactly24To1743Hz
  rw [← Option.not_isSome_iff_eq_none, Config.oscHz, haccepts]
  omega

section
variable {s : State} {freq : BitVec 16} {addr : Addr7} (hu : s.pwmState = .uninit) (hb : s.busInit = true)
include hu hb

/-- Past the checks of state an operand out of range is refused. -/
theorem pwmInitStart_of_bad_operand (h : freq.toNat < 24 ∨ 1743 < freq.toNat ∨ addr = 0#7) :
    pwmInitStart freq addr s = s.raise .invalidArgument := by
  cases hp : computePrescaler Config.oscHz freq.toNat with
  | none => simp [pwmInitStart, hu, hb, hp]
  | some p =>
    have haddr : addr = 0#7 := by
      by_contra hne
      have hnone : computePrescaler Config.oscHz freq.toNat = none :=
        computePrescaler_oscHz_eq_none_iff.mpr (h.imp_right (Or.resolve_right · hne))
      rw [hp] at hnone
      cases hnone
    simp [pwmInitStart, hu, hb, hp, haddr]

/-- Past every check PWM_INIT latches and starts the sequence. -/
theorem pwmInitStart_of_checks {p : BitVec 8} (ha : addr ≠ 0#7) (hp : computePrescaler Config.oscHz freq.toNat = some p) :
    pwmInitStart freq addr s =
      ({ s with pwmState := .initializing, pwmAddr := addr, pwmPrescale := p }.beginInit 1).setPhase .sequence := by
  simp [pwmInitStart, hu, hb, hp, ha]

end

/-- Settles O45: the checks in their order decide the first step. -/
theorem pwmInitChecksThenStartsTheSequence : Obligations.PwmInitChecksThenStartsTheSequence := by
  refine ⟨reservedBitsAreAnsweredIllegalCommand .pwmInit, fun s freq addr hs hr => ?_⟩
  rw [exec_pwmInit_of_start hs hr]
  refine ⟨fun hu => ?_, fun hu hb => ?_, fun hu hb hbad => ?_, fun p hu hb ha hp => ?_⟩
  · simp [pwmInitStart, hu]
  · simp [pwmInitStart, hu, hb]
  · exact congrArg _ (pwmInitStart_of_bad_operand hu hb hbad)
  · exact congrArg _ (pwmInitStart_of_checks hu hb ha hp)

/-! ## The sequence (R241 to R248) -/

section
variable {s : State}

/-- After the presence step the reset write starts at once (R242). -/
theorem initAdvance_of_presence (hk : s.initStep = 1) : initAdvance s = s.beginInit 2 := if_pos hk

/-- After a write step the delay waits for the lock (R151, R241; log entry 14). -/
theorem initAdvance_of_held (hl : s.lockOwner ≠ none) (hk : s.initStep ≠ 1) : initAdvance s = s := by
  obtain ⟨r, hr⟩ := Option.ne_none_iff_exists'.mp hl
  simp [initAdvance, hk, hr]

/-- After each write step but the last comes the delay, and the next step starts (R243 to R246). -/
theorem initAdvance_of_write {k : Nat} (hl : s.lockOwner = none) (hk : s.initStep = k) (h1 : k ≠ 1) (h6 : k < 6) :
    initAdvance s = (s.emit (.delay Config.tSettle)).beginInit (k + 1) := by
  subst hk
  simp [initAdvance, h1, h6, hl]

/-- After the last write step comes the delay, and only the completion is left (R247). -/
theorem initAdvance_of_lastWrite (hl : s.lockOwner = none) (hk : s.initStep = 6) :
    initAdvance s = { s.emit (.delay Config.tSettle) with initStep := 7, initTx := .idle } := by
  simp [initAdvance, hk, hl]

end

/-- Settles O47: a good result advances the sequence, and step 7 completes it. -/
theorem pwmInitSequenceGoesOn : Obligations.PwmInitSequenceGoesOn := by
  intro s freq addr hp
  rw [exec_pwmInit_of_sequence hp]
  refine ⟨fun rx ht => ?_, fun ht hk => ?_⟩
  · have hstep : initSequenceStep s = initAdvance s := by simp [initSequenceStep, ht]
    rw [hstep]
    refine ⟨fun hk => congrArg _ (initAdvance_of_presence hk), fun hl => ⟨fun hk => ?_, fun hk => ?_, fun hk => ?_,
      fun hk => ?_, fun hk => congrArg _ (initAdvance_of_lastWrite hl hk)⟩,
      fun hl hk => congrArg _ (initAdvance_of_held hl hk)⟩
    all_goals exact congrArg _ (initAdvance_of_write hl hk (by decide) (by decide))
  · have hstep : initSequenceStep s = initComplete s := by simp [initSequenceStep, ht, hk]
    rw [hstep]
    rfl

/-- Settles O48: a result other than OK is the failure, and its response is R9's. -/
theorem pwmInitFailureIsFinal : Obligations.PwmInitFailureIsFinal := by
  refine ⟨fun _ _ => respondsNext_of_respondsLater rfl, fun s freq addr st rx hp ht hst => ?_⟩
  have hstep : initSequenceStep s = initFail s st := by simp [initSequenceStep, ht, hst]
  rw [exec_pwmInit_of_sequence hp, hstep]
  rfl

end Sys2Proof.Machine
end

section
/-! PROOFS. SET_DUTY and FLUSH_TRIGGER, their frame, and the refusal of every PWM command before READY (43_pwm_cache_flush R250
to R252, 44_pwm_channel_handle R280 to R284, 70_reset_and_hazards R345). -/

namespace Sys2Proof.Machine

/-! ## SET_DUTY and FLUSH_TRIGGER (R250 to R252) -/

/-- SET_DUTY that is not about to post takes its first step. -/
theorem exec_setDuty_of_phase_ne {s : State} (hp : s.phase ≠ .post) (ch : BitVec 8) (val : BitVec 16) :
    exec (.setDuty ch val) s = .next (setDutyStart ch val s) := by
  change execSetDuty ch val s = _
  unfold execSetDuty
  split
  case h_1 hpost => exact absurd hpost hp
  case h_2 => rfl

/-- FLUSH_TRIGGER with no response due takes its first step. -/
theorem exec_flushTrigger_of_phase_ne {s : State} (hp : ∀ r, s.phase ≠ .respond r) :
    exec .flushTrigger s = .next (flushTriggerStart s) := congrArg _ (State.respondOr_of_phase_ne hp _)

/-- Before READY the first step of SET_DUTY refuses. -/
theorem setDutyStart_of_not_ready {s : State} (hr : s.pwmState ≠ .ready) (ch : BitVec 8) (val : BitVec 16) :
    setDutyStart ch val s = s.raise .notInitialized := if_pos hr

/-- Before READY the first step of FLUSH_TRIGGER refuses. -/
theorem flushTriggerStart_of_not_ready {s : State} (hr : s.pwmState ≠ .ready) :
    flushTriggerStart s = s.raise .notInitialized := if_pos hr

/-- A field below 16 names its channel. -/
theorem channelOf_of_lt {ch : BitVec 8} (h : ch.toNat < 16) : channelOf ch = some ⟨ch.toNat, h⟩ := dif_pos h

/-- A field of 16 or more names none. -/
theorem channelOf_of_le {ch : BitVec 8} (h : 16 ≤ ch.toNat) : channelOf ch = none := dif_neg (Nat.not_lt.mpr h)

/-- Settles O49: the state and the channel decide the first steps; the second are the post of SET_DUTY and R9's response. -/
theorem setDutyStoresThenPostsAndTriggerPosts : Obligations.SetDutyStoresThenPostsAndTriggerPosts := by
  refine ⟨reservedBitsAreAnsweredIllegalCommand .flushTrigger, respondsNext_of_respondsLater rfl,
    fun s ch val hp hr => ?_, fun s hp hr => ?_, fun s ch val hch hp hr => ?_, fun s ch val hp => ?_,
    fun s ch val hch hp hr => ?_, fun s hp hr => ?_⟩
  · rw [exec_setDuty_of_phase_ne hp, setDutyStart_of_not_ready hr]
  · rw [exec_flushTrigger_of_phase_ne hp, flushTriggerStart_of_not_ready hr]
  · rw [exec_setDuty_of_phase_ne hp, setDutyStart, if_neg (not_not.mpr hr), channelOf_of_lt hch]
    rfl
  · simp only [exec, execSetDuty, hp, State.post]
  · rw [exec_setDuty_of_phase_ne hp, setDutyStart, if_neg (not_not.mpr hr), channelOf_of_le hch]
  · rw [exec_flushTrigger_of_phase_ne hp, flushTriggerStart, if_neg (not_not.mpr hr)]
    rfl

/-- Settles O59: each case of a command's step names what it writes, and a store keeps the other channels. -/
theorem dutyCommandsWriteTheirRegistersOnly : Obligations.DutyCommandsWriteTheirRegistersOnly := by
  refine ⟨fun s t ch val h => ?_, fun s t h => ?_⟩
  · rcases execSetDuty_cases h with ⟨-, rfl⟩ | ⟨-, st, rfl, -⟩ | ⟨-, -, c, hc, rfl⟩
    · exact ⟨rfl, sameOtherClients_of_modify _ rfl, fun _ _ => rfl, fun _ _ => rfl⟩
    · exact ⟨rfl, sameOtherClients_of_modify _ rfl, fun _ _ => rfl, fun _ _ => rfl⟩
    · refine ⟨rfl, sameOtherClients_of_modify _ rfl, fun k hk => ?_, fun k hk => ?_⟩
      · exact Vector.getElem_set_ne c.isLt k.isLt (fun hck => hk (hck.symm.trans hc))
      · have hkc : k ≠ c.val := hc ▸ hk
        rw [State.setPhase_dirty, State.storeDuty_dirty_getLsbD, decide_eq_false hkc, Bool.or_false]
  · rcases execFlushTrigger_cases h with ⟨r, -, rfl⟩ | ⟨-, rfl⟩ | ⟨-, -, rfl⟩
    · exact ⟨rfl, sameOtherClients_of_modify _ rfl⟩
    · exact ⟨rfl, sameOtherClients_of_modify _ rfl⟩
    · exact ⟨rfl, sameOtherClients_of_modify _ rfl⟩

/-! ## Before READY (R345) -/

/-- Settles O53: every command that needs READY checks it first. -/
theorem pwmCommandsBeforeReadyAreRefused : Obligations.PwmCommandsBeforeReadyAreRefused := by
  intro s i hi hr hpost hresp
  cases i with
  | setDuty ch val => rw [exec_setDuty_of_phase_ne hpost, setDutyStart_of_not_ready hr]
  | getDuty ch =>
    have hstart : exec (.getDuty ch) s = .next (getDutyStart ch s) :=
      congrArg _ (State.respondOr_of_phase_ne (hresp rfl) _)
    rw [hstart, getDutyStart, if_pos hr]
  | flushTrigger => rw [exec_flushTrigger_of_phase_ne (hresp rfl), flushTriggerStart_of_not_ready hr]
  | getPeriod | getPeriodMin | getPeriodMax | setPeriod => exact congrArg _ (if_pos hr)
  | busInit | execute | pwmInit | openDesc | closeDesc | readDesc | writeDesc | bindAddress | atomicTransfer =>
    simp [Instr.needsReady] at hi

end Sys2Proof.Machine
end

section
/-! PROOFS. The flush worker: the wake, the capture and the pass (43_pwm_cache_flush R260 to R264, 70_reset_and_hazards R350). -/

namespace Sys2Proof.Machine

/-! ## The lowest marked channel (R261, R262) -/

/-- The first channel from `c` on that is marked, or 16 where none is, is the one `lowestFrom` names. -/
theorem lowestFrom_eq {mask : BitVec 16} {c n : Nat} (hn : n = 16 ∨ n < 16 ∧ mask.getLsbD n = true) (hc : c ≤ n)
    (hbelow : ∀ k, c ≤ k → k < n → mask.getLsbD k = false) : lowestFrom mask c = n := by
  rcases lowestFrom_spec mask c with ⟨hnone, hclear⟩ | ⟨hlt, hcl, hset, hclear⟩
  · rw [hnone]
    rcases hn with rfl | ⟨hn, hbit⟩
    · rfl
    · rw [hclear n hc hn] at hbit
      cases hbit
  · rcases Nat.lt_trichotomy (lowestFrom mask c) n with hlow | heq | hhigh
    · rw [hbelow _ hcl hlow] at hset
      cases hset
    · exact heq
    · rcases hn with rfl | ⟨-, hbit⟩
      · omega
      · rw [hclear n hc hhigh] at hbit
        cases hbit

/-! ## The wake and the capture (R260, R261) -/

section
variable {s : State}

/-- An idle worker takes a posted wake. -/
theorem workerStep_of_wake (hp : s.wk.phase = .idle) (hw : 0 < s.wake) :
    workerStep s = { s with wake := s.wake - 1, wk := { s.wk with phase := .capture } } := by
  simp only [workerStep, hp, workerWake, if_pos hw]

/-- A capture of an empty mask ends the work. -/
theorem workerStep_of_capture_empty (hp : s.wk.phase = .capture) (hd : s.dirty = 0#16) :
    workerStep s = { s with wk := { s.wk with mask := 0#16, phase := .idle } } := by
  simp only [workerStep, hp, workerCapture, Worker.captured, hd, if_true]

/-- A capture starts a pass at the lowest marked channel. -/
theorem workerStep_of_capture {c : Nat} (hp : s.wk.phase = .capture) (hc : s.dirty.getLsbD c = true)
    (hbelow : ∀ k < c, s.dirty.getLsbD k = false) :
    workerStep s = { s with dirty := 0#16, wk := { s.wk with mask := s.dirty, ch := c, phase := .flushing } } := by
  have hlt : c < 16 := BitVec.lt_of_getLsbD hc
  have hne : s.dirty ≠ 0#16 := by
    intro hz
    simp [hz] at hc
  have hlow : lowestFrom s.dirty 0 = c := lowestFrom_eq (.inr ⟨hlt, hc⟩) (Nat.zero_le c) fun k _ hk => hbelow k hk
  simp only [workerStep, hp, workerCapture, Worker.captured, if_neg hne, hlow]

end

/-- The worker is idle with a wake posted. -/
def State.wakePosted (s : State) : Prop := s.wk.phase = .idle ∧ 0 < s.wake

section
variable {x : Execution} {n : Nat}

/-- A posted wake stays posted until the worker moves. -/
theorem Execution.wakePosted_succ (h : (x.state n).wakePosted) (hm : x.move n ≠ .worker) : (x.state (n + 1)).wakePosted := by
  obtain ⟨hp, hw⟩ := h
  obtain ⟨e, he⟩ := x.steps n
  obtain ⟨hphase, hwake⟩ := runMove_worker_kept he hm
  exact ⟨hphase.trans hp, Nat.lt_of_lt_of_le hw hwake⟩

/-- The worker's move takes a posted wake. -/
theorem Execution.capture_of_wakePosted (h : (x.state n).wakePosted) (hm : x.move n = .worker) :
    (x.state (n + 1)).wk.phase = .capture := by
  obtain ⟨hp, hw⟩ := h
  obtain ⟨e, he⟩ := x.steps n
  rw [hm] at he
  have hstep := workerStep_of_wake (s := { x.state n with env := e }) hp hw
  rw [← Host.Outcome.next.inj he, hstep]

/-- On an execution weakly fair to it, an idle worker with a wake posted moves (R350). -/
theorem Execution.worker_moves_of_wakePosted (hf : x.weaklyFair .worker) (h : (x.state n).wakePosted) :
    ∃ m, n ≤ m ∧ (x.state m).wakePosted ∧ x.move m = .worker := by
  by_contra hno
  have hkept : ∀ m, n ≤ m → (x.state m).wakePosted := by
    intro m hm
    induction m, hm using Nat.le_induction with
    | base => exact h
    | succ m hm ih => exact Execution.wakePosted_succ ih fun hmove => hno ⟨m, hm, ih, hmove⟩
  obtain ⟨m, hm, hdis | hmove⟩ := hf n
  · obtain ⟨hp, hw⟩ := hkept m hm
    have hen : (x.state m).enabled .worker = true := by simp [State.enabled, State.workerHasStep, hp, hw]
    rw [hen] at hdis
    cases hdis
  · exact hno ⟨m, hm, hkept m hm, hmove⟩

end

/-- Settles O54: fairness makes the worker take its step, and each clause of the step is an equation above. -/
theorem workerWakesAndCaptures : Obligations.WorkerWakesAndCaptures := by
  refine ⟨fun x n hf hp hw => ?_, fun s => ⟨workerStep_of_wake, fun hp hw => ?_, workerStep_of_capture_empty,
    fun c => workerStep_of_capture⟩⟩
  · obtain ⟨m, hm, hposted, hmove⟩ := Execution.worker_moves_of_wakePosted hf ⟨hp, hw⟩
    exact ⟨m + 1, by omega, Execution.capture_of_wakePosted hposted hmove⟩
  · exact workerStep_disabled (by simp [State.enabled, State.workerHasStep, hp, hw])

/-! ## The pass (R262 to R264) -/

/-- The duty of a channel is its cache entry. -/
theorem State.duty_eq (s : State) (c : Fin 16) : s.duty c.val = s.cache[c] := by
  simp [State.duty]

/-- Settles O55: the worker's registers decide its step, and the next channel is `lowestFrom`'s. -/
theorem workerWritesItsPassInAscendingOrder : Obligations.WorkerWritesItsPassInAscendingOrder := by
  intro s hp
  refine ⟨fun c hc ht => ?_, fun st rx next hlt ht hnext hgt hbelow => ?_, fun hc => ?_⟩
  · have hstep : workerStep s = workerFrame s := by simp only [workerStep, hp, hc, c.isLt, if_true, workerWrite, ht]
    rw [hstep, workerFrame, hc, State.duty_eq]
    rfl
  · have hstep : workerStep s = workerNext s st := by simp only [workerStep, hp, hlt, if_true, workerWrite, ht]
    have hlow : lowestFrom s.wk.mask (s.wk.ch + 1) = next := lowestFrom_eq hnext hgt hbelow
    rw [hstep, workerNext, hlow]
    by_cases hst : st = .ok
    · simp only [if_pos hst]
    · simp only [if_neg hst, State.logFault]
  · simp only [workerStep, hp, hc, Nat.lt_irrefl, if_false, workerEndPass]

end Sys2Proof.Machine
end

section
/-! PROOFS. The channel handle: GET_DUTY, the period queries, SET_PERIOD, and their frame (44_pwm_channel_handle R280 to R285). -/

namespace Sys2Proof.Machine

/-! ## The frame (R280 to R285, R301) -/

/-- Settles O57: each case of a query's step is a response, or makes one due, and both write the current client's record. -/
theorem channelQueriesChangeNothingElse : Obligations.ChannelQueriesChangeNothingElse := by
  intro s t i hi h
  rcases execChannelQuery_cases hi h with ⟨r, -, -, rfl⟩ | ⟨st, res, rfl, -⟩ | ⟨res, -, -, rfl⟩
  · exact ⟨rfl, sameOtherClients_of_modify _ rfl⟩
  · exact ⟨rfl, sameOtherClients_of_modify _ rfl⟩
  · exact ⟨rfl, sameOtherClients_of_modify _ rfl⟩

/-! ## GET_DUTY (R280) -/

/-- GET_DUTY with no response due takes its first step. -/
theorem exec_getDuty_of_phase_ne {s : State} (hp : ∀ r, s.phase ≠ .respond r) (ch : BitVec 8) :
    exec (.getDuty ch) s = .next (getDutyStart ch s) := congrArg _ (State.respondOr_of_phase_ne hp _)

/-- Before READY the first step of GET_DUTY refuses. -/
theorem getDutyStart_of_not_ready {s : State} (hr : s.pwmState ≠ .ready) (ch : BitVec 8) :
    getDutyStart ch s = s.raise .notInitialized := if_pos hr

/-- Once READY the first step of GET_DUTY reads the cache entry of a channel below 16. -/
theorem getDutyStart_of_lt {s : State} {ch : BitVec 8} (hr : s.pwmState = .ready) (h : ch.toNat < 16) :
    getDutyStart ch s = s.thenRespond .ok (.value (BitVec.ofNat 16 s.cache[ch.toNat])) := by
  rw [getDutyStart, if_neg (not_not.mpr hr), channelOf_of_lt h]
  rfl

/-- Once READY the first step of GET_DUTY refuses a channel of 16 or more. -/
theorem getDutyStart_of_le {s : State} {ch : BitVec 8} (hr : s.pwmState = .ready) (h : 16 ≤ ch.toNat) :
    getDutyStart ch s = s.raise .invalidArgument := by
  rw [getDutyStart, if_neg (not_not.mpr hr), channelOf_of_le h]

/-- Settles O51: the state and the channel decide the first step; the second is R9's response. -/
theorem getDutyAnswersTheCache : Obligations.GetDutyAnswersTheCache := by
  refine ⟨reservedBitsAreAnsweredIllegalCommand .getDuty, fun _ => respondsNext_of_respondsLater rfl,
    fun s ch hp => ⟨fun hr => ?_, fun hch hr => ?_, fun hch hr => ?_⟩⟩
  · rw [exec_getDuty_of_phase_ne hp, getDutyStart_of_not_ready hr]
  · rw [exec_getDuty_of_phase_ne hp, getDutyStart_of_lt hr hch]
  · rw [exec_getDuty_of_phase_ne hp, getDutyStart_of_le hr hch]

/-! ## The period (R281 to R284) -/

/-- Before READY a period query refuses. -/
theorem State.answerPeriod_of_not_ready {s : State} (hr : s.pwmState ≠ .ready) : s.answerPeriod = s.raise .notInitialized :=
  if_pos hr

/-- Once READY a period query answers 4096. -/
theorem State.answerPeriod_of_ready {s : State} (hr : s.pwmState = .ready) : s.answerPeriod = s.respond .ok (.value 4096#16) :=
  if_neg (not_not.mpr hr)

/-- Before READY SET_PERIOD refuses every value. -/
theorem exec_setPeriod_of_not_ready {s : State} (hr : s.pwmState ≠ .ready) (val : BitVec 16) :
    exec (.setPeriod val) s = .next (s.raise .notInitialized) := congrArg _ (if_pos hr)

/-- Once READY the value decides what SET_PERIOD answers. -/
theorem exec_setPeriod_of_ready {s : State} (hr : s.pwmState = .ready) (val : BitVec 16) : exec (.setPeriod val) s =
    .next (if val.toNat ≠ Config.pwmMax then s.raise .invalidArgument else s.respond .ok .none) :=
  congrArg _ (if_neg (not_not.mpr hr))

/-- The one value whose number is `PWM_MAX`. -/
theorem toNat_ne_pwmMax {val : BitVec 16} (hv : val ≠ 4096#16) : val.toNat ≠ Config.pwmMax :=
  fun h => hv (BitVec.eq_of_toNat_eq h)

/-- Settles O52: READY decides the three queries, and READY and the value decide SET_PERIOD. -/
theorem thePeriodIsFixedAt4096 : Obligations.ThePeriodIsFixedAt4096 := by
  refine ⟨reservedBitsAreAnsweredIllegalCommand .getPeriod, reservedBitsAreAnsweredIllegalCommand .getPeriodMin,
    reservedBitsAreAnsweredIllegalCommand .getPeriodMax, reservedBitsAreAnsweredIllegalCommand .setPeriod,
    fun s hr => ?_, fun s hr => ?_⟩
  · have hquery := State.answerPeriod_of_not_ready hr
    exact ⟨congrArg _ hquery, congrArg _ hquery, congrArg _ hquery, exec_setPeriod_of_not_ready hr⟩
  · have hquery := State.answerPeriod_of_ready hr
    refine ⟨congrArg _ hquery, congrArg _ hquery, congrArg _ hquery, ?_, fun val hv => ?_⟩
    · rw [exec_setPeriod_of_ready hr]
      rfl
    · rw [exec_setPeriod_of_ready hr, if_pos (toNat_ne_pwmMax hv)]

end Sys2Proof.Machine
end

section
/-! PROOFS. The end of a command: every step answers a next state, a step that ends its command ends it with a status of the
command's row, and one that ends it with a caller error has changed no other state (60_exceptions R301, R303, R304, R308). -/

namespace Sys2Proof.Machine

/-! ## The statuses of `Transact` (40_bus_engine R150) -/

/-- What `Transact` may return. -/
theorem Status.fromBus_cases {st : Status} (h : st.fromBus = true) :
    st = .ok ∨ st = .busNackAddr ∨ st = .busNackData ∨ st = .busTimeout ∨ st = .busStretchTimeout := by
  cases st with
  | ok | busNackAddr | busNackData | busTimeout | busStretchTimeout => simp
  | deviceAbsent | invalidDescriptor | invalidArgument | notInitialized | alreadyInitialized | illegalCommand | tableFull =>
    cases h

/-- What `Transact` returns is never a caller error. -/
theorem Status.isCallerError_of_fromBus {st : Status} (h : st.fromBus = true) : st.isCallerError = false := by
  rcases Status.fromBus_cases h with rfl | rfl | rfl | rfl | rfl <;> rfl

/-- What `Transact` returns stands in the row of every bus command, but a refused data byte not in that of READ (R303). -/
theorem mem_allowedStatuses_of_fromBus {i : Instr} {st : Status} (hu : Instr.usesBus i = true) (h : st.fromBus = true)
    (hread : (∃ fd len, i = .readDesc fd len) → st ≠ .busNackData) : st ∈ allowedStatuses i := by
  have hst := Status.fromBus_cases h
  cases i with
  | execute | writeDesc | atomicTransfer => rcases hst with rfl | rfl | rfl | rfl | rfl <;> simp [allowedStatuses]
  | readDesc fd len =>
    have hne := hread ⟨fd, len, rfl⟩
    rcases hst with rfl | rfl | rfl | rfl | rfl
    case inr.inr.inl => exact absurd rfl hne
    all_goals simp [allowedStatuses]
  | busInit | pwmInit | setDuty | getDuty | getPeriod | getPeriodMin | getPeriodMax | setPeriod | flushTrigger | openDesc
  | closeDesc | bindAddress => cases hu

/-! ## A step that ends its command -/

/-- A step of command `i` from `s` to `t`, as its client's record shows it: the command goes on, or it is answered with a status
of its row, and with a caller error only by a `raise` from `s` itself. -/
inductive EndsInRow (s : State) (i : Instr) (t : State) : Prop
  | goesOn (hcmd : t.clients[s.env.cur]?.map Client.cmd = s.clients[s.env.cur]?.map Client.cmd)
  | answered {r : Response} (hrec : t.clients[s.env.cur]? = some (Client.answered r)) (hrow : r.status ∈ allowedStatuses i)
      (hraise : r.status.isCallerError = true → t = s.raise r.status)

section
variable {s t : State} {c : Client} {i : Instr} {st : Status}

/-- A step that leaves the clients' records alone goes on. -/
theorem EndsInRow.ofSame (h : t.clients = s.clients) : EndsInRow s i t := .goesOn (by rw [h])

/-- A step that changes the current client's record, but not its command, goes on. -/
theorem EndsInRow.ofUpd {f : Client → Client} (h : t.clients = s.clients.modify s.env.cur f) (hf : ∀ d, (f d).cmd = d.cmd) :
    EndsInRow s i t := by
  refine .goesOn ?_
  cases hd : s.clients[s.env.cur]? <;> simp [h, hd, hf]

/-- A lock step of the current client, or of the sequence it runs, goes on. -/
theorem EndsInRow.lockStep {r : Requester} (hr : r = .client s.env.cur ∨ r = .init) (segs : List Segment) (dflt : Addr7) :
    EndsInRow s i (s.lockStep r segs dflt) := by
  obtain ⟨o, g, e, h | ⟨x, h⟩⟩ := State.lockStep_writes s r segs dflt <;> rw [h]
  · exact .ofSame rfl
  · rcases hr with rfl | rfl
    · exact .ofUpd rfl fun _ => rfl
    · exact .ofSame rfl

section
variable (hc : s.clients[s.env.cur]? = some c)
include hc

/-- A refusal with a status of the row is an answer. -/
theorem EndsInRow.ofRaise (h : st ∈ allowedStatuses i) : EndsInRow s i (s.raise st) :=
  .answered (r := ⟨st, .none⟩) (State.updClient_self _ hc) h fun _ => rfl

/-- A response with a status of the row that is no caller error is an answer, whatever else the step has written. -/
theorem EndsInRow.ofRespond {u : State} {res : Result} (hcl : u.clients = s.clients) (hcur : u.env.cur = s.env.cur)
    (h : st ∈ allowedStatuses i) (hst : st.isCallerError = false) : EndsInRow s i (u.respond st res) :=
  .answered (r := ⟨st, res⟩) (by simp [hcl, hcur, hc]) h fun he => absurd he (by simp [hst])

/-- The answer `OK`. -/
theorem EndsInRow.ofOk {u : State} {res : Result} (hcl : u.clients = s.clients) (hcur : u.env.cur = s.env.cur) :
    EndsInRow s i (u.respond .ok res) := .ofRespond hc hcl hcur (ok_mem_allowedStatuses i) rfl

/-! ## The responses that wait in a legal state -/

/-- The response that is due is one of the row, and no caller error (R9, R303). -/
theorem EndsInRow.ofDue (hcl : ClientLegal c) (hi : c.instr = some i) {r : Response} (hp : s.phase = .respond r) :
    EndsInRow s i (s.respond r.status r.result) := by
  obtain ⟨-, hph⟩ := hcl
  rw [← State.phase_eq hc, hp] at hph
  obtain ⟨-, i', hi', -, hrow, hst⟩ := hph
  obtain rfl : i = i' := Option.some.inj (hi.symm.trans hi')
  exact .ofRespond hc rfl rfl hrow hst

/-- A step inside `Transact`: it goes on, or answers the delivered status. -/
theorem EndsInRow.clientTransactStep (hL : Legal s) (hi : c.instr = some i) (hu : Instr.usesBus i = true)
    (res : Status → Option (List Byte) → Result) :
    EndsInRow s i (s.clientTransactStep (fun st rx => s.respond st (res st rx))) := by
  rcases State.clientTransactStep_cases s (fun st rx => s.respond st (res st rx)) with
    ⟨segs, dflt, -, e⟩ | ⟨-, e⟩ | ⟨st, rx, ht, e⟩ | ⟨-, e⟩ <;> rw [e]
  · exact .lockStep (.inl rfl) segs dflt
  · exact .ofSame rfl
  · obtain ⟨⟨htx, -⟩, hread⟩ := hL.clients _ c hc
    rw [State.tx_client hc] at ht
    rw [ht] at htx
    obtain ⟨hbus, -⟩ := htx
    have hnack : (∃ fd len, i = .readDesc fd len) → st ≠ .busNackData := by
      rintro ⟨fd, len, rfl⟩
      obtain ⟨-, hreturned, -⟩ := hread ⟨fd, len, hi⟩
      exact hreturned st rx ht
    exact .ofRespond hc rfl rfl (mem_allowedStatuses_of_fromBus hu hbus hnack) (Status.isCallerError_of_fromBus hbus)
  · exact .ofSame rfl

/-- A step of the initialisation sequence: it goes on, a failure included, or completes with `OK` (R247, R248). -/
theorem EndsInRow.initSequenceStep : EndsInRow s i (initSequenceStep s) := by
  rcases initSequenceStep_cases s with e | ⟨segs, dflt, -, e⟩ | ⟨rx, -, -, e⟩ | ⟨rx, -, -, -, -, e⟩ | ⟨rx, -, -, -, e⟩ |
    ⟨st, rx, -, -, e⟩ | ⟨-, -, e⟩ <;> rw [e]
  · exact .ofSame rfl
  · exact .lockStep (.inr rfl) segs dflt
  · exact .ofSame rfl
  · exact .ofSame rfl
  · exact .ofSame rfl
  · exact .ofUpd rfl fun _ => rfl
  · exact .ofOk hc rfl rfl

/-! ## The commands, group by group -/

/-- EXECUTE, READ, WRITE and ATOMIC_TRANSFER. -/
theorem EndsInRow.ofExecBus (hL : Legal s) (hi : c.instr = some i) (hu : Instr.usesBus i = true) (h : exec i s = .next t) :
    EndsInRow s i t := by
  by_cases hp : s.phase = .bus
  · obtain ⟨res, e⟩ := execBus_bus_eq hu hp
    rw [e] at h
    cases h
    exact .clientTransactStep hc hL hi hu res
  · rcases execBus_start_cases hu hp h with ⟨st, rfl, -, hrow⟩ | ⟨res, rfl⟩ | ⟨segs, dflt, -, rfl, -⟩
    · exact .ofRaise hc hrow
    · exact .ofOk hc rfl rfl
    · exact .ofUpd rfl fun _ => rfl

/-- GET_DUTY, the period queries and SET_PERIOD. -/
theorem EndsInRow.ofExecChannelQuery (hcl : ClientLegal c) (hi : c.instr = some i) (hq : Instr.isChannelQuery i = true)
    (h : exec i s = .next t) : EndsInRow s i t := by
  rcases execChannelQuery_cases hq h with ⟨r, hp, -, rfl⟩ | ⟨st, res, rfl, hrow, hres⟩ | ⟨res, -, -, rfl⟩
  · exact .ofDue hc hcl hi hp
  · exact .answered (r := ⟨st, res⟩) (State.updClient_self _ hc) hrow fun he => by rw [hres he]; rfl
  · exact .ofUpd rfl fun _ => rfl

/-- OPEN, CLOSE and BIND_ADDRESS. -/
theorem EndsInRow.ofExecDesc (hcl : ClientLegal c) (hi : c.instr = some i) (hw : Instr.writesDesc i = true)
    (h : exec i s = .next t) : EndsInRow s i t := by
  rcases execDesc_cases hw h with ⟨r, hp, rfl⟩ | ⟨st, rfl, -, hrow⟩ | ⟨n, d, res, -, rfl⟩
  · exact .ofDue hc hcl hi hp
  · exact .ofRaise hc hrow
  · exact .ofUpd rfl fun _ => rfl

/-- BUS_INIT. -/
theorem EndsInRow.ofExecBusInit (hcl : ClientLegal c) (hi : c.instr = some .busInit) (h : exec .busInit s = .next t) :
    EndsInRow s .busInit t := by
  rcases execBusInit_cases h with ⟨r, hp, rfl⟩ | ⟨-, rfl⟩ | ⟨-, -, rfl⟩
  · exact .ofDue hc hcl hi hp
  · exact .ofRaise hc (by simp [allowedStatuses])
  · exact .ofUpd rfl fun _ => rfl

/-- FLUSH_TRIGGER. -/
theorem EndsInRow.ofExecFlushTrigger (hcl : ClientLegal c) (hi : c.instr = some .flushTrigger)
    (h : exec .flushTrigger s = .next t) : EndsInRow s .flushTrigger t := by
  rcases execFlushTrigger_cases h with ⟨r, hp, rfl⟩ | ⟨-, rfl⟩ | ⟨-, -, rfl⟩
  · exact .ofDue hc hcl hi hp
  · exact .ofRaise hc (by simp [allowedStatuses])
  · exact .ofUpd rfl fun _ => rfl

/-- SET_DUTY. -/
theorem EndsInRow.ofExecSetDuty {ch : BitVec 8} {val : BitVec 16} (h : exec (.setDuty ch val) s = .next t) :
    EndsInRow s (.setDuty ch val) t := by
  rcases execSetDuty_cases h with ⟨-, rfl⟩ | ⟨-, st, rfl, hst⟩ | ⟨-, -, k, -, rfl⟩
  · exact .ofOk hc rfl rfl
  · exact .ofRaise hc (by simp [allowedStatuses, hst])
  · exact .ofUpd rfl fun _ => rfl

/-- PWM_INIT. -/
theorem EndsInRow.ofExecPwmInit {freq : BitVec 16} {addr : Addr7} (hcl : ClientLegal c)
    (hi : c.instr = some (.pwmInit freq addr)) (h : exec (.pwmInit freq addr) s = .next t) :
    EndsInRow s (.pwmInit freq addr) t := by
  rcases execPwmInit_cases h with ⟨-, rfl⟩ | ⟨r, hp, rfl⟩ | ⟨-, st, rfl, hst⟩ | ⟨-, -, -, -, -, p, -, rfl⟩
  · exact .initSequenceStep hc
  · exact .ofDue hc hcl hi hp
  · refine .ofRaise hc ?_
    rcases hst with rfl | rfl | rfl <;> simp [allowedStatuses]
  · exact .ofUpd rfl fun _ => rfl

/-- Every step of a command in a legal state. -/
theorem Legal.exec_endsInRow (hL : Legal s) (hi : c.instr = some i) (h : exec i s = .next t) : EndsInRow s i t := by
  obtain ⟨hcl, -⟩ := hL.clients _ c hc
  cases i with
  | execute | readDesc | writeDesc | atomicTransfer => exact .ofExecBus hc hL hi rfl h
  | getDuty | getPeriod | getPeriodMin | getPeriodMax | setPeriod => exact .ofExecChannelQuery hc hcl hi rfl h
  | openDesc | closeDesc | bindAddress => exact .ofExecDesc hc hcl hi rfl h
  | busInit => exact .ofExecBusInit hc hcl hi h
  | flushTrigger => exact .ofExecFlushTrigger hc hcl hi h
  | setDuty => exact .ofExecSetDuty hc h
  | pwmInit => exact .ofExecPwmInit hc hcl hi h

end

/-- A client whose command a legal state's step ends holds a status of the command's row, and where that is a caller error the
step is its `raise`. -/
theorem Legal.answer_of_step {j : Nat} {r : Response} (hL : Legal s) (hr : s.runs j i) (h : step s = .next t)
    (hc : t.clients[j]? = some c) (hcmd : c.cmd = none) (hresp : c.resp = some r) :
    r.status ∈ allowedStatuses i ∧
      (r.status.isCallerError = true → t = (s.afterMove.selectClient j).raise r.status) := by
  obtain ⟨hm, hp⟩ := hr
  obtain ⟨d, hd, hi⟩ := State.pending_instr hp
  have hd' : s.afterMove.clients[j]? = some d := by rw [State.afterMove_clients, hd]
  rw [step_client hm, clientStep_of_instr hd' hi] at h
  cases (hL.afterMove_keeps.env_keeps _).exec_endsInRow (s := s.afterMove.selectClient j) hd' hi h with
  | goesOn hkept =>
    obtain ⟨cmd, hdc, -⟩ := Client.instr_eq_some hi
    simp [hc, hd, hcmd, hdc] at hkept
  | answered hrec hrow hraise =>
    rw [State.selectClient_env] at hrec
    obtain rfl : c = Client.answered _ := Option.some.inj (hc.symm.trans hrec)
    cases hresp
    exact ⟨hrow, hraise⟩

end

/-- Settles O18: a caller error is the answer of a `raise`, which changes the client's own record only. -/
theorem callerErrorsChangeNoState : Obligations.CallerErrorsChangeNoState :=
  fun _ _ _ _ _ _ hL hr h hc hcmd hresp => (hL.answer_of_step hr h hc hcmd hresp).2

/-- Settles O19: the answer of every kind of step stands in the command's row. -/
theorem everyStatusIsInTheCommandsRow : Obligations.EveryStatusIsInTheCommandsRow :=
  fun _ _ _ _ _ _ hL hr h hc hcmd hresp => (hL.answer_of_step hr h hc hcmd hresp).1

/-! ## Every step answers a next state (R308) -/

/-- Every command has a meaning in every state. -/
theorem exec_next (i : Instr) (s : State) : ∃ t, exec i s = .next t := by cases i <;> exact ⟨_, rfl⟩

/-- Every client's step answers a next state: it has none, it answers an illegal word, or it is a step of its command. -/
theorem clientStep_next (j : Nat) (s : State) : ∃ t, clientStep j s = .next t := by
  unfold clientStep
  cases s.pending j with
  | nothing => exact ⟨_, rfl⟩
  | illegal => exact ⟨_, rfl⟩
  | instr i => exact exec_next i _

/-- Settles O8: the moves are a client's step, and three that are functions of the state. -/
theorem stepAlwaysAnswersNext : Obligations.StepAlwaysAnswersNext := by
  intro s
  unfold step
  cases s.nextMove with
  | client j => exact clientStep_next j _
  | issue j cmd => exact ⟨_, rfl⟩
  | engine => exact ⟨_, rfl⟩
  | worker => exact ⟨_, rfl⟩

end Sys2Proof.Machine
end

section
/-! PROOFS. What every run comes to: a quiescent state has nothing left to flush, and a transaction ends (70_reset_and_hazards
R350, R352, 40_bus_engine R152). -/

namespace Sys2Proof.Machine

/-! ## The end of a run (R352) -/

/-- A client about to post has its SET_DUTY outstanding. -/
theorem ClientLegal.cmd_of_post {c : Client} (hcl : ClientLegal c) (hp : c.phase = .post) : c.cmd ≠ none := by
  obtain ⟨-, hph⟩ := hcl
  rw [hp] at hph
  obtain ⟨-, ch, val, hi⟩ := hph
  obtain ⟨cmd, hm, -⟩ := Client.instr_eq_some hi
  simp [hm]

/-- Settles O12: each of the three things a dirty bit may wait for is ruled out. -/
theorem quiescentMeansNothingDirty : Obligations.QuiescentMeansNothingDirty := by
  rintro s hL ⟨hcmd, -, -, hidle, hwake⟩
  by_contra hd
  rcases hL.dirty hd with hposted | hbusy | ⟨j, c, hc, hp⟩
  · omega
  · exact hbusy hidle
  · obtain ⟨hcl, -⟩ := hL.clients j c hc
    exact hcl.cmd_of_post hp (hcmd c (List.mem_of_getElem? hc))

/-! ## How many steps a transaction has left (R152) -/

section
variable {segs : List Segment} {k : Nat}

/-- The count includes the STOP. -/
theorem transactionEvents_pos (segs : List Segment) : 0 < transactionEvents segs := Nat.lt_add_right _ Nat.one_pos

/-- The segments from the current one on: its BEGIN, its address byte, its data bytes, and what follows. -/
theorem transactionEvents_drop {seg : Segment} (hs : segs[k]? = some seg) :
    transactionEvents (segs.drop k) = 2 + seg.len.toNat + transactionEvents (segs.drop (k + 1)) := by
  obtain ⟨hk, rfl⟩ := List.getElem?_eq_some_iff.mp hs
  rw [List.drop_eq_getElem_cons hk]
  simp only [transactionEvents, List.map_cons, List.sum_cons]
  omega

/-- The segments still to come need no more steps than all of them. -/
theorem transactionEvents_drop_le (segs : List Segment) (k : Nat) : transactionEvents (segs.drop k) ≤ transactionEvents segs :=
  Nat.add_le_add_left (((List.drop_sublist k segs).map _).sum_le_sum fun _ _ => Nat.zero_le _) 1

end

/-- The engine steps left until the lock is released, if the targets accept every byte to come. -/
def Engine.stepsLeft (e : Engine) : Nat :=
  match e.phase with
  | .idle => 0
  | .begin => transactionEvents (e.segs.drop e.k)
  | .addr => transactionEvents (e.segs.drop e.k) - 1
  | .wdata | .rdata => transactionEvents (e.segs.drop e.k) - (2 + e.i)
  | .stop => 1

/-- Registers `g` that keep the engine busy, with fewer steps left than `e` has. -/
def Engine.comesCloser (e g : Engine) : Prop := EngineBusy g ∧ g.stepsLeft < e.stepsLeft

section
variable {e : Engine} {seg : Segment}

/-- At STOP the release is the one step left. -/
theorem Engine.stepsLeft_of_stop (hp : e.phase = .stop) : e.stepsLeft = 1 := by simp only [Engine.stepsLeft, hp]

/-- At BEGIN the whole current segment is left, and what follows. -/
theorem Engine.stepsLeft_of_begin (hp : e.phase = .begin) : e.stepsLeft = transactionEvents (e.segs.drop e.k) := by
  simp only [Engine.stepsLeft, hp]

/-- At ADDR the address byte and the data bytes are left, and what follows. -/
theorem Engine.stepsLeft_of_addr (hp : e.phase = .addr) (hs : e.segs[e.k]? = some seg) :
    e.stepsLeft = 1 + seg.len.toNat + transactionEvents (e.segs.drop (e.k + 1)) := by
  simp only [Engine.stepsLeft, hp, transactionEvents_drop hs]
  omega

/-- In a data phase the data bytes from `i` on are left, and what follows. -/
theorem Engine.stepsLeft_of_data (hp : e.phase = .wdata ∨ e.phase = .rdata) (hs : e.segs[e.k]? = some seg)
    (hi : e.i ≤ seg.len.toNat) : e.stepsLeft = seg.len.toNat - e.i + transactionEvents (e.segs.drop (e.k + 1)) := by
  rcases hp with hp | hp <;> simp only [Engine.stepsLeft, hp, transactionEvents_drop hs] <;> omega

/-- Never more steps are left than the whole transaction has. -/
theorem Engine.stepsLeft_le (e : Engine) : e.stepsLeft ≤ transactionEvents e.segs := by
  have hdrop := transactionEvents_drop_le e.segs e.k
  have hpos := transactionEvents_pos e.segs
  unfold Engine.stepsLeft
  cases e.phase <;> dsimp only <;> omega

/-- After `Next()` only the segments that follow are left. -/
theorem Engine.stepsLeft_next_le (e : Engine) : e.next.stepsLeft ≤ transactionEvents (e.segs.drop (e.k + 1)) := by
  rcases e.next_cases with ⟨-, he⟩ | ⟨-, he⟩ <;> rw [he]
  · exact Nat.le_refl _
  · exact transactionEvents_pos _

/-! ## Every step comes closer to the release (R137 to R144) -/

/-- The cursor of a busy engine is inside the list of segments. -/
theorem EngineBusy.k_lt (hb : EngineBusy e) : e.k < e.segs.length := by
  obtain ⟨seg, hs, -⟩ := hb.cursor
  exact (List.getElem?_eq_some_iff.mp hs).1

/-- The cursors of a busy engine fit the segment they point at. -/
theorem EngineBusy.fits (hb : EngineBusy e) (hs : e.segs[e.k]? = some seg) : cursorFits e seg := by
  obtain ⟨seg', hs', hfit⟩ := hb.cursor
  rw [hs] at hs'
  obtain rfl := Option.some.inj hs'
  exact hfit

/-- A read of a busy engine has data (R135). -/
theorem EngineBusy.len_ne_zero_of_read (hb : EngineBusy e) (hs : e.segs[e.k]? = some seg) (hd : seg.dir = .read) :
    seg.len ≠ 0#16 := by
  have hlegal := List.all_eq_true.mp hb.segs.2 seg (List.mem_of_getElem? hs)
  simp only [segLegal, segLenOk, hd, Bool.and_eq_true] at hlegal
  simpa using hlegal.2

/-- The fault path leaves the STOP step only (R144). -/
theorem EngineBusy.fail_comesCloser {st : Status} (hb : EngineBusy e) (hst : st.fromBus = true) (hleft : 1 < e.stepsLeft) :
    e.comesCloser (e.fail st) := by
  refine ⟨.fail st hb.segs hst hb.k_lt, ?_⟩
  rw [Engine.stepsLeft_of_stop (e := e.fail st) rfl]
  exact hleft

/-- The BEGIN step. -/
theorem EngineBusy.begin_comesCloser (hb : EngineBusy e) (hp : e.phase = .begin) :
    e.comesCloser { e with i := 0, phase := .addr } := by
  obtain ⟨seg, hs, -⟩ := hb.cursor
  refine ⟨⟨by simp, hb.segs, ⟨seg, hs, by simp [cursorFits]⟩, hb.status, fun _ => hb.okYet (by simp [hp])⟩, ?_⟩
  rw [Engine.stepsLeft_of_begin hp]
  exact Nat.sub_lt (transactionEvents_pos _) Nat.one_pos

/-- An acknowledged address byte of a segment with data opens its data phase. -/
theorem EngineBusy.data_comesCloser {p : EngPhase} (hb : EngineBusy e) (hp : e.phase = .addr) (hs : e.segs[e.k]? = some seg)
    (hl : seg.len ≠ 0#16) (hdata : p = .wdata ∧ seg.dir = .write ∨ p = .rdata ∧ seg.dir = .read) :
    e.comesCloser { e with phase := p } := by
  have hi : e.i = 0 := by simpa [cursorFits, hp] using hb.fits hs
  have hlen : 0 < seg.len.toNat := by
    have := BitVec.toNat_ne_iff_ne.mpr hl
    simp only [BitVec.toNat_ofNat] at this
    omega
  have hok : e.status = .ok := hb.okYet (by simp [hp])
  have hleft : Engine.stepsLeft { e with phase := p } = _ :=
    Engine.stepsLeft_of_data (hdata.imp And.left And.left) hs (by simp [hi])
  refine ⟨⟨?_, hb.segs, ⟨seg, hs, ?_⟩, hb.status, fun _ => hok⟩, ?_⟩
  · rcases hdata with ⟨rfl, -⟩ | ⟨rfl, -⟩ <;> simp
  · rcases hdata with ⟨rfl, hd⟩ | ⟨rfl, hd⟩ <;> simp [cursorFits, hd, hi, hlen]
  · rw [hleft, Engine.stepsLeft_of_addr hp hs]
    dsimp only
    omega

/-- The ADDR step. -/
theorem EngineBusy.afterAddr_comesCloser (hb : EngineBusy e) (hp : e.phase = .addr) (hs : e.segs[e.k]? = some seg)
    (q : TargetAnswer) : e.comesCloser (e.afterAddr seg q) := by
  have hleft := Engine.stepsLeft_of_addr hp hs
  have hpos := transactionEvents_pos (e.segs.drop (e.k + 1))
  rcases e.afterAddr_cases seg q with ⟨st, hf, ha⟩ | ⟨-, hd, ha⟩ | ⟨-, -, -, ha⟩ | ⟨-, hd, hl, ha⟩ <;> rw [ha]
  · exact hb.fail_comesCloser (addrFailure_fromBus hf).1 (by omega)
  · exact hb.data_comesCloser hp hs (hb.len_ne_zero_of_read hs hd) (.inr ⟨rfl, hd⟩)
  · have hnext := e.stepsLeft_next_le
    exact ⟨.next hb.segs (hb.okYet (by simp [hp])) hb.k_lt, by omega⟩
  · exact hb.data_comesCloser hp hs hl (.inl ⟨rfl, hd⟩)

/-- A byte done in a data phase. -/
theorem EngineBusy.byteDone_comesCloser (hb : EngineBusy e) (hs : e.segs[e.k]? = some seg) (hi : e.i < seg.len.toNat)
    (hph : e.phase = .wdata ∧ seg.dir = .write ∨ e.phase = .rdata ∧ seg.dir = .read) : e.comesCloser (e.byteDone seg) := by
  have hdata : e.phase = .wdata ∨ e.phase = .rdata := hph.imp And.left And.left
  have hok : e.status = .ok := hb.okYet (by rcases hdata with hp | hp <;> simp [hp])
  have hleft := Engine.stepsLeft_of_data hdata hs (Nat.le_of_lt hi)
  refine ⟨(EngineBusy.byteDone hb.segs hok hs hi hph).1, ?_⟩
  by_cases hlast : e.i + 1 = seg.len.toNat
  · have hnext : ({ e with i := e.i + 1 } : Engine).next.stepsLeft ≤ transactionEvents (e.segs.drop (e.k + 1)) :=
      Engine.stepsLeft_next_le _
    rw [Engine.byteDone_of_eq hlast]
    omega
  · have hmore : Engine.stepsLeft { e with i := e.i + 1 } = _ := Engine.stepsLeft_of_data hdata hs hi
    rw [Engine.byteDone_of_ne hlast, hmore]
    dsimp only
    omega

/-- The WDATA step. -/
theorem EngineBusy.afterTx_comesCloser (hb : EngineBusy e) (hp : e.phase = .wdata) (hs : e.segs[e.k]? = some seg)
    (q : TargetAnswer) : e.comesCloser (e.afterTx seg q) := by
  obtain ⟨hd, hi⟩ : seg.dir = .write ∧ e.i < seg.len.toNat := by simpa [cursorFits, hp] using hb.fits hs
  have hleft := Engine.stepsLeft_of_data (.inl hp) hs (Nat.le_of_lt hi)
  have hpos := transactionEvents_pos (e.segs.drop (e.k + 1))
  unfold Engine.afterTx
  cases hf : dataFailure q with
  | some st => exact hb.fail_comesCloser (dataFailure_fromBus hf) (by omega)
  | none => exact hb.byteDone_comesCloser hs hi (.inl ⟨hp, hd⟩)

/-- The RDATA step. -/
theorem EngineBusy.afterRx_comesCloser (hb : EngineBusy e) (hp : e.phase = .rdata) (hs : e.segs[e.k]? = some seg)
    (x : RxAnswer) : e.comesCloser (e.afterRx seg x) := by
  obtain ⟨hd, hi⟩ : seg.dir = .read ∧ e.i < seg.len.toNat := by simpa [cursorFits, hp] using hb.fits hs
  have hleft := Engine.stepsLeft_of_data (.inr hp) hs (Nat.le_of_lt hi)
  have hpos := transactionEvents_pos (e.segs.drop (e.k + 1))
  cases x with
  | fail f => exact hb.fail_comesCloser (st := rxFailureStatus f) (by cases f <;> rfl) (by omega)
  | byte v =>
    have hb' : EngineBusy { e with rx := e.rx ++ [v] } := ⟨hb.active, hb.segs, hb.cursor, hb.status, hb.okYet⟩
    exact hb'.byteDone_comesCloser hs hi (.inr ⟨hp, hd⟩)

end

section
variable {s : State} {r : Requester}

/-- Every step before STOP. -/
theorem engineStep_comesCloser (ho : s.lockOwner = some r) (hb : EngineBusy s.eng) (hp : s.eng.phase ≠ .stop) :
    s.eng.comesCloser (engineStep s).eng := by
  rcases engineStep_cases s with he | ⟨-, -, ⟨hp', he⟩ | ⟨seg, hp', hs, he⟩ | ⟨seg, d, hp', hs, -, he⟩ | ⟨seg, hp', hs, he⟩ |
    ⟨hp', -⟩⟩
  · obtain ⟨ev, htrace, -⟩ := engineStepIsARowOfTheTable s (by simp [ho]) hb
    simp [he] at htrace
  · rw [he]
    exact hb.begin_comesCloser hp'
  · rw [he]
    exact hb.afterAddr_comesCloser hp' hs _
  · rw [he]
    exact hb.afterTx_comesCloser hp' hs _
  · rw [he]
    exact hb.afterRx_comesCloser hp' hs _
  · exact absurd hp' hp

/-- A step of the busy engine is the last, which releases the lock, or keeps it and comes closer. -/
theorem EngineBusy.engineStep_releases_or_comesCloser (ho : s.lockOwner = some r) (hb : EngineBusy s.eng) :
    (s.eng.stepsLeft = 1 ∧ (engineStep s).lockOwner = none) ∨
    ((engineStep s).lockOwner = some r ∧ s.eng.comesCloser (engineStep s).eng) := by
  by_cases hp : s.eng.phase = .stop
  · exact .inl ⟨Engine.stepsLeft_of_stop hp, by rw [engineStep_of_stop ho hp]; simp [engineStop]⟩
  · exact .inr ⟨(hb.fault_stops ho hp).1, engineStep_comesCloser ho hb hp⟩

/-- As many engine steps as are left release the lock. -/
theorem EngineBusy.released_within_stepsLeft (ho : s.lockOwner = some r) (hb : EngineBusy s.eng) :
    ∃ n, n ≤ s.eng.stepsLeft ∧ (engineStep^[n] s).lockOwner = none := by
  induction hleft : s.eng.stepsLeft using Nat.strong_induction_on generalizing s with
  | _ left ih =>
    subst hleft
    rcases hb.engineStep_releases_or_comesCloser ho with ⟨hone, hfree⟩ | ⟨ho', hb', hlt⟩
    · exact ⟨1, by omega, hfree⟩
    · obtain ⟨n, hn, hfree⟩ := ih _ hlt ho' hb' rfl
      exact ⟨n + 1, by omega, hfree⟩

end

/-! ## The engine moves on a fair execution (R350) -/

/-- What keeps an agent's step enabled, and what every other move keeps, lasts until the agent moves, if it is treated fairly. -/
theorem Execution.moves_of_kept {x : Execution} {a : Agent} {P : State → Prop} (hf : x.weaklyFair a)
    (hen : ∀ s, P s → s.enabled a = true) (hkept : ∀ m, P (x.state m) → x.move m ≠ a.move → P (x.state (m + 1)))
    {n : Nat} (h : P (x.state n)) : ∃ m, n ≤ m ∧ P (x.state m) ∧ x.move m = a.move := by
  by_contra hno
  have hlasts : ∀ m, n ≤ m → P (x.state m) := by
    intro m hm
    induction m, hm using Nat.le_induction with
    | base => exact h
    | succ m hm ih => exact hkept m ih fun hmove => hno ⟨m, hm, ih, hmove⟩
  obtain ⟨m, hm, hdis | hmove⟩ := hf n
  · rw [hen _ (hlasts m hm)] at hdis
    cases hdis
  · exact hno ⟨m, hm, hlasts m hm, hmove⟩

/-- Requester `r` holds the lock, with these engine registers. -/
def State.holdsWith (r : Requester) (g : Engine) (s : State) : Prop := s.lockOwner = some r ∧ s.eng = g

section
variable {x : Execution} {n : Nat} {r : Requester} {g : Engine}

/-- A held lock and the engine registers stay until the engine moves. -/
theorem Execution.holdsWith_succ (h : (x.state n).holdsWith r g) (hm : x.move n ≠ .engine) :
    (x.state (n + 1)).holdsWith r g := by
  obtain ⟨ho, hg⟩ := h
  obtain ⟨e, he⟩ := x.steps n
  obtain ⟨hlock, heng⟩ := runMove_engine_kept he hm (by simp [ho])
  exact ⟨hlock.trans ho, heng.trans hg⟩

/-- On an execution weakly fair to it, the engine of a held lock takes its step, from the registers it has. -/
theorem Execution.engine_moves_of_held (hf : x.weaklyFair .engine) (h : (x.state n).holdsWith r g) :
    ∃ m, n ≤ m ∧ (x.state m).holdsWith r g ∧ x.move m = .engine :=
  x.moves_of_kept hf (fun s hs => by simp [State.enabled, hs.1]) (fun _ => x.holdsWith_succ) h

/-- On an execution weakly fair to the engine a held lock is released. -/
theorem Execution.released_of_weaklyFair (hf : x.weaklyFair .engine) (h : (x.state n).holdsWith r g) (hb : EngineBusy g) :
    ∃ m, n ≤ m ∧ (x.state m).lockOwner = none := by
  induction hleft : g.stepsLeft using Nat.strong_induction_on generalizing n g with
  | _ left ih =>
    subst hleft
    obtain ⟨m, hnm, ⟨ho, rfl⟩, hmove⟩ := Execution.engine_moves_of_held hf h
    obtain ⟨e, he⟩ := x.steps m
    rw [hmove] at he
    have hnext := Host.Outcome.next.inj he
    rcases EngineBusy.engineStep_releases_or_comesCloser (s := { x.state m with env := e }) ho hb with
      ⟨-, hfree⟩ | ⟨ho', hb', hlt⟩
    · exact ⟨m + 1, by omega, hnext ▸ hfree⟩
    · rw [hnext] at ho' hb' hlt
      obtain ⟨m', hm', hfree⟩ := ih _ hlt ⟨ho', rfl⟩ hb' rfl
      exact ⟨m', by omega, hfree⟩

end

/-- Settles O30: the steps left bound the steps to the release, and fairness makes the engine take them. -/
theorem everyTransactionEndsInBoundedSteps : Obligations.EveryTransactionEndsInBoundedSteps := by
  refine ⟨fun s hl hb => ?_, fun x n hf hl hb => ?_⟩
  · obtain ⟨r, ho⟩ := Option.ne_none_iff_exists'.mp hl
    obtain ⟨n, hn, hfree⟩ := hb.released_within_stepsLeft ho
    exact ⟨n, hn.trans s.eng.stepsLeft_le, hfree⟩
  · obtain ⟨r, ho⟩ := Option.ne_none_iff_exists'.mp hl
    exact Execution.released_of_weaklyFair hf ⟨ho, rfl⟩ hb

end Sys2Proof.Machine
end
